-- ==== Sys2Proof/Word.lean ====
section
/-! DEFINITION. The word type of the block: every operand, result and peer register is one byte
(00_scope.md R9, R13, R14; 30_encoding.md R107). -/

namespace Sys2Proof

/-- One byte. Bit 0 is the least significant bit (00_scope.md R13). -/
abbrev Byte := BitVec 8

end Sys2Proof
end

