-- ==== Sys2Proof/Config.lean ====
section
/-! DEFINITION. What the spec leaves to the model: the two oracles of 00_scope.md R10 as free values
(no body, so that no proof can know them), and the default of the one parameter (R12). -/

namespace Sys2Proof.Config

/-- 00_scope.md R10, `Transport`: the transport's answer number k, when no scripted answer is left:
`none` is `fail`, `some c` is `ok` with c bytes delivered. FREE VALUE (log entry 3). -/
opaque transport : Nat → Option Nat

/-- 00_scope.md R10, `PeerDraw`: byte number `i` of the bytes that such an answer number k delivers.
FREE VALUE (log entry 3). -/
opaque peerDraw : Nat → Nat → Byte

/-- 00_scope.md R12: the default of `P_HAS_TEMPERATURE`. -/
def hasTemperatureDefault : Bool := true

end Sys2Proof.Config
end

