-- ==== Sys2Proof/Syntax.lean ====
section
/-! DEFINITION. The command and response frames (30_encoding.md R100, R101), the 32 commands (R105),
the pseudo-instructions (R119) and the error kinds (60_exceptions.md R400). -/

namespace Sys2Proof

/-- 30_encoding.md R100: the command frame x[0]..x[15]; x[0] is the opcode, x[i] the operand P_i.
A byte that is not given is 0x00. -/
structure CmdFrame where
  op : Byte := 0x00
  p1 : Byte := 0x00
  p2 : Byte := 0x00
  p3 : Byte := 0x00
  p4 : Byte := 0x00
  p5 : Byte := 0x00
  p6 : Byte := 0x00
  p7 : Byte := 0x00
  p8 : Byte := 0x00
  p9 : Byte := 0x00
  p10 : Byte := 0x00
  p11 : Byte := 0x00
  p12 : Byte := 0x00
  p13 : Byte := 0x00
  p14 : Byte := 0x00
  p15 : Byte := 0x00
deriving DecidableEq, Repr

/-- 30_encoding.md R101: the response frame y[0]..y[15]; y[0] is the error code, y[i] the result Q_i.
A byte that is not given is 0x00 (R104). -/
structure RspFrame where
  err : Byte := 0x00
  q1 : Byte := 0x00
  q2 : Byte := 0x00
  q3 : Byte := 0x00
  q4 : Byte := 0x00
  q5 : Byte := 0x00
  q6 : Byte := 0x00
  q7 : Byte := 0x00
  q8 : Byte := 0x00
  q9 : Byte := 0x00
  q10 : Byte := 0x00
  q11 : Byte := 0x00
  q12 : Byte := 0x00
  q13 : Byte := 0x00
  q14 : Byte := 0x00
  q15 : Byte := 0x00
deriving DecidableEq, Repr

/-- 30_encoding.md R108: a CalendarTime operand block, seven bytes in this order. -/
structure TimeBlock where
  sec : Byte
  min : Byte
  hour : Byte
  dow : Byte
  date : Byte
  month : Byte
  year : Byte
deriving DecidableEq, Repr

/-- 60_exceptions.md R400: the kinds of error a command can end with. -/
inductive ErrorKind where
  /-- R401 -/
  | outOfRange
  /-- R402 -/
  | unsupportedAlarmVariant
  /-- R403 -/
  | malformedRegisterData
  /-- R404 -/
  | transportFailure
  /-- R405 -/
  | illegalCommand
deriving DecidableEq, Repr

/-- The commands of 30_encoding.md R105, one constructor per row of spec/opcode_table.json.
Operands are the raw bytes P_i that the command's rule names; their domains are checked when the
command runs (R107), because a value out of its domain is an error response, not an illegal frame. -/
inductive Instr where
  /-- BCD.PACK (40_bcd.md R202) -/
  | bcdPack (value : Byte)
  /-- BCD.UNPACK (R203) -/
  | bcdUnpack (b : Byte)
  /-- HOUR.ENC (41_hour.md R214) -/
  | hourEnc (mode hour24 : Byte)
  /-- HOUR.DEC (R215) -/
  | hourDec (b : Byte)
  /-- HOUR.DISP (R216) -/
  | hourDisp (mode hour24 : Byte)
  /-- HOUR.TO24 (R217) -/
  | hourTo24 (hour isPM : Byte)
  /-- CLK.BUILD (42_clock.md R232) -/
  | clkBuild (time : TimeBlock) (mode : Byte)
  /-- CLK.PARSE (R233) -/
  | clkParse (count b0 b1 b2 b3 b4 b5 b6 : Byte)
  /-- CLK.SET (R234) -/
  | clkSet (time : TimeBlock) (mode : Byte)
  /-- CLK.READ (R235) -/
  | clkRead
  /-- A1.ENC (43_alarm.md R260) -/
  | a1Enc (variant sec min hour dd : Byte)
  /-- A2.ENC (R261): P2 is not an operand -/
  | a2Enc (variant min hour dd : Byte)
  /-- A1.DEC (R262) -/
  | a1Dec (count b0 b1 b2 b3 : Byte)
  /-- A2.DEC (R263) -/
  | a2Dec (count b0 b1 b2 : Byte)
  /-- A.OFFSET (R264) -/
  | aOffset (base : TimeBlock) (offset : Byte)
  /-- A1.SET (R265) -/
  | a1Set (variant sec min hour dd : Byte)
  /-- A1.READ (R266) -/
  | a1Read
  /-- A2.SET (R267): P2 is not an operand -/
  | a2Set (variant min hour dd : Byte)
  /-- A2.READ (R268) -/
  | a2Read
  /-- ST.DEC (44_status_control.md R285) -/
  | stDec (b : Byte)
  /-- ST.CLR (R286) -/
  | stClr (b select : Byte)
  /-- CTL.BUILD (R287) -/
  | ctlBuild (intcn a1e a2e rate : Byte)
  /-- SQW.CODE (R288) -/
  | sqwCode (rate : Byte)
  /-- CTL.DEC (R289) -/
  | ctlDec (b : Byte)
  /-- ST.READ (R290) -/
  | stRead
  /-- ST.CLRF (R291) -/
  | stClrf (select : Byte)
  /-- SQW.SET (R292) -/
  | sqwSet (rate : Byte)
  /-- SQW.OFF (R293) -/
  | sqwOff
  /-- CTL.READ (R294) -/
  | ctlRead
  /-- CTL.WRITE (R295) -/
  | ctlWrite (intcn a1e a2e rate : Byte)
  /-- T.DEC (45_temperature.md R311) -/
  | tDec (msb lsb : Byte)
  /-- T.READ (R312) -/
  | tRead
deriving DecidableEq, Repr

/-- The pseudo-instructions of 30_encoding.md R119. -/
inductive Pseudo where
  | clkSet24 (time : TimeBlock)
  | clkSet12 (time : TimeBlock)
  | clkParse7 (b0 b1 b2 b3 b4 b5 b6 : Byte)
  | a1SetTime (sec min hour : Byte)
  | a1SetDate (sec min hour date : Byte)
  | a1SetDay (sec min hour day : Byte)
  | a2SetDate (min hour date : Byte)
  | a2SetDay (min hour day : Byte)
  | stClr1
  | stClr2
  | stClrAll
deriving DecidableEq, Repr

end Sys2Proof
end

