-- ==== Sys2Proof/Decode.lean ====
section
/-! DEFINITION. The decoder (30_encoding.md R102, R103, R105, R106), total on every frame; after it the
encoder, written from the same table, the assembler (R118) and the pseudo-instructions (R119). -/

namespace Sys2Proof

/-- Why a frame is no command. -/
inductive DecodeError where
  /-- 30_encoding.md R106: the opcode byte is not assigned. -/
  | illegalOpcode (op : Byte)
deriving DecidableEq, Repr

/-- The CalendarTime block at P1..P7 (30_encoding.md R108). -/
def CmdFrame.timeBlock (f : CmdFrame) : TimeBlock :=
  { sec := f.p1, min := f.p2, hour := f.p3, dow := f.p4, date := f.p5, month := f.p6, year := f.p7 }

/-- 30_encoding.md R102: the opcode byte alone picks the command, by exact match (R105); every other
opcode is illegal (R106), and 0x50 and 0x51 are when the parameter is false (00_scope.md R12). Only
the operand bytes named in R105 are read (R103). -/
def decode (hasTemperature : Bool) (f : CmdFrame) : Except DecodeError Instr :=
  match f.op.toNat with
  | 0x01 => .ok (.bcdPack f.p1)
  | 0x02 => .ok (.bcdUnpack f.p1)
  | 0x10 => .ok (.hourEnc f.p1 f.p2)
  | 0x11 => .ok (.hourDec f.p1)
  | 0x12 => .ok (.hourDisp f.p1 f.p2)
  | 0x13 => .ok (.hourTo24 f.p1 f.p2)
  | 0x20 => .ok (.clkBuild f.timeBlock f.p8)
  | 0x21 => .ok (.clkParse f.p1 f.p2 f.p3 f.p4 f.p5 f.p6 f.p7 f.p8)
  | 0x22 => .ok (.clkSet f.timeBlock f.p8)
  | 0x23 => .ok .clkRead
  | 0x30 => .ok (.a1Enc f.p1 f.p2 f.p3 f.p4 f.p5)
  | 0x31 => .ok (.a2Enc f.p1 f.p3 f.p4 f.p5)
  | 0x32 => .ok (.a1Dec f.p1 f.p2 f.p3 f.p4 f.p5)
  | 0x33 => .ok (.a2Dec f.p1 f.p2 f.p3 f.p4)
  | 0x34 => .ok (.aOffset f.timeBlock f.p8)
  | 0x35 => .ok (.a1Set f.p1 f.p2 f.p3 f.p4 f.p5)
  | 0x36 => .ok .a1Read
  | 0x37 => .ok (.a2Set f.p1 f.p3 f.p4 f.p5)
  | 0x38 => .ok .a2Read
  | 0x40 => .ok (.stDec f.p1)
  | 0x41 => .ok (.stClr f.p1 f.p2)
  | 0x42 => .ok (.ctlBuild f.p1 f.p2 f.p3 f.p4)
  | 0x43 => .ok (.sqwCode f.p1)
  | 0x44 => .ok (.ctlDec f.p1)
  | 0x45 => .ok .stRead
  | 0x46 => .ok (.stClrf f.p1)
  | 0x47 => .ok (.sqwSet f.p1)
  | 0x48 => .ok .sqwOff
  | 0x49 => .ok .ctlRead
  | 0x4A => .ok (.ctlWrite f.p1 f.p2 f.p3 f.p4)
  | 0x50 => if hasTemperature then .ok (.tDec f.p1 f.p2) else .error (.illegalOpcode f.op)
  | 0x51 => if hasTemperature then .ok .tRead else .error (.illegalOpcode f.op)
  | _ => .error (.illegalOpcode f.op)

/-- A frame with a CalendarTime block at P1..P7 and one more operand at P8. -/
def CmdFrame.ofTimeBlock (op : Byte) (t : TimeBlock) (p8 : Byte) : CmdFrame :=
  { op, p1 := t.sec, p2 := t.min, p3 := t.hour, p4 := t.dow, p5 := t.date, p6 := t.month,
    p7 := t.year, p8 }

/-- 30_encoding.md R105, R118: the frame of a command; bytes that are no operand are 0x00. -/
def encode : Instr → CmdFrame
  | .bcdPack value => { op := 0x01, p1 := value }
  | .bcdUnpack b => { op := 0x02, p1 := b }
  | .hourEnc mode hour24 => { op := 0x10, p1 := mode, p2 := hour24 }
  | .hourDec b => { op := 0x11, p1 := b }
  | .hourDisp mode hour24 => { op := 0x12, p1 := mode, p2 := hour24 }
  | .hourTo24 hour isPM => { op := 0x13, p1 := hour, p2 := isPM }
  | .clkBuild time mode => CmdFrame.ofTimeBlock 0x20 time mode
  | .clkParse count b0 b1 b2 b3 b4 b5 b6 =>
    { op := 0x21, p1 := count, p2 := b0, p3 := b1, p4 := b2, p5 := b3, p6 := b4, p7 := b5, p8 := b6 }
  | .clkSet time mode => CmdFrame.ofTimeBlock 0x22 time mode
  | .clkRead => { op := 0x23 }
  | .a1Enc variant sec min hour dd =>
    { op := 0x30, p1 := variant, p2 := sec, p3 := min, p4 := hour, p5 := dd }
  | .a2Enc variant min hour dd => { op := 0x31, p1 := variant, p3 := min, p4 := hour, p5 := dd }
  | .a1Dec count b0 b1 b2 b3 => { op := 0x32, p1 := count, p2 := b0, p3 := b1, p4 := b2, p5 := b3 }
  | .a2Dec count b0 b1 b2 => { op := 0x33, p1 := count, p2 := b0, p3 := b1, p4 := b2 }
  | .aOffset base offset => CmdFrame.ofTimeBlock 0x34 base offset
  | .a1Set variant sec min hour dd =>
    { op := 0x35, p1 := variant, p2 := sec, p3 := min, p4 := hour, p5 := dd }
  | .a1Read => { op := 0x36 }
  | .a2Set variant min hour dd => { op := 0x37, p1 := variant, p3 := min, p4 := hour, p5 := dd }
  | .a2Read => { op := 0x38 }
  | .stDec b => { op := 0x40, p1 := b }
  | .stClr b select => { op := 0x41, p1 := b, p2 := select }
  | .ctlBuild intcn a1e a2e rate => { op := 0x42, p1 := intcn, p2 := a1e, p3 := a2e, p4 := rate }
  | .sqwCode rate => { op := 0x43, p1 := rate }
  | .ctlDec b => { op := 0x44, p1 := b }
  | .stRead => { op := 0x45 }
  | .stClrf select => { op := 0x46, p1 := select }
  | .sqwSet rate => { op := 0x47, p1 := rate }
  | .sqwOff => { op := 0x48 }
  | .ctlRead => { op := 0x49 }
  | .ctlWrite intcn a1e a2e rate => { op := 0x4A, p1 := intcn, p2 := a1e, p3 := a2e, p4 := rate }
  | .tDec msb lsb => { op := 0x50, p1 := msb, p2 := lsb }
  | .tRead => { op := 0x51 }

/-- Byte `k` of a number whose least significant byte is byte 0. -/
def byteOfWord (w k : Nat) : Byte := BitVec.ofNat 8 (w >>> (8 * k))

/-- The frame whose byte x[k] is byte `k` of `w`, the bits of `w` from `nbits` on taken as 0. -/
def frameOfWord (nbits w : Nat) : CmdFrame :=
  let v := w % 2 ^ nbits
  { op := byteOfWord v 0, p1 := byteOfWord v 1, p2 := byteOfWord v 2, p3 := byteOfWord v 3,
    p4 := byteOfWord v 4, p5 := byteOfWord v 5, p6 := byteOfWord v 6, p7 := byteOfWord v 7,
    p8 := byteOfWord v 8, p9 := byteOfWord v 9, p10 := byteOfWord v 10, p11 := byteOfWord v 11,
    p12 := byteOfWord v 12, p13 := byteOfWord v 13, p14 := byteOfWord v 14, p15 := byteOfWord v 15 }

/-- What the decoder reads from a command whose bits are `w`, numbered as spec/opcode_table.json
numbers them, at the parameter's default. -/
def decodeTableWord (nbits w : Nat) : Option Instr :=
  match decode Config.hasTemperatureDefault (frameOfWord nbits w) with
  | .ok i => some i
  | .error _ => none

/-- 30_encoding.md R105: the mnemonics and their opcodes. -/
def opcodeTable : List (String × Byte) :=
  [("BCD.PACK", 0x01), ("BCD.UNPACK", 0x02), ("HOUR.ENC", 0x10), ("HOUR.DEC", 0x11),
   ("HOUR.DISP", 0x12), ("HOUR.TO24", 0x13), ("CLK.BUILD", 0x20), ("CLK.PARSE", 0x21)] ++
  [("CLK.SET", 0x22), ("CLK.READ", 0x23), ("A1.ENC", 0x30), ("A2.ENC", 0x31),
   ("A1.DEC", 0x32), ("A2.DEC", 0x33), ("A.OFFSET", 0x34), ("A1.SET", 0x35)] ++
  [("A1.READ", 0x36), ("A2.SET", 0x37), ("A2.READ", 0x38), ("ST.DEC", 0x40),
   ("ST.CLR", 0x41), ("CTL.BUILD", 0x42), ("SQW.CODE", 0x43), ("CTL.DEC", 0x44)] ++
  [("ST.READ", 0x45), ("ST.CLRF", 0x46), ("SQW.SET", 0x47), ("SQW.OFF", 0x48),
   ("CTL.READ", 0x49), ("CTL.WRITE", 0x4A), ("T.DEC", 0x50), ("T.READ", 0x51)]

/-- A frame from an opcode and the operand bytes P1, P2, … in order; omitted trailing operands are
0x00 (30_encoding.md R118). -/
def CmdFrame.ofOperands (op : Byte) (ps : List Byte) : CmdFrame :=
  { op, p1 := ps.getD 0 0, p2 := ps.getD 1 0, p3 := ps.getD 2 0, p4 := ps.getD 3 0,
    p5 := ps.getD 4 0, p6 := ps.getD 5 0, p7 := ps.getD 6 0, p8 := ps.getD 7 0,
    p9 := ps.getD 8 0, p10 := ps.getD 9 0, p11 := ps.getD 10 0, p12 := ps.getD 11 0,
    p13 := ps.getD 12 0, p14 := ps.getD 13 0, p15 := ps.getD 14 0 }

/-- 30_encoding.md R118: a mnemonic of R105 and up to fifteen operands, each a number in 0..255. -/
def assemble (mnemonic : String) (operands : List Nat) : Option CmdFrame :=
  match opcodeTable.lookup mnemonic with
  | none => none
  | some op =>
    if operands.length ≤ 15 && operands.all (· ≤ 255) then
      some (CmdFrame.ofOperands op (operands.map (BitVec.ofNat 8)))
    else none

/-- The digits of 30_encoding.md R118's hexadecimal numbers, each at the place that is its value. -/
def hexDigits : List Char := "0123456789abcdef".toList

/-- The value of a digit, small or capital: its place among `hexDigits`. -/
def digitOf (c : Char) : Option Nat := hexDigits.findIdx? (· = c.toLower)

/-- The number that follows `acc` in a list of digits of the base. -/
def numberFrom (base acc : Nat) : List Char → Option Nat
  | [] => some acc
  | c :: cs =>
    match digitOf c with
    | some d => if d < base then numberFrom base (acc * base + d) cs else none
    | none => none

/-- 30_encoding.md R118: an operand is a decimal number or a `0x` hexadecimal number. -/
def operandOf (cs : List Char) : Option Nat :=
  match cs with
  | [] => none
  | '0' :: 'x' :: [] => none
  | '0' :: 'x' :: digits => numberFrom 16 0 digits
  | digits => numberFrom 10 0 digits

/-- The parts of a line between its commas. -/
def splitAtCommas : List Char → List (List Char)
  | [] => [[]]
  | c :: cs =>
    match splitAtCommas cs with
    | [] => [[c]]
    | part :: parts => if c = ',' then [] :: part :: parts else (c :: part) :: parts

/-- A list of characters without the blanks at its ends. -/
def trimBlanks (cs : List Char) : List Char :=
  ((cs.dropWhile (· = ' ')).reverse.dropWhile (· = ' ')).reverse

/-- 30_encoding.md R118: a line of assembler: the mnemonic, then operands separated by commas. Blanks
around them are dropped (log entry 20). -/
def assembleLine (line : String) : Option CmdFrame :=
  let cs := trimBlanks line.toList
  let rest := trimBlanks (cs.dropWhile (· ≠ ' '))
  let operands :=
    if rest = [] then some [] else (splitAtCommas rest).mapM fun part => operandOf (trimBlanks part)
  match operands with
  | some ns => assemble (String.ofList (cs.takeWhile (· ≠ ' '))) ns
  | none => none

/-- 30_encoding.md R119: the command each pseudo-instruction expands to. -/
def Pseudo.expand : Pseudo → Instr
  | .clkSet24 time => .clkSet time 0
  | .clkSet12 time => .clkSet time 1
  | .clkParse7 b0 b1 b2 b3 b4 b5 b6 => .clkParse 7 b0 b1 b2 b3 b4 b5 b6
  | .a1SetTime sec min hour => .a1Set 0 sec min hour 0
  | .a1SetDate sec min hour date => .a1Set 1 sec min hour date
  | .a1SetDay sec min hour day => .a1Set 2 sec min hour day
  | .a2SetDate min hour date => .a2Set 1 min hour date
  | .a2SetDay min hour day => .a2Set 2 min hour day
  | .stClr1 => .stClrf 1
  | .stClr2 => .stClrf 2
  | .stClrAll => .stClrf 3

end Sys2Proof
end

