-- ==== Sys2Proof/Machine/State.lean ====
section
/-! DEFINITION. The state of the block, its peer and its surroundings (10_state.md R30, R31, R42, R47),
and the state right after reset (R48; 70_reset_and_hazards.md R450, R452). -/

namespace Sys2Proof.Machine

/-- 10_state.md R31. -/
inductive Phase where
  | idle
  | busy
deriving DecidableEq, Repr

/-- The six fixed bursts of 20_memory.md R66: the only ranges of the peer's address space that the
block can name ("never computed, only looked up", R61), so no access to an unmapped address (R62)
can be written down. `Burst.base` and `Burst.count` give their ranges. -/
inductive Burst where
  /-- 0x00..0x06 -/
  | clock
  /-- 0x07..0x0A -/
  | alarm1
  /-- 0x0B..0x0D -/
  | alarm2
  /-- 0x0E -/
  | control
  /-- 0x0F -/
  | status
  /-- 0x11..0x12 -/
  | temperature
deriving DecidableEq, Repr

/-- A request to the transport (20_memory.md R63, R64): `MemRead(base, count)` or
`MemWrite(base, count, bytes)` of a burst. -/
inductive Request where
  | read (burst : Burst)
  | write (burst : Burst) (bytes : List Byte)
deriving DecidableEq, Repr

/-- What the transport does with one request (20_memory.md R63, R64). -/
inductive Answer where
  /-- `fail` -/
  | fail
  /-- `ok`: for a read, `ok(c, bytes)` with c the length of `bytes`; for a write, plain `ok`. -/
  | ok (bytes : List Byte)
  /-- No answer yet: the request stays unanswered, until the transport answers it in a move of its own
  (10_state.md R30) or a reset abandons it (70_reset_and_hazards.md R451; log entry 4). -/
  | silent
deriving DecidableEq, Repr

/-- The agents beside the host (10_state.md R30). -/
inductive Agent where
  | block
  | transport
  | peer
deriving DecidableEq, Repr

/-- What the host does to the block (10_state.md R30, R31; 70_reset_and_hazards.md R450), and when: the
agents move in turn, and a `pass` is the host's turn left to another agent (log entry 11). -/
inductive HostAction where
  /-- offers a command frame -/
  | offer (frame : CmdFrame)
  /-- takes the response -/
  | take
  /-- resets the block -/
  | reset
  /-- does nothing, so that another agent moves before the host's later actions -/
  | pass (agent : Agent)
deriving DecidableEq, Repr

/-- What the block has put into the peer's registers: for each address that a successful write
reached last, the byte it received there, the addresses rising (`Memory.wf`). An address that is not
listed reads as a draw: a fresh free byte at every read (10_state.md R43; log entry 6). -/
abbrev Memory := List Host.Cell

/-- Everything the spec gives the machine, as plain data. -/
structure State where
  /-- 10_state.md R31 -/
  phase : Phase
  /-- 10_state.md R31: the command frame being executed -/
  cmd : CmdFrame
  /-- 10_state.md R31: the last response frame -/
  rsp : RspFrame
  /-- 10_state.md R31: a response stands that the host has not taken -/
  rspValid : Bool
  /-- 10_state.md R47 (a), 70_reset_and_hazards.md R451: the request the transport has not answered -/
  inFlight : Option Request
  /-- 10_state.md R42: the peer's registers -/
  regs : Memory
  /-- 00_scope.md R12: the parameter `P_HAS_TEMPERATURE`; no step changes it -/
  hasTemperature : Bool
  /-- 10_state.md R30: what the host will do, oldest first -/
  host : List HostAction
  /-- 00_scope.md R10: the transport's coming answers, oldest first; when none is left they are free
  values of Config (log entry 3) -/
  answers : List Answer
  /-- the model's own: how many answers the transport has given, which numbers the free values -/
  drawn : Nat
  /-- the model's own: the requests issued, oldest first ("the block's history", 20_memory.md R69) -/
  requests : List Request
deriving DecidableEq, Repr

/-- There is no reason to stop with a fault: every error of the spec is a response, after which the
block runs on (60_exceptions.md R406, R409), and a request that is not answered leaves the block
Busy (70_reset_and_hazards.md R467). Nobody raises one, which is safe: no run is cut short. -/
inductive Fault
deriving DecidableEq, Repr

/-- Why a command has no meaning. -/
inductive Refusal where
  /-- Raised by an arm of `exec` whose command has no meaning in the model; no arm is left so. Safe:
  nothing is claimed of such a command. -/
  | notModelled (mnemonic : String)
deriving DecidableEq, Repr

/-- 10_state.md R48, 70_reset_and_hazards.md R450, R452: Idle, both frames 16 × 0x00, no response, and
nothing known of the peer. The parameter has its default (00_scope.md R12); the host does nothing,
no answer is scripted and the history is empty (DESIGN CHOICE, log entry 13). -/
def State.reset : State where
  phase := .idle
  cmd := {}
  rsp := {}
  rspValid := false
  inFlight := none
  regs := []
  hasTemperature := Config.hasTemperatureDefault
  host := []
  answers := []
  drawn := 0
  requests := []

end Sys2Proof.Machine
end

