-- ==== Sys2Proof/Machine/Operands.lean ====
section
/-! DEFINITION. The value domains (10_state.md R36 to R40), the operand forms (30_encoding.md R107,
R108) and the bit and field reads of 00_scope.md R13. -/

namespace Sys2Proof.Machine

/-- 00_scope.md R13: bit i of a byte. -/
def bitOf (b : Byte) (i : Nat) : Bool := b.getLsbD i

/-- 00_scope.md R13: the field of bits hi down to lo of a byte, as an unsigned integer. -/
def fieldOf (b : Byte) (hi lo : Nat) : Nat := b.toNat / 2 ^ lo % 2 ^ (hi + 1 - lo)

/-- 00_scope.md R14: a result written into a byte; every rule's results lie in 0..255. -/
def byteOf (v : Nat) : Byte := BitVec.ofNat 8 v

/-- 30_encoding.md R108: a boolean result. -/
def byteOfBool (c : Bool) : Byte := if c then 1 else 0

/-- 10_state.md R37: HourFormatMode. -/
inductive HourMode where
  | twentyFourHour
  | twelveHour
deriving DecidableEq, Repr

/-- 30_encoding.md R108: the code of a mode in a result. -/
def HourMode.code : HourMode → Byte
  | .twentyFourHour => 0
  | .twelveHour => 1

/-- 10_state.md R38: the variants of an AlarmSpec. -/
inductive AlarmVariant where
  | timeOnly
  | dateMatch
  | dayMatch
deriving DecidableEq, Repr

/-- 30_encoding.md R108: the code of a variant. -/
def AlarmVariant.code : AlarmVariant → Byte
  | .timeOnly => 0
  | .dateMatch => 1
  | .dayMatch => 2

/-- 10_state.md R38: an AlarmSpec; `dd` is the day-of-month under DateMatch, the day-of-week under
DayMatch, and without meaning under TimeOnly. -/
structure AlarmSpec where
  variant : AlarmVariant
  sec : Nat
  min : Nat
  hour : Nat
  dd : Nat
deriving DecidableEq, Repr

/-- 10_state.md R39: SquareWaveRate. -/
inductive SquareWaveRate where
  | hz1
  | khz1_024
  | khz4_096
  | khz8_192
deriving DecidableEq, Repr

/-- 10_state.md R36: CalendarTime, seven integers. -/
structure CalendarTime where
  sec : Nat
  min : Nat
  hour : Nat
  dow : Nat
  date : Nat
  month : Nat
  year : Nat
deriving DecidableEq, Repr

/-- 30_encoding.md R107, R108: the integers of a CalendarTime operand block. -/
def calendarTime (t : TimeBlock) : CalendarTime :=
  { sec := t.sec.toNat, min := t.min.toNat, hour := t.hour.toNat, dow := t.dow.toNat,
    date := t.date.toNat, month := t.month.toNat, year := t.year.toNat }

/-- 10_state.md R36, 42_clock.md R230: every field in its own range, with no check across fields. -/
def CalendarTime.inRange (t : CalendarTime) : Bool :=
  t.sec ≤ 59 && t.min ≤ 59 && t.hour ≤ 23 && 1 ≤ t.dow && t.dow ≤ 7
    && 1 ≤ t.date && t.date ≤ 31 && 1 ≤ t.month && t.month ≤ 12 && t.year ≤ 99

/-- 30_encoding.md R108: a mode operand. -/
def modeOperand (p : Byte) : Option HourMode :=
  if p = 0 then some .twentyFourHour else if p = 1 then some .twelveHour else none

/-- 30_encoding.md R108: a variant operand. -/
def variantOperand (p : Byte) : Option AlarmVariant :=
  if p = 0 then some .timeOnly
  else if p = 1 then some .dateMatch
  else if p = 2 then some .dayMatch
  else none

/-- 30_encoding.md R108: a rate operand. -/
def rateOperand (p : Byte) : Option SquareWaveRate :=
  if p = 0 then some .hz1
  else if p = 1 then some .khz1_024
  else if p = 2 then some .khz4_096
  else if p = 3 then some .khz8_192
  else none

/-- 30_encoding.md R108: a boolean operand. -/
def boolOperand (p : Byte) : Option Bool :=
  if p = 0 then some false else if p = 1 then some true else none

/-- 30_encoding.md R108: a select operand: bits 7..2 must be 0. -/
def selectOperand (p : Byte) : Option Byte := if p.toNat ≤ 3 then some p else none

end Sys2Proof.Machine
end

