-- ==== Sys2Proof/Machine/Flags.lean ====
section
/-! DEFINITION. The error code, which is the block's only flag-like output (10_state.md R35,
60_exceptions.md R400), and the flag fields of the peer's status and control bytes
(44_status_control.md R280 to R284). -/

namespace Sys2Proof.Machine

/-- 60_exceptions.md R400: the code of an error kind in y[0]. -/
def errorCode : ErrorKind → Byte
  | .outOfRange => 0x01
  | .unsupportedAlarmVariant => 0x02
  | .malformedRegisterData => 0x03
  | .transportFailure => 0x04
  | .illegalCommand => 0x05

/-- 10_state.md R40: StatusFlags. -/
structure StatusFlags where
  oscillatorStopped : Bool
  alarm1Triggered : Bool
  alarm2Triggered : Bool
deriving DecidableEq, Repr

/-- 10_state.md R40: ControlFlags. -/
structure ControlFlags where
  interruptControlEnabled : Bool
  alarm1InterruptEnabled : Bool
  alarm2InterruptEnabled : Bool
  squareWaveRate : SquareWaveRate
deriving DecidableEq, Repr

/-- 44_status_control.md R280. -/
def decodeStatus (b : Byte) : StatusFlags :=
  { oscillatorStopped := bitOf b 7, alarm1Triggered := bitOf b 0, alarm2Triggered := bitOf b 1 }

/-- 44_status_control.md R281. -/
def clearFlags (cur sel : Byte) : Byte := cur &&& ~~~sel

/-- 44_status_control.md R284: the 2-bit code of a rate. -/
def squareWaveRateBits : SquareWaveRate → Byte
  | .hz1 => 0
  | .khz1_024 => 1
  | .khz4_096 => 2
  | .khz8_192 => 3

/-- 44_status_control.md R283, R284: the rate of a 2-bit code; all four codes are assigned. -/
def rateOf (code : Nat) : SquareWaveRate :=
  match code with
  | 0 => .hz1
  | 1 => .khz1_024
  | 2 => .khz4_096
  | _ => .khz8_192

/-- 44_status_control.md R282: the inputs are packed as given, bits 7..5 are 0. -/
def buildControlByte (intcn a1e a2e : Bool) (rate : SquareWaveRate) : Byte :=
  (squareWaveRateBits rate <<< 3) ||| (byteOfBool intcn <<< 2) ||| (byteOfBool a2e <<< 1)
    ||| byteOfBool a1e

/-- 44_status_control.md R283. -/
def decodeControl (b : Byte) : ControlFlags :=
  { interruptControlEnabled := bitOf b 2, alarm1InterruptEnabled := bitOf b 0,
    alarm2InterruptEnabled := bitOf b 1, squareWaveRate := rateOf (fieldOf b 4 3) }

end Sys2Proof.Machine
end

