-- ==== Sys2Proof/Machine/Ops.lean ====
section
/-! DEFINITION. The named operations: the peer's registers (10_state.md R42, R43; 20_memory.md), the
transport's answers (00_scope.md R10), ending a command with a result or an error (00_scope.md R17;
60_exceptions.md R406), the two access primitives (20_memory.md R63, R64), and what the host does
(10_state.md R31; 70_reset_and_hazards.md R450, R451). -/

namespace Sys2Proof.Machine

/-! ## The peer's registers -/

/-- 20_memory.md R66: the start address of a burst. -/
def Burst.base : Burst → Nat
  | .clock => 0x00
  | .alarm1 => 0x07
  | .alarm2 => 0x0B
  | .control => 0x0E
  | .status => 0x0F
  | .temperature => 0x11

/-- 20_memory.md R66: the length of a burst. -/
def Burst.count : Burst → Nat
  | .clock => 7
  | .alarm1 => 4
  | .alarm2 => 3
  | .control => 1
  | .status => 1
  | .temperature => 2

/-- 10_state.md R43: the volatility classes. -/
inductive RegClass where
  | volatile
  | stable
  | mixed
deriving DecidableEq, Repr

/-- 10_state.md R43: the class of a register. 0x10 and the addresses above 0x12, which no burst
reaches (20_memory.md R62), are counted as volatile. -/
def classOf (a : Nat) : RegClass :=
  if 0x07 ≤ a && a ≤ 0x0D then .stable else if a = 0x0E then .mixed else .volatile

/-- 20_memory.md R66: the registers that a burst may write. -/
def writable (a : Nat) : Bool := a ≤ 0x0F

/-- The canonical form of the peer's registers: addresses strictly rising, and only registers that
the block can write. (An unlisted address reads as a fresh draw, which no listed byte equals, so no
entry is redundant; log entry 6.) -/
abbrev Memory.wf (m : Memory) : Prop :=
  m.Pairwise (fun x y => x.1 < y.1) ∧ ∀ c ∈ m, writable c.1 = true

/-- The byte that the block's last successful write put at an address, if no failed or abandoned
write came after it (10_state.md R43, 20_memory.md R77). -/
def Memory.byteAt (m : Memory) (a : Nat) : Option Byte :=
  match m with
  | [] => none
  | c :: rest => if c.1 = a then some c.2 else Memory.byteAt rest a

/-- 20_memory.md R64: a register has received a byte. -/
def Memory.put (m : Memory) (a : Nat) (b : Byte) : Memory :=
  match m with
  | [] => [(a, b)]
  | c :: rest =>
    if a < c.1 then (a, b) :: c :: rest
    else if a = c.1 then (a, b) :: rest
    else c :: Memory.put rest a b

/-- 20_memory.md R64, R65: byte i of a burst goes to the register at start + i. -/
def Memory.putBytes (m : Memory) (a : Nat) : List Byte → Memory
  | [] => m
  | b :: bs => (m.put a b).putBytes (a + 1) bs

/-- 20_memory.md R77: the registers at a, …, a + n - 1 become draws. -/
def Memory.forget (m : Memory) (a n : Nat) : Memory :=
  m.filter fun c => !(a ≤ c.1 && c.1 < a + n)

/-- 10_state.md R43: what a read of a register returns when the draw for it is `draw`. -/
def peerByte (m : Memory) (a : Nat) (draw : Byte) : Byte :=
  match classOf a, m.byteAt a with
  | .stable, some b => b
  | .mixed, some b => (b &&& 0x1F) ||| (draw &&& 0xE0)
  | _, _ => draw

/-- 20_memory.md R63, R65: the bytes of a burst read from address a on, in ascending address order. -/
def peerBytes (m : Memory) (a : Nat) : List Byte → List Byte
  | [] => []
  | d :: ds => peerByte m a d :: peerBytes m (a + 1) ds

/-! ## The transport -/

/-- 00_scope.md R10: the transport's answer to the next request: the oldest one scripted, or else the
free value numbered `drawn` (log entry 3). -/
def nextAnswer (s : State) : Answer :=
  match s.answers with
  | a :: _ => a
  | [] =>
    match Config.transport s.drawn with
    | none => .fail
    | some c => .ok ((List.range c).map (Config.peerDraw s.drawn))

/-- A request is issued (20_memory.md R71): it joins the history. -/
def issue (r : Request) (s : State) : State := { s with requests := s.requests ++ [r] }

/-- The transport has answered: the answer is used up. -/
def hear (s : State) : State := { s with answers := s.answers.tail, drawn := s.drawn + 1 }

/-- The transport has not answered yet: its silence is used up, and the request leaves the block Busy
(10_state.md R47 (a), 70_reset_and_hazards.md R467). -/
def wait (r : Request) (s : State) : State :=
  { s with phase := .busy, inFlight := some r, answers := s.answers.tail }

/-! ## Ending a command -/

/-- The response of a command without error: y[0] = 0x00, the results at y[1], y[2], …, all else 0x00
(00_scope.md R17, 30_encoding.md R104). -/
def responseOf (qs : List Byte) : RspFrame :=
  { err := 0x00, q1 := qs.getD 0 0, q2 := qs.getD 1 0, q3 := qs.getD 2 0, q4 := qs.getD 3 0,
    q5 := qs.getD 4 0, q6 := qs.getD 5 0, q7 := qs.getD 6 0, q8 := qs.getD 7 0,
    q9 := qs.getD 8 0, q10 := qs.getD 9 0, q11 := qs.getD 10 0, q12 := qs.getD 11 0,
    q13 := qs.getD 12 0, q14 := qs.getD 13 0, q15 := qs.getD 14 0 }

/-- 10_state.md R31: the response is written, and the block is Idle. -/
def finish (f : RspFrame) (s : State) : State :=
  { s with rsp := f, rspValid := true, phase := .idle }

/-- The end of a command without error (00_scope.md R17). -/
def complete (qs : List Byte) (s : State) : State := finish (responseOf qs) s

/-- `raise E` (00_scope.md R17, 60_exceptions.md R406): the code in y[0], 0x00 in y[1..15], nothing
else saved, and the block is Idle. There is no return from it (R409). -/
def raise (e : ErrorKind) (s : State) : State := finish { err := errorCode e } s

/-- 60_exceptions.md R405: a frame that is no command. -/
def rejectCommand (s : State) : State := raise .illegalCommand s

/-- A command goes on with the value of its input check or function, or raises its error. -/
def withResult {α : Type} (r : Except ErrorKind α) (s : State) (k : α → State) : State :=
  match r with
  | .error e => raise e s
  | .ok a => k a

/-- A command that ends with the results it computed, or raises an error. -/
def respond (r : Except ErrorKind (List Byte)) (s : State) : State :=
  withResult r s fun qs => complete qs s

/-! ## The access primitives -/

/-- 20_memory.md R63: a read has been issued, and the transport's next answer is its answer: `fail`
raises TransportFailure, a wrong count raises MalformedRegisterData, and otherwise the command goes on
with the bytes. No register changes (R70). -/
def awaitRead (b : Burst) (k : List Byte → State → State) (s : State) : State :=
  match nextAnswer s with
  | .silent => wait (.read b) s
  | .fail => raise .transportFailure (hear s)
  | .ok ds =>
    if ds.length = b.count then k (peerBytes s.regs b.base ds) (hear s)
    else raise .malformedRegisterData (hear s)

/-- 20_memory.md R64, R77: a write has been issued, and the transport's next answer is its answer: on
`ok` the registers have received the bytes and the command goes on, on `fail` the whole range is a draw
and TransportFailure is raised. -/
def awaitWrite (b : Burst) (bytes : List Byte) (k : State → State) (s : State) : State :=
  match nextAnswer s with
  | .silent => wait (.write b bytes) s
  | .fail => raise .transportFailure { hear s with regs := s.regs.forget b.base b.count }
  | .ok _ => k { hear s with regs := s.regs.putBytes b.base bytes }

/-- 20_memory.md R63, `MemRead`: one request, and what follows its answer. -/
def memRead (b : Burst) (s : State) (k : List Byte → State → State) : State :=
  awaitRead b k (issue (.read b) s)

/-- 20_memory.md R64, `MemWrite`: one request, and what follows its answer. -/
def memWrite (b : Burst) (bytes : List Byte) (s : State) (k : State → State) : State :=
  awaitWrite b bytes k (issue (.write b bytes) s)

/-- 20_memory.md R72: after a one-byte read, a write of the byte made from it, whose value is the
command's result. -/
def writeBack (b : Burst) (f : Byte → Byte) (bytes : List Byte) (s : State) : State :=
  memWrite b [f (bytes.headD 0)] s (complete [f (bytes.headD 0)])

/-- 20_memory.md R72: a read, and then a write of the same address; two requests. -/
def readModifyWrite (b : Burst) (f : Byte → Byte) (s : State) : State := memRead b s (writeBack b f)

/-! ## The host -/

/-- 10_state.md R31: accepting a frame. -/
def acceptFrame (f : CmdFrame) (s : State) : State := { s with cmd := f, phase := .busy }

/-- 10_state.md R31: the host takes the response. When no response stands the spec gives no effect, and
here there is none: the action is used up, and does not wait for a response (DESIGN CHOICE, log entry
23). -/
def takeResponse (s : State) : State := { s with rspValid := false }

/-- 70_reset_and_hazards.md R451: the peer's registers after a reset: those in the range of an
abandoned write are draws, all others stay. -/
def regsAfterReset (inFlight : Option Request) (m : Memory) : Memory :=
  match inFlight with
  | some (.write b _) => m.forget b.base b.count
  | some (.read _) => m
  | none => m

/-- 70_reset_and_hazards.md R450, R451: a reset of the block. No request is issued, and no response is
written for an abandoned command. -/
def blockReset (s : State) : State :=
  { s with phase := .idle, cmd := {}, rsp := {}, rspValid := false, inFlight := none,
           regs := regsAfterReset s.inFlight s.regs }

/-! ## Turns -/

/-- 10_state.md R30, R43: the peer changes its volatile registers. Nothing is known of them then: what
it puts there are the draws of later reads (log entry 18). -/
def peerMoves (s : State) : State :=
  { s with regs := s.regs.filter fun c => classOf c.1 ≠ .volatile }

/-- 10_state.md R31: a Busy block holds back offered frames ("the host holds it until the block is
Idle"), and nothing else: the host may take the response and reset the block in any phase
(70_reset_and_hazards.md R450). -/
def servedIn : Phase → HostAction → Bool
  | .idle, _ => true
  | .busy, .offer _ => false
  | .busy, .take => true
  | .busy, .reset => true
  | .busy, .pass _ => true

/-- The host's next action: the oldest one that is not held back. -/
def dueAction (s : State) : Option HostAction := s.host.find? (servedIn s.phase)

/-- The host's next action is done with; the frames held back stay, in their order. -/
def popHost (s : State) : State := { s with host := s.host.eraseP (servedIn s.phase) }

end Sys2Proof.Machine
end

