-- ==== Sys2Proof/Machine/Bcd.lean ====
section
/-! DEFINITION. The BCD codec (40_bcd.md): its two functions and the commands BCD.PACK, BCD.UNPACK. -/

namespace Sys2Proof.Machine

/-- 40_bcd.md R200: tens digit in bits [7:4], units digit in bits [3:0]; used for v ≤ 99 only. -/
def bcd (v : Nat) : Byte := (byteOf (v / 10) <<< 4) ||| byteOf (v % 10)

/-- 40_bcd.md R201: each nibble on its own, not validated; 0..165. -/
def unBCD (b : Byte) : Nat := fieldOf b 7 4 * 10 + fieldOf b 3 0

/-- 40_bcd.md R202. -/
def bcdPack (value : Byte) : Except ErrorKind (List Byte) :=
  if value.toNat > 99 then .error .outOfRange else .ok [bcd value.toNat]

/-- BCD.PACK (40_bcd.md R202). -/
def execBcdPack (value : Byte) (s : State) : Host.Outcome State Fault Refusal :=
  .next (respond (bcdPack value) s)

/-- BCD.UNPACK (40_bcd.md R203): every byte is accepted. -/
def execBcdUnpack (b : Byte) (s : State) : Host.Outcome State Fault Refusal :=
  .next (complete [byteOf (unBCD b)] s)

end Sys2Proof.Machine
end

