-- ==== Sys2Proof/Machine/Hour.lean ====
section
/-! DEFINITION. The hour-field codec (41_hour.md): its functions and the commands HOUR.ENC, HOUR.DEC,
HOUR.DISP, HOUR.TO24. -/

namespace Sys2Proof.Machine

/-- 41_hour.md R212. -/
def displayHour (mode : HourMode) (h : Nat) : Nat :=
  match mode with
  | .twentyFourHour => h
  | .twelveHour => if h = 0 then 12 else if h > 12 then h - 12 else h

/-- 41_hour.md R212. -/
def isPM (h : Nat) : Bool := h ≥ 12

/-- 41_hour.md R210: BCD of the hour; in 12-hour form of the display hour, with the mode bit (bit 6)
and, from noon on, the AM/PM bit (bit 5). -/
def encodeHour (mode : HourMode) (h : Nat) : Byte :=
  match mode with
  | .twentyFourHour => bcd h
  | .twelveHour => bcd (displayHour .twelveHour h) ||| 0x40 ||| (if h ≥ 12 then 0x20 else 0x00)

/-- What an hour byte says (41_hour.md R211). -/
structure HourReading where
  mode : HourMode
  hour : Nat
  isPM : Bool
deriving DecidableEq, Repr

/-- 41_hour.md R211: the mode bit picks a 5-bit or a 6-bit value; bit 7 is ignored. -/
def decodeHour (b : Byte) : HourReading :=
  if bitOf b 6 then
    { mode := .twelveHour, hour := unBCD (b &&& 0x1F), isPM := bitOf b 5 }
  else
    { mode := .twentyFourHour, hour := unBCD (b &&& 0x3F), isPM := unBCD (b &&& 0x3F) ≥ 12 }

/-- 41_hour.md R213: the inverse mapping. -/
def to24 (hour : Nat) (pm : Bool) : Nat :=
  if hour = 12 then (if pm then 12 else 0) else (if pm then hour + 12 else hour)

/-- The 24-hour value of an hour reading: `to24` in 12-hour form, the hour itself in 24-hour form
(42_clock.md R231, 43_alarm.md R255, R256). -/
def HourReading.hour24 (r : HourReading) : Nat :=
  match r.mode with
  | .twelveHour => to24 r.hour r.isPM
  | .twentyFourHour => r.hour

/-- 41_hour.md R214. -/
def hourEnc (mode hour24 : Byte) : Except ErrorKind (List Byte) :=
  match modeOperand mode with
  | none => .error .outOfRange
  | some m =>
    if hour24.toNat > 23 then .error .outOfRange else .ok [encodeHour m hour24.toNat]

/-- 41_hour.md R215. -/
def hourDec (b : Byte) : List Byte :=
  [(decodeHour b).mode.code, byteOf (decodeHour b).hour, byteOfBool (decodeHour b).isPM]

/-- 41_hour.md R216. -/
def hourDisp (mode hour24 : Byte) : Except ErrorKind (List Byte) :=
  match modeOperand mode with
  | none => .error .outOfRange
  | some m =>
    if hour24.toNat > 23 then .error .outOfRange
    else .ok [byteOf (displayHour m hour24.toNat), byteOfBool (isPM hour24.toNat)]

/-- 41_hour.md R217. -/
def hourTo24 (hour pm : Byte) : Except ErrorKind (List Byte) :=
  if hour.toNat < 1 || hour.toNat > 12 then .error .outOfRange
  else
    match boolOperand pm with
    | none => .error .outOfRange
    | some p => .ok [byteOf (to24 hour.toNat p)]

/-- HOUR.ENC (41_hour.md R214). -/
def execHourEnc (mode hour24 : Byte) (s : State) : Host.Outcome State Fault Refusal :=
  .next (respond (hourEnc mode hour24) s)

/-- HOUR.DEC (41_hour.md R215): every byte is accepted. -/
def execHourDec (b : Byte) (s : State) : Host.Outcome State Fault Refusal :=
  .next (complete (hourDec b) s)

/-- HOUR.DISP (41_hour.md R216). -/
def execHourDisp (mode hour24 : Byte) (s : State) : Host.Outcome State Fault Refusal :=
  .next (respond (hourDisp mode hour24) s)

/-- HOUR.TO24 (41_hour.md R217). -/
def execHourTo24 (hour pm : Byte) (s : State) : Host.Outcome State Fault Refusal :=
  .next (respond (hourTo24 hour pm) s)

end Sys2Proof.Machine
end

