-- ==== Sys2Proof/Machine/Alarm.lean ====
section
/-! DEFINITION. The alarm encoder and decoder (43_alarm.md): its functions and the commands A1.ENC,
A2.ENC, A1.DEC, A2.DEC, A.OFFSET, A1.SET, A1.READ, A2.SET, A2.READ. -/

namespace Sys2Proof.Machine

/-- 43_alarm.md R250: bit 7 (match-mask) is 0. -/
def alarmField (v : Nat) : Byte := bcd v &&& 0x7F

/-- 43_alarm.md R250: always in 24-hour form, bit 7 is 0. -/
def alarmHour (h : Nat) : Byte := encodeHour .twentyFourHour h &&& 0x7F

/-- 43_alarm.md R251. -/
def dayDateByte (variant : AlarmVariant) (dd : Nat) : Byte :=
  match variant with
  | .timeOnly => 0x80
  | .dateMatch => bcd dd
  | .dayMatch => 0x40 ||| bcd dd

/-- 43_alarm.md R252, R253: the day-or-date value is checked only where the variant reads it. -/
def dayInRange (variant : AlarmVariant) (dd : Nat) : Bool :=
  match variant with
  | .timeOnly => true
  | .dateMatch => 1 ≤ dd && dd ≤ 31
  | .dayMatch => 1 ≤ dd && dd ≤ 7

/-- 43_alarm.md R252: the four bytes for 0x07..0x0A. -/
def encodeAlarm1 (s : AlarmSpec) : Except ErrorKind (List Byte) :=
  if s.sec > 59 || s.min > 59 || s.hour > 23 then .error .outOfRange
  else if dayInRange s.variant s.dd then
    .ok [alarmField s.sec, alarmField s.min, alarmHour s.hour, dayDateByte s.variant s.dd]
  else .error .outOfRange

/-- 43_alarm.md R253: the three bytes for 0x0B..0x0D; TimeOnly is refused before any field check, and
the seconds are not read. -/
def encodeAlarm2 (s : AlarmSpec) : Except ErrorKind (List Byte) :=
  if s.variant = .timeOnly then .error .unsupportedAlarmVariant
  else if s.min > 59 || s.hour > 23 then .error .outOfRange
  else if dayInRange s.variant s.dd then
    .ok [alarmField s.min, alarmHour s.hour, dayDateByte s.variant s.dd]
  else .error .outOfRange

/-- 43_alarm.md R254: bit 7 wins over bit 6. -/
def variantOf (b : Byte) : AlarmVariant :=
  if bitOf b 7 then .timeOnly else if bitOf b 6 then .dayMatch else .dateMatch

/-- 43_alarm.md R255, R256: the day-or-date value of a day/date byte; 0 for TimeOnly. -/
def dayOf (b : Byte) : Nat :=
  match variantOf b with
  | .timeOnly => 0
  | .dateMatch => unBCD (b &&& 0x3F)
  | .dayMatch => unBCD (b &&& 0x3F)

/-- 43_alarm.md R255: raw values; the match-mask bits are dropped. -/
def decodeAlarm1 (count : Nat) (bytes : List Byte) : Except ErrorKind AlarmSpec :=
  if count ≠ 4 then .error .malformedRegisterData
  else
    .ok
      { variant := variantOf (bytes.getD 3 0), sec := unBCD (bytes.getD 0 0 &&& 0x7F),
        min := unBCD (bytes.getD 1 0 &&& 0x7F),
        hour := (decodeHour (bytes.getD 2 0 &&& 0x7F)).hour24, dd := dayOf (bytes.getD 3 0) }

/-- 43_alarm.md R256: as Alarm-1 without seconds, which are reported as 0. -/
def decodeAlarm2 (count : Nat) (bytes : List Byte) : Except ErrorKind AlarmSpec :=
  if count ≠ 3 then .error .malformedRegisterData
  else
    .ok
      { variant := variantOf (bytes.getD 2 0), sec := 0, min := unBCD (bytes.getD 0 0 &&& 0x7F),
        hour := (decodeHour (bytes.getD 1 0 &&& 0x7F)).hour24, dd := dayOf (bytes.getD 2 0) }

/-- 43_alarm.md R257: DayMatch on the base's day-of-week, `off` minutes later; a carry out of hour 23
and an offset above 59 are refused. -/
def buildAlarmAtOffset (base : CalendarTime) (off : Nat) : Except ErrorKind AlarmSpec :=
  let m := if base.min + off ≥ 60 then base.min + off - 60 else base.min + off
  let h := if base.min + off ≥ 60 then base.hour + 1 else base.hour
  if !base.inRange then .error .outOfRange
  else if off > 59 then .error .outOfRange
  else if h = 24 then .error .outOfRange
  else .ok { variant := .dayMatch, sec := base.sec, min := m, hour := h, dd := base.dow }

/-- 30_encoding.md R108: the AlarmSpec result block Q1..Q5. -/
def AlarmSpec.results (s : AlarmSpec) : List Byte :=
  [s.variant.code, byteOf s.sec, byteOf s.min, byteOf s.hour, byteOf s.dd]

/-- 30_encoding.md R108: an AlarmSpec operand block; an unknown variant code is out of range before
anything else (60_exceptions.md R407 item 3). -/
def alarmOperand (variant sec min hour dd : Byte) : Except ErrorKind AlarmSpec :=
  match variantOperand variant with
  | none => .error .outOfRange
  | some v =>
    .ok { variant := v, sec := sec.toNat, min := min.toNat, hour := hour.toNat, dd := dd.toNat }

/-- 43_alarm.md R260: Alarm-1's register bytes for an operand block. -/
def a1Enc (variant sec min hour dd : Byte) : Except ErrorKind (List Byte) :=
  match alarmOperand variant sec min hour dd with
  | .error e => .error e
  | .ok spec => encodeAlarm1 spec

/-- 43_alarm.md R261: Alarm-2's register bytes for an operand block; P2 is no operand. -/
def a2Enc (variant min hour dd : Byte) : Except ErrorKind (List Byte) :=
  match alarmOperand variant 0 min hour dd with
  | .error e => .error e
  | .ok spec => encodeAlarm2 spec

/-- 43_alarm.md R262, R263, R264: the result block of a decoded or built alarm. -/
def alarmResults (r : Except ErrorKind AlarmSpec) : Except ErrorKind (List Byte) :=
  match r with
  | .error e => .error e
  | .ok spec => .ok spec.results

/-- A1.ENC (43_alarm.md R260). -/
def execA1Enc (variant sec min hour dd : Byte) (s : State) : Host.Outcome State Fault Refusal :=
  .next (respond (a1Enc variant sec min hour dd) s)

/-- A2.ENC (43_alarm.md R261). -/
def execA2Enc (variant min hour dd : Byte) (s : State) : Host.Outcome State Fault Refusal :=
  .next (respond (a2Enc variant min hour dd) s)

/-- A1.DEC (43_alarm.md R262). -/
def execA1Dec (count b0 b1 b2 b3 : Byte) (s : State) : Host.Outcome State Fault Refusal :=
  .next (respond (alarmResults (decodeAlarm1 count.toNat [b0, b1, b2, b3])) s)

/-- A2.DEC (43_alarm.md R263). -/
def execA2Dec (count b0 b1 b2 : Byte) (s : State) : Host.Outcome State Fault Refusal :=
  .next (respond (alarmResults (decodeAlarm2 count.toNat [b0, b1, b2])) s)

/-- A.OFFSET (43_alarm.md R264). -/
def execAOffset (base : TimeBlock) (offset : Byte) (s : State) : Host.Outcome State Fault Refusal :=
  .next (respond (alarmResults (buildAlarmAtOffset (calendarTime base) offset.toNat)) s)

/-- A1.SET (43_alarm.md R265): the checks, then one four-byte burst. -/
def execA1Set (variant sec min hour dd : Byte) (s : State) : Host.Outcome State Fault Refusal :=
  .next (withResult (a1Enc variant sec min hour dd) s fun bytes =>
    memWrite .alarm1 bytes s (complete []))

/-- 43_alarm.md R266: what A1.READ does with the bytes of its read. -/
def afterA1Read (bytes : List Byte) (s : State) : State :=
  respond (alarmResults (decodeAlarm1 bytes.length bytes)) s

/-- A1.READ (43_alarm.md R266): one four-byte burst, then decode. -/
def execA1Read (s : State) : Host.Outcome State Fault Refusal :=
  .next (memRead .alarm1 s afterA1Read)

/-- A2.SET (43_alarm.md R267): the checks, then one three-byte burst. -/
def execA2Set (variant min hour dd : Byte) (s : State) : Host.Outcome State Fault Refusal :=
  .next (withResult (a2Enc variant min hour dd) s fun bytes =>
    memWrite .alarm2 bytes s (complete []))

/-- 43_alarm.md R268: what A2.READ does with the bytes of its read. -/
def afterA2Read (bytes : List Byte) (s : State) : State :=
  respond (alarmResults (decodeAlarm2 bytes.length bytes)) s

/-- A2.READ (43_alarm.md R268): one three-byte burst, then decode. -/
def execA2Read (s : State) : Host.Outcome State Fault Refusal :=
  .next (memRead .alarm2 s afterA2Read)

end Sys2Proof.Machine
end

