-- ==== Sys2Proof/Machine/Clock.lean ====
section
/-! DEFINITION. The time/date transaction (42_clock.md): its two functions and the commands CLK.BUILD,
CLK.PARSE, CLK.SET, CLK.READ. -/

namespace Sys2Proof.Machine

/-- 42_clock.md R230: the seven (RegisterAddress, byte) pairs, in ascending address order. -/
def buildClockWrite (t : CalendarTime) (mode : HourMode) : Except ErrorKind (List (Nat × Byte)) :=
  if t.inRange then
    .ok [(0x00, bcd t.sec), (0x01, bcd t.min), (0x02, encodeHour mode t.hour), (0x03, bcd t.dow),
         (0x04, bcd t.date), (0x05, bcd t.month), (0x06, bcd t.year)]
  else .error .outOfRange

/-- What a clock burst says (42_clock.md R231): raw values, not range-checked (10_state.md R41). -/
structure ClockReading where
  time : CalendarTime
  mode : HourMode
  displayHour : Nat
  isPM : Bool
deriving DecidableEq, Repr

/-- 42_clock.md R231: the bytes in the order seconds, minutes, hours, day-of-week, date, month, year;
only a wrong count fails. -/
def parseClockRead (count : Nat) (bytes : List Byte) : Except ErrorKind ClockReading :=
  if count ≠ 7 then .error .malformedRegisterData
  else
    .ok
      { time :=
          { sec := unBCD (bytes.getD 0 0), min := unBCD (bytes.getD 1 0),
            hour := (decodeHour (bytes.getD 2 0)).hour24, dow := unBCD (bytes.getD 3 0),
            date := unBCD (bytes.getD 4 0), month := unBCD (bytes.getD 5 0),
            year := unBCD (bytes.getD 6 0) },
        mode := (decodeHour (bytes.getD 2 0)).mode,
        displayHour := (decodeHour (bytes.getD 2 0)).hour,
        isPM := (decodeHour (bytes.getD 2 0)).isPM }

/-- 42_clock.md R233: Q1..Q10 of a clock reading. -/
def ClockReading.results (r : ClockReading) : List Byte :=
  [byteOf r.time.sec, byteOf r.time.min, byteOf r.time.hour, byteOf r.time.dow, byteOf r.time.date,
   byteOf r.time.month, byteOf r.time.year, r.mode.code, byteOf r.displayHour, byteOfBool r.isPM]

/-- 42_clock.md R232: the seven register bytes for a CalendarTime block and a mode operand. -/
def clkBuild (time : TimeBlock) (mode : Byte) : Except ErrorKind (List Byte) :=
  match modeOperand mode with
  | none => .error .outOfRange
  | some m =>
    match buildClockWrite (calendarTime time) m with
    | .error e => .error e
    | .ok pairs => .ok (pairs.map Prod.snd)

/-- 42_clock.md R233: parse and report. -/
def clkParse (count : Nat) (bytes : List Byte) : Except ErrorKind (List Byte) :=
  match parseClockRead count bytes with
  | .error e => .error e
  | .ok r => .ok r.results

/-- CLK.BUILD (42_clock.md R232). -/
def execClkBuild (time : TimeBlock) (mode : Byte) (s : State) : Host.Outcome State Fault Refusal :=
  .next (respond (clkBuild time mode) s)

/-- CLK.PARSE (42_clock.md R233). -/
def execClkParse (count b0 b1 b2 b3 b4 b5 b6 : Byte) (s : State) :
    Host.Outcome State Fault Refusal :=
  .next (respond (clkParse count.toNat [b0, b1, b2, b3, b4, b5, b6]) s)

/-- CLK.SET (42_clock.md R234): the checks, then one seven-byte burst. -/
def execClkSet (time : TimeBlock) (mode : Byte) (s : State) : Host.Outcome State Fault Refusal :=
  .next (withResult (clkBuild time mode) s fun bytes => memWrite .clock bytes s (complete []))

/-- 42_clock.md R235: what CLK.READ does with the bytes of its read. -/
def afterClkRead (bytes : List Byte) (s : State) : State := respond (clkParse bytes.length bytes) s

/-- CLK.READ (42_clock.md R235): one seven-byte burst, then parse. -/
def execClkRead (s : State) : Host.Outcome State Fault Refusal :=
  .next (memRead .clock s afterClkRead)

end Sys2Proof.Machine
end

