-- ==== Sys2Proof/Machine/StatusControl.lean ====
section
/-! DEFINITION. The status/control manager (44_status_control.md): the commands ST.DEC, ST.CLR,
CTL.BUILD, SQW.CODE, CTL.DEC, ST.READ, ST.CLRF, SQW.SET, SQW.OFF, CTL.READ, CTL.WRITE. -/

namespace Sys2Proof.Machine

/-- 44_status_control.md R285: Q1..Q4 of a status byte. -/
def statusResults (b : Byte) : List Byte :=
  [byteOfBool (decodeStatus b).oscillatorStopped, byteOfBool (decodeStatus b).alarm1Triggered,
   byteOfBool (decodeStatus b).alarm2Triggered, b]

/-- 44_status_control.md R289: Q1..Q5 of a control byte. -/
def controlResults (b : Byte) : List Byte :=
  [byteOfBool (decodeControl b).interruptControlEnabled,
   byteOfBool (decodeControl b).alarm1InterruptEnabled,
   byteOfBool (decodeControl b).alarm2InterruptEnabled,
   squareWaveRateBits (decodeControl b).squareWaveRate, b]

/-- 44_status_control.md R286, R291: the checked select operand. -/
def checkedSelect (select : Byte) : Except ErrorKind Byte :=
  match selectOperand select with
  | none => .error .outOfRange
  | some sel => .ok sel

/-- 44_status_control.md R288, R292: the checked rate operand. -/
def checkedRate (rate : Byte) : Except ErrorKind SquareWaveRate :=
  match rateOperand rate with
  | none => .error .outOfRange
  | some r => .ok r

/-- 44_status_control.md R287, R295: the control byte for four operands. -/
def checkedControlByte (intcn a1e a2e rate : Byte) : Except ErrorKind Byte :=
  match boolOperand intcn, boolOperand a1e, boolOperand a2e, rateOperand rate with
  | some i, some e1, some e2, some r => .ok (buildControlByte i e1 e2 r)
  | _, _, _, _ => .error .outOfRange

/-- 44_status_control.md R292: the rate goes into bits [4:3], INTCN (bit 2) becomes 0, all else stays. -/
def withSquareWave (rate : SquareWaveRate) (b : Byte) : Byte :=
  (b &&& ~~~(0x1C : Byte)) ||| (squareWaveRateBits rate <<< 3)

/-- 44_status_control.md R293: INTCN becomes 1, all else stays. -/
def withoutSquareWave (b : Byte) : Byte := b ||| 0x04

/-- 44_status_control.md R295: bits [4:0] are replaced, bits [7:5] stay. -/
def withControlBits (w b : Byte) : Byte := (b &&& 0xE0) ||| w

/-- ST.DEC (44_status_control.md R285): every byte is accepted. -/
def execStDec (b : Byte) (s : State) : Host.Outcome State Fault Refusal :=
  .next (complete (statusResults b) s)

/-- ST.CLR (44_status_control.md R286). -/
def execStClr (b select : Byte) (s : State) : Host.Outcome State Fault Refusal :=
  .next (withResult (checkedSelect select) s fun sel => complete [clearFlags b sel] s)

/-- CTL.BUILD (44_status_control.md R287). -/
def execCtlBuild (intcn a1e a2e rate : Byte) (s : State) : Host.Outcome State Fault Refusal :=
  .next (withResult (checkedControlByte intcn a1e a2e rate) s fun w => complete [w] s)

/-- SQW.CODE (44_status_control.md R288). -/
def execSqwCode (rate : Byte) (s : State) : Host.Outcome State Fault Refusal :=
  .next (withResult (checkedRate rate) s fun r => complete [squareWaveRateBits r] s)

/-- CTL.DEC (44_status_control.md R289): every byte is accepted. -/
def execCtlDec (b : Byte) (s : State) : Host.Outcome State Fault Refusal :=
  .next (complete (controlResults b) s)

/-- 44_status_control.md R290: what ST.READ does with the byte of its read. -/
def afterStRead (bytes : List Byte) (s : State) : State :=
  complete (statusResults (bytes.headD 0)) s

/-- ST.READ (44_status_control.md R290). -/
def execStRead (s : State) : Host.Outcome State Fault Refusal :=
  .next (memRead .status s afterStRead)

/-- 44_status_control.md R291: what ST.CLRF does with the byte of its read: with nothing selected it is
not written. -/
def afterStClrfRead (sel : Byte) (bytes : List Byte) (s : State) : State :=
  if sel = 0 then complete [clearFlags (bytes.headD 0) sel] s
  else writeBack .status (fun b => clearFlags b sel) bytes s

/-- ST.CLRF (44_status_control.md R291). -/
def execStClrf (select : Byte) (s : State) : Host.Outcome State Fault Refusal :=
  .next (withResult (checkedSelect select) s fun sel => memRead .status s (afterStClrfRead sel))

/-- SQW.SET (44_status_control.md R292). -/
def execSqwSet (rate : Byte) (s : State) : Host.Outcome State Fault Refusal :=
  .next (withResult (checkedRate rate) s fun r => readModifyWrite .control (withSquareWave r) s)

/-- SQW.OFF (44_status_control.md R293). -/
def execSqwOff (s : State) : Host.Outcome State Fault Refusal :=
  .next (readModifyWrite .control withoutSquareWave s)

/-- 44_status_control.md R294: what CTL.READ does with the byte of its read. -/
def afterCtlRead (bytes : List Byte) (s : State) : State :=
  complete (controlResults (bytes.headD 0)) s

/-- CTL.READ (44_status_control.md R294). -/
def execCtlRead (s : State) : Host.Outcome State Fault Refusal :=
  .next (memRead .control s afterCtlRead)

/-- CTL.WRITE (44_status_control.md R295). -/
def execCtlWrite (intcn a1e a2e rate : Byte) (s : State) : Host.Outcome State Fault Refusal :=
  .next (withResult (checkedControlByte intcn a1e a2e rate) s fun w =>
    readModifyWrite .control (withControlBits w) s)

end Sys2Proof.Machine
end

