-- ==== Sys2Proof/Machine/Temperature.lean ====
section
/-! DEFINITION. The temperature decoder (45_temperature.md), which a block has when its parameter says
so (00_scope.md R12; the decoder refuses the opcodes otherwise): the commands T.DEC, T.READ. -/

namespace Sys2Proof.Machine

/-- 45_temperature.md R310: quarter degrees, -512..511, a plain sum of the signed degrees and the two
fraction bits. -/
def decodeTemperature (msb lsb : Byte) : Int := msb.toInt * 4 + (fieldOf lsb 7 6 : Int)

/-- 45_temperature.md R311, 30_encoding.md R109: 16-bit two's complement, big-endian in Q1:Q2. -/
def temperatureResults (msb lsb : Byte) : List Byte :=
  let u := (decodeTemperature msb lsb % 65536).toNat
  [byteOf (u / 256), byteOf (u % 256)]

/-- T.DEC (45_temperature.md R311): every pair of bytes is accepted. -/
def execTDec (msb lsb : Byte) (s : State) : Host.Outcome State Fault Refusal :=
  .next (complete (temperatureResults msb lsb) s)

/-- 45_temperature.md R312: what T.READ does with the bytes of its read. -/
def afterTRead (bytes : List Byte) (s : State) : State :=
  complete (temperatureResults (bytes.getD 0 0) (bytes.getD 1 0)) s

/-- T.READ (45_temperature.md R312). -/
def execTRead (s : State) : Host.Outcome State Fault Refusal :=
  .next (memRead .temperature s afterTRead)

end Sys2Proof.Machine
end

