-- ==== Sys2Proof/Machine/Dispatch.lean ====
section
/-! DEFINITION. What each command does: one arm per constructor of Instr (30_encoding.md R105). -/

namespace Sys2Proof.Machine

def exec (i : Instr) (s : State) : Host.Outcome State Fault Refusal :=
  match i with
  | .bcdPack value => Sys2Proof.Machine.execBcdPack value s
  | .bcdUnpack b => Sys2Proof.Machine.execBcdUnpack b s
  | .hourEnc mode hour24 => Sys2Proof.Machine.execHourEnc mode hour24 s
  | .hourDec b => Sys2Proof.Machine.execHourDec b s
  | .hourDisp mode hour24 => Sys2Proof.Machine.execHourDisp mode hour24 s
  | .hourTo24 hour pm => Sys2Proof.Machine.execHourTo24 hour pm s
  | .clkBuild time mode => Sys2Proof.Machine.execClkBuild time mode s
  | .clkParse count b0 b1 b2 b3 b4 b5 b6 => Sys2Proof.Machine.execClkParse count b0 b1 b2 b3 b4 b5 b6 s
  | .clkSet time mode => Sys2Proof.Machine.execClkSet time mode s
  | .clkRead => Sys2Proof.Machine.execClkRead s
  | .a1Enc variant sec min hour dd => Sys2Proof.Machine.execA1Enc variant sec min hour dd s
  | .a2Enc variant min hour dd => Sys2Proof.Machine.execA2Enc variant min hour dd s
  | .a1Dec count b0 b1 b2 b3 => Sys2Proof.Machine.execA1Dec count b0 b1 b2 b3 s
  | .a2Dec count b0 b1 b2 => Sys2Proof.Machine.execA2Dec count b0 b1 b2 s
  | .aOffset base offset => Sys2Proof.Machine.execAOffset base offset s
  | .a1Set variant sec min hour dd => Sys2Proof.Machine.execA1Set variant sec min hour dd s
  | .a1Read => Sys2Proof.Machine.execA1Read s
  | .a2Set variant min hour dd => Sys2Proof.Machine.execA2Set variant min hour dd s
  | .a2Read => Sys2Proof.Machine.execA2Read s
  | .stDec b => Sys2Proof.Machine.execStDec b s
  | .stClr b select => Sys2Proof.Machine.execStClr b select s
  | .ctlBuild intcn a1e a2e rate => Sys2Proof.Machine.execCtlBuild intcn a1e a2e rate s
  | .sqwCode rate => Sys2Proof.Machine.execSqwCode rate s
  | .ctlDec b => Sys2Proof.Machine.execCtlDec b s
  | .stRead => Sys2Proof.Machine.execStRead s
  | .stClrf select => Sys2Proof.Machine.execStClrf select s
  | .sqwSet rate => Sys2Proof.Machine.execSqwSet rate s
  | .sqwOff => Sys2Proof.Machine.execSqwOff s
  | .ctlRead => Sys2Proof.Machine.execCtlRead s
  | .ctlWrite intcn a1e a2e rate => Sys2Proof.Machine.execCtlWrite intcn a1e a2e rate s
  | .tDec msb lsb => Sys2Proof.Machine.execTDec msb lsb s
  | .tRead => Sys2Proof.Machine.execTRead s

end Sys2Proof.Machine
end

