-- ==== Sys2Proof/Machine/Block.lean ====
section
/-! DEFINITION. The moves of the agents beside the host (10_state.md R30, R31): running a command, and
going on with it when a request is answered after the block had to wait. -/

namespace Sys2Proof.Machine

/-- The block's move. An Idle block does nothing of its own, and neither does one whose request is
unanswered (70_reset_and_hazards.md R467; log entry 10). A Busy block decodes `cmd` and runs the command
to its end or to a request that is not answered, or raises IllegalCommand (60_exceptions.md R405). -/
def blockMoves (s : State) : Host.Outcome State Fault Refusal :=
  match s.phase with
  | .idle => .next s
  | .busy =>
    if s.inFlight.isSome then .next s
    else
      match decode s.hasTemperature s.cmd with
      | .ok i => exec i s
      | .error _ => .next (rejectCommand s)

/-- How a command goes on with the bytes that its read gave (20_memory.md R71). The commands without a
read never come here (`State.Inv.waits_command`). -/
def afterRead (i : Instr) (bytes : List Byte) (s : State) : State :=
  match i with
  | .clkRead => afterClkRead bytes s
  | .a1Read => afterA1Read bytes s
  | .a2Read => afterA2Read bytes s
  | .stRead => afterStRead bytes s
  | .stClrf select => withResult (checkedSelect select) s fun sel => afterStClrfRead sel bytes s
  | .sqwSet rate =>
    withResult (checkedRate rate) s fun r => writeBack .control (withSquareWave r) bytes s
  | .sqwOff => writeBack .control withoutSquareWave bytes s
  | .ctlRead => afterCtlRead bytes s
  | .ctlWrite intcn a1e a2e rate =>
    withResult (checkedControlByte intcn a1e a2e rate) s fun w =>
      writeBack .control (withControlBits w) bytes s
  | .tRead => afterTRead bytes s
  | .bcdPack .. | .bcdUnpack .. | .hourEnc .. | .hourDec .. | .hourDisp .. | .hourTo24 .. |
    .clkBuild .. | .clkParse .. | .clkSet .. | .a1Enc .. | .a2Enc .. | .a1Dec .. | .a2Dec .. |
    .aOffset .. | .a1Set .. | .a2Set .. | .stDec .. | .stClr .. | .ctlBuild .. | .sqwCode .. |
    .ctlDec .. | .tDec .. => s

/-- How a command ends when its write is done: a SET command without results, a read-modify-write with
the byte written. The commands without a write never come here (`State.Inv.waits_command`). -/
def afterWrite (i : Instr) (bytes : List Byte) (s : State) : State :=
  match i with
  | .clkSet .. | .a1Set .. | .a2Set .. => complete [] s
  | .stClrf .. | .sqwSet .. | .sqwOff | .ctlWrite .. => complete bytes s
  | .bcdPack .. | .bcdUnpack .. | .hourEnc .. | .hourDec .. | .hourDisp .. | .hourTo24 .. |
    .clkBuild .. | .clkParse .. | .clkRead | .a1Enc .. | .a2Enc .. | .a1Dec .. | .a2Dec .. |
    .aOffset .. | .a1Read | .a2Read | .stDec .. | .stClr .. | .ctlBuild .. | .sqwCode .. |
    .ctlDec .. | .stRead | .ctlRead | .tDec .. | .tRead => s

/-- The transport's next answer is the answer to the request `r` of the command `i`. -/
def resume (i : Instr) (r : Request) (s : State) : State :=
  match r with
  | .read b => awaitRead b (afterRead i) s
  | .write b bytes => awaitWrite b bytes (afterWrite i bytes) s

/-- The transport's move (10_state.md R30; 20_memory.md R63, R64): it answers the request that the block
waits for, if there is one, and the command goes on; or it is still silent. -/
def transportMoves (s : State) : State :=
  match s.phase, s.inFlight with
  | .idle, _ => s
  | .busy, none => s
  | .busy, some r =>
    match decode s.hasTemperature s.cmd with
    | .ok i => resume i r { s with inFlight := none }
    | .error _ => s

/-- A move of an agent other than the host. -/
def agentMoves (a : Agent) (s : State) : Host.Outcome State Fault Refusal :=
  match a with
  | .block => blockMoves s
  | .transport => .next (transportMoves s)
  | .peer => .next (peerMoves s)

end Sys2Proof.Machine
end

