-- ==== Sys2Proof/Machine/Step.lean ====
section
/-! DEFINITION. One step of the machine (10_state.md R30, R31): a move of one of the four agents. -/

namespace Sys2Proof.Machine

/-- The host's next action, in Idle or in Busy: an Idle block accepts an offered frame; the response is
taken (10_state.md R31); the block is reset (70_reset_and_hazards.md R450). When the host passes, the
agent that it passes to moves; when it does nothing, the transport if a request is unanswered, and else
the block (log entry 11). -/
def step (s : State) : Host.Outcome State Fault Refusal :=
  match dueAction s with
  | some (.offer f) => .next (acceptFrame f (popHost s))
  | some .take => .next (takeResponse (popHost s))
  | some .reset => .next (blockReset (popHost s))
  | some (.pass a) => agentMoves a (popHost s)
  | none => agentMoves (if s.inFlight.isSome then .transport else .block) s

/-- The state whose next step runs the command with bits `w`: a Busy block that has just accepted its
frame (10_state.md R31), with no unanswered request; if the host has something to do, it passes to the
block first (log entry 1). -/
def State.withFetchWord (s : State) (nbits w : Nat) : State :=
  { s with phase := .busy, cmd := frameOfWord nbits w, inFlight := none,
           host := if s.host.any (servedIn .busy) then .pass .block :: s.host else s.host }

end Sys2Proof.Machine
end

