-- ==== Sys2Proof/WellFormed.lean ====
section
/-! DEFINITION. Which commands exist (00_scope.md R12), and which operands are in their domains.
`Instr.inputError` writes the order of 60_exceptions.md R407 items 2 to 5 out once, over the syntax
alone and apart from the meanings, so that the meanings can be held against it. -/

namespace Sys2Proof

/-- 00_scope.md R12, 30_encoding.md R106: T.DEC and T.READ exist only with `P_HAS_TEMPERATURE`. Every
other command, with any operand bytes, has a frame. -/
def Instr.wellFormed (hasTemperature : Bool) : Instr → Bool
  | .tDec _ _ => hasTemperature
  | .tRead => hasTemperature
  | .bcdPack .. | .bcdUnpack .. | .hourEnc .. | .hourDec .. | .hourDisp .. | .hourTo24 .. |
    .clkBuild .. | .clkParse .. | .clkSet .. | .clkRead | .a1Enc .. | .a2Enc .. | .a1Dec .. |
    .a2Dec .. | .aOffset .. | .a1Set .. | .a1Read | .a2Set .. | .a2Read | .stDec .. | .stClr .. |
    .ctlBuild .. | .sqwCode .. | .ctlDec .. | .stRead | .stClrf .. | .sqwSet .. | .sqwOff |
    .ctlRead | .ctlWrite .. => true

/-- 10_state.md R36: each field of a CalendarTime in its own domain, with no check across fields. -/
def TimeBlock.inDomain (t : TimeBlock) : Bool :=
  t.sec.toNat ≤ 59 && t.min.toNat ≤ 59 && t.hour.toNat ≤ 23
    && (1 ≤ t.dow.toNat && t.dow.toNat ≤ 7)
    && (1 ≤ t.date.toNat && t.date.toNat ≤ 31)
    && (1 ≤ t.month.toNat && t.month.toNat ≤ 12)
    && t.year.toNat ≤ 99

/-- 43_alarm.md R252, R253: the day-or-date operand under a variant code: a date for DateMatch (1), a
day for DayMatch (2), not read otherwise. -/
def alarmDayInDomain (variant dd : Byte) : Bool :=
  if variant = 1 then 1 ≤ dd.toNat && dd.toNat ≤ 31
  else if variant = 2 then 1 ≤ dd.toNat && dd.toNat ≤ 7
  else true

/-- 60_exceptions.md R407 item 2: a pure decode command whose count operand is wrong (R403 (a)). -/
def Instr.countWrong : Instr → Bool
  | .clkParse count .. => count ≠ 7
  | .a1Dec count .. => count ≠ 4
  | .a2Dec count .. => count ≠ 3
  | .bcdPack .. | .bcdUnpack .. | .hourEnc .. | .hourDec .. | .hourDisp .. | .hourTo24 .. |
    .clkBuild .. | .clkSet .. | .clkRead | .a1Enc .. | .a2Enc .. | .aOffset .. | .a1Set .. |
    .a1Read | .a2Set .. | .a2Read | .stDec .. | .stClr .. | .ctlBuild .. | .sqwCode .. |
    .ctlDec .. | .stRead | .stClrf .. | .sqwSet .. | .sqwOff | .ctlRead | .ctlWrite .. | .tDec .. |
    .tRead => false

/-- 60_exceptions.md R407 item 3: an AlarmSpec variant code outside 0, 1, 2. -/
def Instr.variantUnknown : Instr → Bool
  | .a1Enc variant .. => 2 < variant.toNat
  | .a2Enc variant .. => 2 < variant.toNat
  | .a1Set variant .. => 2 < variant.toNat
  | .a2Set variant .. => 2 < variant.toNat
  | .bcdPack .. | .bcdUnpack .. | .hourEnc .. | .hourDec .. | .hourDisp .. | .hourTo24 .. |
    .clkBuild .. | .clkParse .. | .clkSet .. | .clkRead | .a1Dec .. | .a2Dec .. | .aOffset .. |
    .a1Read | .a2Read | .stDec .. | .stClr .. | .ctlBuild .. | .sqwCode .. | .ctlDec .. | .stRead |
    .stClrf .. | .sqwSet .. | .sqwOff | .ctlRead | .ctlWrite .. | .tDec .. | .tRead => false

/-- 60_exceptions.md R407 item 4, R402: TimeOnly requested for Alarm-2. -/
def Instr.timeOnlyForAlarm2 : Instr → Bool
  | .a2Enc variant .. => variant = 0
  | .a2Set variant .. => variant = 0
  | .bcdPack .. | .bcdUnpack .. | .hourEnc .. | .hourDec .. | .hourDisp .. | .hourTo24 .. |
    .clkBuild .. | .clkParse .. | .clkSet .. | .clkRead | .a1Enc .. | .a1Dec .. | .a2Dec .. |
    .aOffset .. | .a1Set .. | .a1Read | .a2Read | .stDec .. | .stClr .. | .ctlBuild .. |
    .sqwCode .. | .ctlDec .. | .stRead | .stClrf .. | .sqwSet .. | .sqwOff | .ctlRead |
    .ctlWrite .. | .tDec .. | .tRead => false

/-- 60_exceptions.md R407 item 5, R401: any other operand out of its domain; for A.OFFSET also the
hour carry out of 23 (43_alarm.md R257 (b)). -/
def Instr.operandOutOfDomain : Instr → Bool
  | .bcdPack value => 99 < value.toNat
  | .hourEnc mode hour24 => 1 < mode.toNat || 23 < hour24.toNat
  | .hourDisp mode hour24 => 1 < mode.toNat || 23 < hour24.toNat
  | .hourTo24 hour isPM => hour.toNat < 1 || 12 < hour.toNat || 1 < isPM.toNat
  | .clkBuild time mode => 1 < mode.toNat || !time.inDomain
  | .clkSet time mode => 1 < mode.toNat || !time.inDomain
  | .a1Enc variant sec min hour dd | .a1Set variant sec min hour dd =>
    59 < sec.toNat || 59 < min.toNat || 23 < hour.toNat || !alarmDayInDomain variant dd
  | .a2Enc variant min hour dd | .a2Set variant min hour dd =>
    59 < min.toNat || 23 < hour.toNat || !alarmDayInDomain variant dd
  | .aOffset base offset =>
    !base.inDomain || 59 < offset.toNat
      || (base.hour.toNat = 23 && 60 ≤ base.min.toNat + offset.toNat)
  | .stClr _ select => 3 < select.toNat
  | .stClrf select => 3 < select.toNat
  | .ctlBuild intcn a1e a2e rate =>
    1 < intcn.toNat || 1 < a1e.toNat || 1 < a2e.toNat || 3 < rate.toNat
  | .ctlWrite intcn a1e a2e rate =>
    1 < intcn.toNat || 1 < a1e.toNat || 1 < a2e.toNat || 3 < rate.toNat
  | .sqwCode rate => 3 < rate.toNat
  | .sqwSet rate => 3 < rate.toNat
  | .bcdUnpack .. | .hourDec .. | .clkParse .. | .clkRead | .a1Dec .. | .a2Dec .. | .a1Read |
    .a2Read | .stDec .. | .ctlDec .. | .stRead | .sqwOff | .ctlRead | .tDec .. | .tRead => false

/-- 60_exceptions.md R407 items 2 to 5, in that order: the error the operands alone give a command,
if any. -/
def Instr.inputError (i : Instr) : Option ErrorKind :=
  if i.countWrong then some .malformedRegisterData
  else if i.variantUnknown then some .outOfRange
  else if i.timeOnlyForAlarm2 then some .unsupportedAlarmVariant
  else if i.operandOutOfDomain then some .outOfRange
  else none

end Sys2Proof
end

