-- ==== Sys2Proof/Safety.lean ====
section
/-! DEFINITION. The terms the claims use: what a command leaves behind (00_scope.md R17, 60_exceptions.md
R406), which requests it may issue (20_memory.md R66), what counts as a legal state, and the spec's
formulas written in plain arithmetic, apart from the meanings. -/

namespace Sys2Proof

open Machine

/-! ## What a command leaves behind -/

/-- 10_state.md R31: the response `f` stands, the block is Idle, and nothing else has changed. -/
def answered (s : State) (f : RspFrame) : State :=
  { s with rsp := f, rspValid := true, phase := .idle }

/-- 60_exceptions.md R406: an error response, and nothing else has changed. -/
def rejected (s : State) (code : Byte) : State := answered s { err := code }

/-- The request `r` has been issued and its answer used up; nothing else has changed. -/
def requested (s : State) (r : Request) : State :=
  { s with answers := s.answers.tail, drawn := s.drawn + 1, requests := s.requests ++ [r] }

/-- 10_state.md R47 (a): the request `r` has been issued and stands without an answer, the transport's
silence is used up, and nothing else has changed. -/
def waitingFor (s : State) (r : Request) : State :=
  { s with phase := .busy, inFlight := some r, answers := s.answers.tail,
           requests := s.requests ++ [r] }

/-- 60_exceptions.md R400. -/
def codeOf : ErrorKind → Byte
  | .outOfRange => 1
  | .unsupportedAlarmVariant => 2
  | .malformedRegisterData => 3
  | .transportFailure => 4
  | .illegalCommand => 5

/-! ## Requests -/

/-- 20_memory.md R63, R64: whether a request writes, its start address and its length. -/
def Machine.Request.shape : Request → Bool × Nat × Nat
  | .read b => (false, b.base, b.count)
  | .write b bytes => (true, b.base, bytes.length)

/-- 30_encoding.md R105: the commands of kind "pure". -/
def Instr.isPure : Instr → Bool
  | .bcdPack .. | .bcdUnpack .. | .hourEnc .. | .hourDec .. | .hourDisp .. | .hourTo24 .. |
    .clkBuild .. | .clkParse .. | .a1Enc .. | .a2Enc .. | .a1Dec .. | .a2Dec .. | .aOffset .. |
    .stDec .. | .stClr .. | .ctlBuild .. | .sqwCode .. | .ctlDec .. | .tDec .. => true
  | .clkSet .. | .clkRead | .a1Set .. | .a1Read | .a2Set .. | .a2Read | .stRead | .stClrf .. |
    .sqwSet .. | .sqwOff | .ctlRead | .ctlWrite .. | .tRead => false

/-- 20_memory.md R66: the bursts of a command, in order, as (writes, start, length); ST.CLRF omits its
write when its select is 0. -/
def Instr.bursts : Instr → List (Bool × Nat × Nat)
  | .clkSet .. => [(true, 0x00, 7)]
  | .clkRead => [(false, 0x00, 7)]
  | .a1Set .. => [(true, 0x07, 4)]
  | .a1Read => [(false, 0x07, 4)]
  | .a2Set .. => [(true, 0x0B, 3)]
  | .a2Read => [(false, 0x0B, 3)]
  | .stRead => [(false, 0x0F, 1)]
  | .stClrf select => if select = 0 then [(false, 0x0F, 1)] else [(false, 0x0F, 1), (true, 0x0F, 1)]
  | .sqwSet .. | .sqwOff | .ctlWrite .. => [(false, 0x0E, 1), (true, 0x0E, 1)]
  | .ctlRead => [(false, 0x0E, 1)]
  | .tRead => [(false, 0x11, 2)]
  | .bcdPack .. | .bcdUnpack .. | .hourEnc .. | .hourDec .. | .hourDisp .. | .hourTo24 .. |
    .clkBuild .. | .clkParse .. | .a1Enc .. | .a2Enc .. | .a1Dec .. | .a2Dec .. | .aOffset .. |
    .stDec .. | .stClr .. | .ctlBuild .. | .sqwCode .. | .ctlDec .. | .tDec .. => []

/-- 20_memory.md R66: an address lies in a range that the command writes. -/
def Instr.writesAt (i : Instr) (a : Nat) : Bool :=
  i.bursts.any fun r => r.1 && (r.2.1 ≤ a && a < r.2.1 + r.2.2)

/-- 20_memory.md R66: a request that some command issues: a read of any burst, or a write of a whole
burst other than the temperature's. -/
def Machine.Request.legal : Request → Bool
  | .read _ => true
  | .write .temperature _ => false
  | .write b bytes => bytes.length = b.count

/-- What a read-modify-write of the control register leaves with both answers `ok`
(44_status_control.md R292, R293, R295), `w` being the byte written. -/
def controlRewritten (s : State) (w : Byte) : State :=
  answered { requested (requested s (.read .control)) (.write .control [w]) with
    regs := s.regs.put 0x0E w } { q1 := w }

/-- What a read-modify-write of the control register leaves when its read answers `ok` and its write
answers `fail` (20_memory.md R77, 60_exceptions.md R408), `w` being the byte of the write. -/
def controlWriteFailed (s : State) (w : Byte) : State :=
  rejected { requested (requested s (.read .control)) (.write .control [w]) with
    regs := s.regs.forget 0x0E 1 } 4

/-! ## The host's moves -/

/-- An offered frame (10_state.md R31). -/
def Machine.HostAction.isOffer : HostAction → Bool
  | .offer _ => true
  | .take | .reset | .pass _ => false

/-- 10_state.md R31: the host's next action is `a`, and `rest` is what it does after it. A Busy block
holds back the offered frames before it, and `a` is none; an Idle block holds back nothing. -/
def Machine.State.hostDoes (s : State) (a : HostAction) (rest : List HostAction) : Prop :=
  ∃ held later, s.host = held ++ a :: later ∧ rest = held ++ later ∧
    (∀ x ∈ held, x.isOffer = true) ∧
    (s.phase = .idle → held = []) ∧ (s.phase = .busy → a.isOffer = false)

/-- The host has nothing to do but to offer frames to a Busy block. -/
def Machine.State.hostQuiet (s : State) : Prop :=
  (∀ x ∈ s.host, x.isOffer = true) ∧ (s.phase = .idle → s.host = [])

/-- 10_state.md R30: it is the move of the agent `a`, and `rest` is what the host does after that: the
host passes to it; or the host does nothing, and it is the transport's move when a request is
unanswered, and else the block's (log entry 11). -/
def Machine.State.turnOf (s : State) (a : Agent) (rest : List HostAction) : Prop :=
  s.hostDoes (.pass a) rest ∨
  s.hostQuiet ∧ rest = s.host ∧ a = if s.inFlight.isSome then .transport else .block

/-- The next step can change what the model knows of the peer register `a`: the block or the transport
moves, while the frame is a command that writes it, its operands in their domains; or the transport can
answer, or a reset abandon (70_reset_and_hazards.md R451), an unanswered write of it; or the peer changes
it, being volatile (10_state.md R43). -/
def Machine.State.mayWrite (s : State) (a : Nat) : Prop :=
  (∃ rest i, (s.turnOf .block rest ∨ s.turnOf .transport rest) ∧ s.phase = .busy ∧
    decode s.hasTemperature s.cmd = .ok i ∧ i.inputError = none ∧ i.writesAt a = true) ∨
  (∃ rest b bytes, (s.turnOf .transport rest ∨ s.hostDoes .reset rest) ∧
    s.inFlight = some (.write b bytes) ∧ b.base ≤ a ∧ a < b.base + max b.count bytes.length) ∨
  ∃ rest, s.turnOf .peer rest ∧ classOf a = .volatile

/-- Steps lead from `s` to `u`, each from a state that satisfies `P`. -/
inductive Machine.Reaches (P : State → Prop) : State → State → Prop where
  | here (s : State) : Reaches P s s
  | step {s t u : State} (h : P s) (hs : step s = .next t) (ht : Reaches P t u) : Reaches P s u

/-! ## Frames -/

/-- Byte x[k] of a command frame (00_scope.md R15), for k in 1..8: no command reads a later one. -/
def CmdFrame.operand (f : CmdFrame) : Nat → Byte
  | 1 => f.p1
  | 2 => f.p2
  | 3 => f.p3
  | 4 => f.p4
  | 5 => f.p5
  | 6 => f.p6
  | 7 => f.p7
  | 8 => f.p8
  | _ => 0

/-- 30_encoding.md R105: which operand bytes P_k a command's rule names. -/
def Instr.operandPositions : Instr → List Nat
  | .bcdPack .. | .bcdUnpack .. | .hourDec .. | .stDec .. | .sqwCode .. | .ctlDec .. | .stClrf .. |
    .sqwSet .. => [1]
  | .hourEnc .. | .hourDisp .. | .hourTo24 .. | .stClr .. | .tDec .. => [1, 2]
  | .clkBuild .. | .clkParse .. | .clkSet .. | .aOffset .. => [1, 2, 3, 4, 5, 6, 7, 8]
  | .a1Enc .. | .a1Dec .. | .a1Set .. => [1, 2, 3, 4, 5]
  | .a2Enc .. | .a2Set .. => [1, 3, 4, 5]
  | .a2Dec .. | .ctlBuild .. | .ctlWrite .. => [1, 2, 3, 4]
  | .clkRead | .a1Read | .a2Read | .stRead | .sqwOff | .ctlRead | .tRead => []

/-- 30_encoding.md R106: the unassigned opcodes, range by range. -/
def illegalOpcode (hasTemperature : Bool) (op : Nat) : Bool :=
  op = 0x00 || (0x03 ≤ op && op ≤ 0x0F) || (0x14 ≤ op && op ≤ 0x1F) || (0x24 ≤ op && op ≤ 0x2F)
    || (0x39 ≤ op && op ≤ 0x3F) || (0x4B ≤ op && op ≤ 0x4F) || 0x52 ≤ op
    || (!hasTemperature && (op = 0x50 || op = 0x51))

/-- 60_exceptions.md R400, R406: a response carries a code 0x00..0x05, and an error response has no
result bytes. -/
def RspFrame.legal (f : RspFrame) : Bool := f.err.toNat ≤ 5 && (f.err = 0 || f = { err := f.err })

/-! ## The spec's formulas in plain arithmetic -/

/-- 40_bcd.md R200. -/
def packed (v : Nat) : Byte := BitVec.ofNat 8 (16 * (v / 10) + v % 10)

/-- 40_bcd.md R201, of a value of at most 255. -/
def digits (n : Nat) : Nat := n / 16 * 10 + n % 16

/-- 41_hour.md R212. -/
def hour12 (h : Nat) : Nat := if h = 0 then 12 else if h > 12 then h - 12 else h

/-- 41_hour.md R210, of an hour of at most 23; `twelve` is the mode. -/
def hourByte (twelve : Bool) (h : Nat) : Byte :=
  if twelve then
    BitVec.ofNat 8 (64 + (if h ≥ 12 then 32 else 0) + 16 * (hour12 h / 10) + hour12 h % 10)
  else packed h

/-- 41_hour.md R211: the mode bit. -/
def inTwelveHourForm (b : Byte) : Bool := b.toNat / 64 % 2 = 1

/-- 41_hour.md R211: the hour an hour byte shows. -/
def shownHour (b : Byte) : Nat :=
  if inTwelveHourForm b then digits (b.toNat % 32) else digits (b.toNat % 64)

/-- 41_hour.md R211: whether an hour byte is after noon. -/
def afterNoon (b : Byte) : Bool :=
  if inTwelveHourForm b then b.toNat / 32 % 2 = 1 else shownHour b ≥ 12

/-- 41_hour.md R213: the inverse mapping. -/
def hour24Of (hour : Nat) (pm : Bool) : Nat :=
  if hour = 12 then (if pm then 12 else 0) else (if pm then hour + 12 else hour)

/-- 42_clock.md R231, 43_alarm.md R255: the 24-hour value of an hour byte. -/
def clockHour (b : Byte) : Nat :=
  if inTwelveHourForm b then hour24Of (shownHour b) (afterNoon b) else shownHour b

/-- 30_encoding.md R108: a boolean result. -/
def flagByte (c : Bool) : Byte := if c then 1 else 0

/-- 43_alarm.md R254: the code of the variant that a day/date byte selects. -/
def variantCode (b : Byte) : Byte :=
  if b.toNat ≥ 128 then 0 else if b.toNat ≥ 64 then 2 else 1

/-- 43_alarm.md R255: the day or date of a day/date byte. -/
def alarmDay (b : Byte) : Nat := if b.toNat ≥ 128 then 0 else digits (b.toNat % 64)

/-- 43_alarm.md R251: the day/date byte of a variant code and a day or date. -/
def alarmDayByte (variant dd : Byte) : Byte :=
  if variant = 0 then 0x80
  else if variant = 1 then packed dd.toNat
  else BitVec.ofNat 8 (64 + 16 * (dd.toNat / 10) + dd.toNat % 10)

/-- 42_clock.md R230: the seven bytes of a CalendarTime; `twelve` is the mode. -/
def clockImage (t : TimeBlock) (twelve : Bool) : List Byte :=
  [packed t.sec.toNat, packed t.min.toNat, hourByte twelve t.hour.toNat, packed t.dow.toNat,
   packed t.date.toNat, packed t.month.toNat, packed t.year.toNat]

/-- 42_clock.md R233: the response to seven clock bytes. -/
def clockReport (b0 b1 b2 b3 b4 b5 b6 : Byte) : RspFrame :=
  { q1 := BitVec.ofNat 8 (digits b0.toNat), q2 := BitVec.ofNat 8 (digits b1.toNat),
    q3 := BitVec.ofNat 8 (clockHour b2), q4 := BitVec.ofNat 8 (digits b3.toNat),
    q5 := BitVec.ofNat 8 (digits b4.toNat), q6 := BitVec.ofNat 8 (digits b5.toNat),
    q7 := BitVec.ofNat 8 (digits b6.toNat), q8 := flagByte (inTwelveHourForm b2),
    q9 := BitVec.ofNat 8 (shownHour b2), q10 := flagByte (afterNoon b2) }

/-- 43_alarm.md R260: the four bytes of an Alarm-1 operand block. -/
def alarm1Image (variant sec min hour dd : Byte) : List Byte :=
  [packed sec.toNat, packed min.toNat, packed hour.toNat, alarmDayByte variant dd]

/-- 43_alarm.md R261: the three bytes of an Alarm-2 operand block. -/
def alarm2Image (variant min hour dd : Byte) : List Byte :=
  [packed min.toNat, packed hour.toNat, alarmDayByte variant dd]

/-- 43_alarm.md R262: the response to four Alarm-1 bytes. -/
def alarm1Report (b0 b1 b2 b3 : Byte) : RspFrame :=
  { q1 := variantCode b3, q2 := BitVec.ofNat 8 (digits (b0.toNat % 128)),
    q3 := BitVec.ofNat 8 (digits (b1.toNat % 128)), q4 := BitVec.ofNat 8 (clockHour b2),
    q5 := BitVec.ofNat 8 (alarmDay b3) }

/-- 43_alarm.md R263: the response to three Alarm-2 bytes. -/
def alarm2Report (b0 b1 b2 : Byte) : RspFrame :=
  { q1 := variantCode b2, q2 := 0, q3 := BitVec.ofNat 8 (digits (b0.toNat % 128)),
    q4 := BitVec.ofNat 8 (clockHour b1), q5 := BitVec.ofNat 8 (alarmDay b2) }

/-- 44_status_control.md R285: the response to a status byte. -/
def statusReport (b : Byte) : RspFrame :=
  { q1 := flagByte (b.toNat ≥ 128), q2 := flagByte (b.toNat % 2 = 1),
    q3 := flagByte (b.toNat / 2 % 2 = 1), q4 := b }

/-- 44_status_control.md R289: the response to a control byte. -/
def controlReport (b : Byte) : RspFrame :=
  { q1 := flagByte (b.toNat / 4 % 2 = 1), q2 := flagByte (b.toNat % 2 = 1),
    q3 := flagByte (b.toNat / 2 % 2 = 1), q4 := BitVec.ofNat 8 (b.toNat / 8 % 4), q5 := b }

/-- 44_status_control.md R282, of operands in their domains. -/
def controlImage (intcn a1e a2e rate : Byte) : Byte :=
  BitVec.ofNat 8 (8 * rate.toNat + 4 * intcn.toNat + 2 * a2e.toNat + a1e.toNat)

/-- 44_status_control.md R287: the four operands are in their domains. -/
def controlInDomain (intcn a1e a2e rate : Byte) : Bool :=
  intcn.toNat ≤ 1 && a1e.toNat ≤ 1 && a2e.toNat ≤ 1 && rate.toNat ≤ 3

/-- 45_temperature.md R311: the response to two temperature bytes. -/
def temperatureReport (msb lsb : Byte) : RspFrame :=
  let u := (if msb.toNat ≥ 128 then 65536 - 1024 else 0) + msb.toNat * 4 + lsb.toNat / 64
  { q1 := BitVec.ofNat 8 (u / 256), q2 := BitVec.ofNat 8 (u % 256) }

/-! ## The bytes that the commands write -/

/-- The byte that a read-modify-write writes, made from the byte `x` that it reads
(44_status_control.md R291, R292, R293, R295); no other command makes one. -/
def Instr.rewritten (i : Instr) (x : Byte) : Byte :=
  match i with
  | .stClrf select => x &&& ~~~select
  | .sqwSet rate => BitVec.ofNat 8 (x.toNat / 32 * 32 + rate.toNat * 8 + x.toNat % 4)
  | .sqwOff => BitVec.ofNat 8 (x.toNat / 8 * 8 + 4 + x.toNat % 4)
  | .ctlWrite intcn a1e a2e rate =>
    BitVec.ofNat 8 (x.toNat / 32 * 32 + (controlImage intcn a1e a2e rate).toNat)
  | .bcdPack .. | .bcdUnpack .. | .hourEnc .. | .hourDec .. | .hourDisp .. | .hourTo24 .. |
    .clkBuild .. | .clkParse .. | .clkSet .. | .clkRead | .a1Enc .. | .a2Enc .. | .a1Dec .. |
    .a2Dec .. | .aOffset .. | .a1Set .. | .a1Read | .a2Set .. | .a2Read | .stDec .. | .stClr .. |
    .ctlBuild .. | .sqwCode .. | .ctlDec .. | .stRead | .ctlRead | .tDec .. | .tRead => x

/-- The write request of a SET command with operands in their domains (42_clock.md R234, 43_alarm.md
R265, R267); no other command begins with a write. -/
def Instr.setRequest : Instr → Option Request
  | .clkSet time mode => some (.write .clock (clockImage time (mode.toNat = 1)))
  | .a1Set variant sec min hour dd => some (.write .alarm1 (alarm1Image variant sec min hour dd))
  | .a2Set variant min hour dd => some (.write .alarm2 (alarm2Image variant min hour dd))
  | .bcdPack .. | .bcdUnpack .. | .hourEnc .. | .hourDec .. | .hourDisp .. | .hourTo24 .. |
    .clkBuild .. | .clkParse .. | .clkRead | .a1Enc .. | .a2Enc .. | .a1Dec .. | .a2Dec .. |
    .aOffset .. | .a1Read | .a2Read | .stDec .. | .stClr .. | .ctlBuild .. | .sqwCode .. |
    .ctlDec .. | .stRead | .stClrf .. | .sqwSet .. | .sqwOff | .ctlRead | .ctlWrite .. | .tDec .. |
    .tRead => none

/-- 20_memory.md R66, R71: the command, its operands in their domains, issues the request: its first
read, the write of a SET command, or the write of a read-modify-write, with a byte that its rule makes
from some byte read. -/
def Instr.issues (i : Instr) (r : Request) : Prop :=
  i.inputError = none ∧
    ((∃ b, r = .read b ∧ i.bursts.head? = some (Request.shape (.read b))) ∨
     i.setRequest = some r ∨
     ∃ b x, r = .write b [i.rewritten x] ∧
       i.bursts = [Request.shape (.read b), Request.shape (.write b [i.rewritten x])])

/-! ## Legal states -/

/-- What every state the machine reaches satisfies. -/
structure Machine.State.Inv (s : State) : Prop where
  /-- the peer's registers keep their canonical form -/
  regs_wf : s.regs.wf
  /-- 60_exceptions.md R400, R406 -/
  rsp_legal : s.rsp.legal = true
  /-- 10_state.md R31, R47 (a): only a Busy block waits for an answer -/
  waits_busy : s.inFlight.isSome = true → s.phase = .busy
  /-- 20_memory.md R66 -/
  waits_legal : ∀ r, s.inFlight = some r → r.legal = true
  /-- 10_state.md R31: what a Busy block waits for is a request of the command in its frame -/
  waits_command : ∀ r, s.inFlight = some r →
    ∃ i, decode s.hasTemperature s.cmd = .ok i ∧ i.issues r
  /-- 20_memory.md R66 -/
  requests_legal : ∀ r ∈ s.requests, r.legal = true

end Sys2Proof
end

