-- ==== Sys2Proof/Certificates/Slice0/Obligations.lean ====
section
/-! DEFINITION. What is to be proved of the model, in the order of OBLIGATIONS.json. `answered`,
`rejected`, `requested` and `waitingFor` (Safety) say what a command leaves behind: every field of the
state that they do not name is unchanged. The byte formulas of Safety are the spec's, in plain
arithmetic. -/

open Sys2Proof Sys2Proof.Machine

/-! ## Frames and opcodes -/

/-- 30_encoding.md R102, R103, R105: the frame of every command that exists decodes to that command,
with every operand at every value. -/
def Obligations.DecodeOfEncode : Prop :=
  ∀ (h : Bool) (i : Instr), i.wellFormed h = true → decode h (encode i) = .ok i

/-- 30_encoding.md R102, R106: what the decoder answers is a command that exists, and its opcode byte
alone is the frame's. -/
def Obligations.DecodedCommandExists : Prop :=
  ∀ (h : Bool) (f : CmdFrame) (i : Instr), decode h f = .ok i →
    i.wellFormed h = true ∧ (encode i).op = f.op

/-- 30_encoding.md R103: a frame that agrees on the opcode and on the operand bytes that the command's
rule names is the same command, and the result does not depend on the other bytes: from states that
differ in the two frames only, the steps leave states that differ at most in the frame. -/
def Obligations.UnnamedOperandBytesAreIgnored : Prop :=
  ∀ (h : Bool) (f g : CmdFrame) (i : Instr), decode h f = .ok i → g.op = f.op →
    (∀ k ∈ i.operandPositions, g.operand k = f.operand k) →
    decode h g = .ok i ∧
    ∀ s : State, s.hasTemperature = h →
      ∃ t u, step { s with cmd := f } = .next t ∧ step { s with cmd := g } = .next u ∧
        u = { t with cmd := u.cmd }

/-- 30_encoding.md R105, R118: frames written out from the table and from the examples of the command
rules. -/
def Obligations.SampleFramesDecode : Prop :=
  decodeTableWord 16 0x2A01 = some (.bcdPack 42) ∧
  decodeTableWord 24 0x0D0110 = some (.hourEnc 1 13) ∧
  decodeTableWord 72 0x0118060F030D2D1E20 =
    some (.clkBuild
      { sec := 30, min := 45, hour := 13, dow := 3, date := 15, month := 6, year := 24 } 1) ∧
  decodeTableWord 48 0x190C00630131 = some (.a2Enc 1 0 12 25) ∧
  decodeTableWord 40 0x020100014A = some (.ctlWrite 1 0 1 2) ∧
  decodeTableWord 24 0x401950 = some (.tDec 0x19 0x40) ∧
  decodeTableWord 8 0x03 = none

/-- 30_encoding.md R106, 60_exceptions.md R405: a frame is illegal exactly for the opcodes that R106
lists, and then the move of a Busy block ends it with IllegalCommand: no request is issued, and beside
the response and the end of the command nothing changes. -/
def Obligations.IllegalOpcodesRaiseIllegalCommand : Prop :=
  (∀ (h : Bool) (f : CmdFrame),
    (illegalOpcode h f.op.toNat = true ↔ ∃ e, decode h f = .error e)) ∧
  ∀ (s : State) (rest : List HostAction), s.phase = .busy → s.turnOf .block rest → s.inFlight = none →
    illegalOpcode s.hasTemperature s.cmd.op.toNat = true →
    step s = .next (rejected { s with host := rest } 5)

/-! ## The step -/

/-- 10_state.md R31: a Busy block with no request unanswered, whose move it is, runs the command that
its frame decodes to, and nothing stands around it but the host's pass, if there was one (log entry
11). The second clause is the model's own loading of a command (log entry 1): the step after
`withFetchWord` runs the command that the word decodes to, in the state where just its frame has been
accepted. -/
def Obligations.StepRunsTheDecodedCommand : Prop :=
  (∀ (s : State) (rest : List HostAction) (i : Instr), s.phase = .busy → s.turnOf .block rest →
    s.inFlight = none → decode s.hasTemperature s.cmd = .ok i →
    step s = exec i { s with host := rest }) ∧
  ∀ (s : State) (nbits w : Nat) (i : Instr), s.hasTemperature = true →
    decodeTableWord nbits w = some i →
    step (s.withFetchWord nbits w) =
      exec i { s with phase := .busy, cmd := frameOfWord nbits w, inFlight := none }

/-- 10_state.md R31: an Idle block accepts the frame that the host offers, and lets the host take the
response; when it is the block's move, or the transport's, nothing changes, and when it is the peer's, no
byte that a read gives for its draw (log entry 18). That rsp stays when it is taken, and rsp and rspValid when a frame is accepted, is the model's
reading (log entry 12); that a take does nothing when no response stands, and that a block with nothing
to do stays as it is, are its choices (log entries 23, 10). -/
def Obligations.IdleBlockServesTheHost : Prop :=
  ∀ (s : State), s.phase = .idle →
    (∀ f rest, s.host = .offer f :: rest →
      step s = .next { s with cmd := f, phase := .busy, host := rest }) ∧
    (∀ rest, s.host = .take :: rest → step s = .next { s with rspValid := false, host := rest }) ∧
    (∀ rest, s.host = .pass .block :: rest ∨ s.host = .pass .transport :: rest →
      step s = .next { s with host := rest }) ∧
    (s.host = [] → step s = .next s) ∧
    ∀ rest, s.host = .pass .peer :: rest →
      ∃ m, step s = .next { s with host := rest, regs := m } ∧
        ∀ a d, peerByte m a d = peerByte s.regs a d

/-- 10_state.md R31: a step of a Busy block accepts no frame: the offered frames stay, in their order,
the frame being executed changes only by a reset, and the parameter never. The host may take the
response in Busy too, past the frames held back, and nothing else changes; when the peer moves in Busy, no
byte that a read gives for its draw changes (log entry 18). That the order of the moves
is read from the host's list is the model's form (log entry 11); that rsp stays when it is taken is its
reading (log entry 12); that a take is used up without effect when no response stands is its choice (log
entry 23). -/
def Obligations.BusyBlockAcceptsNoFrame : Prop :=
  ∀ (s : State), s.phase = .busy →
    (∀ t, step s = .next t →
      t.host.filter HostAction.isOffer = s.host.filter HostAction.isOffer ∧
      t.hasTemperature = s.hasTemperature ∧
      ((∀ rest, ¬ s.hostDoes .reset rest) → t.cmd = s.cmd)) ∧
    (∀ rest, s.hostDoes .take rest → step s = .next { s with rspValid := false, host := rest }) ∧
    ∀ rest, s.turnOf .peer rest →
      ∃ m, step s = .next { s with host := rest, regs := m } ∧
        ∀ a d, peerByte m a d = peerByte s.regs a d

/-- 70_reset_and_hazards.md R450: a reset, in Idle or in Busy, with a request unanswered or none, clears
the block; a running command is abandoned, and beside the block's own state and the reset itself at most
peer registers change. -/
def Obligations.ResetClearsTheBlock : Prop :=
  ∀ (s : State) (rest : List HostAction), s.hostDoes .reset rest →
    ∃ m : Memory, step s = .next { s with phase := .idle, cmd := {}, rsp := {}, rspValid := false,
                                          inFlight := none, host := rest, regs := m }

/-- 70_reset_and_hazards.md R451: a reset issues no request and uses no answer. When it abandons a write,
the registers in that write's range become draws and all others stay; when it abandons a read, or
nothing, no peer register changes. -/
def Obligations.ResetIsNotATransaction : Prop :=
  (∀ (s : State) (rest : List HostAction) (b : Burst) (bytes : List Byte),
    s.hostDoes .reset rest → s.inFlight = some (.write b bytes) →
    ∃ m : Memory,
      step s = .next { s with phase := .idle, cmd := {}, rsp := {}, rspValid := false,
                              inFlight := none, host := rest, regs := m } ∧
      (∀ a, b.base ≤ a → a < b.base + b.count → ∀ d, peerByte m a d = d) ∧
      (∀ a, a < b.base ∨ b.base + b.count ≤ a → m.byteAt a = s.regs.byteAt a)) ∧
  ∀ (s : State) (rest : List HostAction), s.hostDoes .reset rest →
    (s.inFlight = none ∨ ∃ b, s.inFlight = some (.read b)) →
    step s = .next { s with phase := .idle, cmd := {}, rsp := {}, rspValid := false,
                            inFlight := none, host := rest }

/-- 10_state.md R48: the values after reset; no peer register has one, each reads as its draw. That a
reset of the block changes no peer register is said for a block that is not writing (R451). -/
def Obligations.ResetValues : Prop :=
  State.reset.phase = .idle ∧ State.reset.cmd = {} ∧ State.reset.rsp = {} ∧
  State.reset.rspValid = false ∧ State.reset.inFlight = none ∧
  (∀ a d, peerByte State.reset.regs a d = d) ∧
  ∀ s : State, (∀ b bytes, s.inFlight ≠ some (.write b bytes)) → (blockReset s).regs = s.regs

/-- 70_reset_and_hazards.md R467, R462, 10_state.md R30: a Busy block whose request is unanswered stays
so, step after step, until the transport answers or the host resets it; meanwhile the host's actions,
rspValid by a take, and the silence used up change, and the peer's moves change no byte that a read
gives. When the transport answers, late or at once, the command goes on to its end: its response stands.
An answer that comes after a silence leaves exactly what it would have left without the silence. (That
an unanswered request is a `silent` answer, and what the answers are after the scripted ones, is the
model's form, log entries 3 and 4; what a take leaves of rsp, and does when no response stands, are its
reading and its choice, log entries 12 and 23.) -/
def Obligations.AnsweredCommandsComplete : Prop :=
  (∀ (s : State) (r : Request), s.phase = .busy → s.inFlight = some r →
    (∀ rest, ¬ s.hostDoes .reset rest) →
    (nextAnswer s = .silent ∨ ∀ rest, ¬ s.turnOf .transport rest) →
    ∃ rest v l m, step s = .next { s with host := rest, rspValid := v, answers := l, regs := m } ∧
      (v = s.rspValid ∨ s.hostDoes .take rest ∧ v = false) ∧
      (l = s.answers ∨ s.turnOf .transport rest ∧ l = s.answers.tail) ∧
      ∀ a d, peerByte m a d = peerByte s.regs a d) ∧
  (∀ (s : State) (r : Request) (rest : List HostAction), s.Inv → s.inFlight = some r →
    s.turnOf .transport rest → .silent ∉ s.answers →
    ∃ t, step s = .next t ∧ t.phase = .idle ∧ t.rspValid = true ∧ t.inFlight = none) ∧
  (∀ (i : Instr) (s : State), .silent ∉ s.answers →
    ∃ t, exec i s = .next t ∧ t.phase = .idle ∧ t.rspValid = true ∧ t.inFlight = s.inFlight) ∧
  ∀ (i : Instr) (s t u : State) (pre late : List Answer) (rest : List HostAction),
    decode s.hasTemperature s.cmd = .ok i → s.inFlight = none → .silent ∉ pre →
    s.answers = pre ++ .silent :: late → exec i s = .next t → t.inFlight.isSome = true →
    t.turnOf .transport rest → exec i { s with answers := pre ++ late } = .next u →
    step t = .next { u with host := rest }

/-! ## The invariant -/

/-- The state after reset is legal. -/
def Obligations.ResetIsLegal : Prop := State.reset.Inv

/-- Every step, whichever agent moves, keeps: the canonical form of the peer's registers, a response with a
code of 0x00 to 0x05 and no result bytes beside an error (60_exceptions.md R400, R406), waiting only while
Busy, and for a request of the command in the frame (10_state.md R31), and no request but the bursts of
20_memory.md R66. -/
def Obligations.StepKeepsTheInvariant : Prop :=
  ∀ (s t : State), s.Inv → step s = .next t → t.Inv

/-! ## All commands -/

/-- 60_exceptions.md R401, R402, R407 items 2 to 5: the error that the operands give comes first, before
any request, and nothing else happens. -/
def Obligations.InputErrorsComeBeforeAnyAccess : Prop :=
  ∀ (i : Instr) (s : State) (e : ErrorKind), i.inputError = some e →
    exec i s = .next (rejected s (codeOf e))

/-- 60_exceptions.md R400 to R404: with operands in their domains a command that ends, ends without error
or with a transport error, and a pure command without error. -/
def Obligations.GoodOperandsRaiseNoInputError : Prop :=
  ∀ (i : Instr) (s t : State), i.inputError = none → exec i s = .next t → t.phase = .idle →
    t.rsp.err = 0 ∨ (i.isPure = false ∧ (t.rsp.err = 3 ∨ t.rsp.err = 4))

/-- 92_eei_decisions.md D34: a pure command leaves a response and changes nothing else: no request, no
peer register, no answer used. -/
def Obligations.PureCommandsOnlyRespond : Prop :=
  ∀ (i : Instr) (s : State), i.isPure = true → ∃ f, exec i s = .next (answered s f)

/-- 10_state.md R31: no command changes the frame, the host's actions or the parameter; while it is not
left waiting, it leaves no request unanswered. -/
def Obligations.CommandFrame : Prop :=
  ∀ (i : Instr) (s t : State), exec i s = .next t →
    t.cmd = s.cmd ∧ t.host = s.host ∧ t.hasTemperature = s.hasTemperature ∧
    (t.phase = .idle ∧ t.inFlight = s.inFlight ∧ t.rspValid = true ∨
     t.phase = .busy ∧ t.rsp = s.rsp ∧ t.rspValid = s.rspValid ∧ ∃ r, t.inFlight = some r)

/-- 20_memory.md R66, R70, R77: every peer register outside the range that the command writes is
unchanged; a command that writes no range changes none. -/
def Obligations.RegistersOutsideTheWrittenRangeStay : Prop :=
  ∀ (i : Instr) (s t : State), exec i s = .next t →
    ∀ a, i.writesAt a = false → t.regs.byteAt a = s.regs.byteAt a

/-- 10_state.md R32: the result of a command, and what it does to the peer, depend only on the command
and on the answers of the transport and the peer. -/
def Obligations.ResultsDependOnlyOnCommandAndAnswers : Prop :=
  ∀ (i : Instr) (s s' t t' : State), s'.answers = s.answers → s'.drawn = s.drawn →
    s'.regs = s.regs → exec i s = .next t → exec i s' = .next t' →
    t'.phase = t.phase ∧ t'.regs = t.regs ∧ t'.answers = t.answers ∧
    (t.phase = .idle → t'.rsp = t.rsp)

/-- 20_memory.md R66, R71: a command issues its bursts in order and nothing else; a command that ends
without error has issued all of them. -/
def Obligations.CommandsIssueTheirBurstsInOrder : Prop :=
  ∀ (i : Instr) (s t : State), exec i s = .next t →
    ∃ rs, t.requests = s.requests ++ rs ∧ rs.map Request.shape <+: i.bursts ∧
      (t.phase = .idle → t.rsp.err = 0 → rs.map Request.shape = i.bursts)

/-- 60_exceptions.md R404, R408: when the first read of a command answers `fail`, the command ends with
TransportFailure, has issued that read only, and has changed no peer register. -/
def Obligations.FailedReadRaisesTransportFailure : Prop :=
  ∀ (i : Instr) (s : State) (b : Burst), i.inputError = none →
    i.bursts.head? = some (Request.shape (.read b)) → nextAnswer s = .fail →
    exec i s = .next (rejected (requested s (.read b)) 4)

/-- 60_exceptions.md R403 (b), 20_memory.md R63: when the first read of a command delivers another count
than the one requested, the command ends with MalformedRegisterData, has issued that read only, and
has changed no peer register. -/
def Obligations.WrongCountRaisesMalformedRegisterData : Prop :=
  ∀ (i : Instr) (s : State) (b : Burst) (ds : List Byte), i.inputError = none →
    i.bursts.head? = some (Request.shape (.read b)) → nextAnswer s = .ok ds →
    ds.length ≠ b.count →
    exec i s = .next (rejected (requested s (.read b)) 3)

/-- 10_state.md R47 (a), 20_memory.md R71: a request that the transport does not answer leaves the block
Busy with it: the first read of a command; the write of a read-modify-write, with the byte made from
the byte that its read gave; the write of a SET command, with its bytes. (An unanswered request is a
`silent` answer in the model, log entry 4; the byte read is what the register returns, log entry 5.) -/
def Obligations.UnansweredRequestLeavesTheBlockWaiting : Prop :=
  ∀ (i : Instr) (s : State), i.inputError = none →
    (∀ b, i.bursts.head? = some (Request.shape (.read b)) →
      (nextAnswer s = .silent → exec i s = .next (waitingFor s (.read b))) ∧
      (i.bursts.map Prod.fst = [false, true] → ∀ d, nextAnswer s = .ok [d] →
        nextAnswer (requested s (.read b)) = .silent →
        exec i s = .next (waitingFor (requested s (.read b))
          (.write b [i.rewritten (peerByte s.regs b.base d)])))) ∧
    ∀ r, i.setRequest = some r → nextAnswer s = .silent → exec i s = .next (waitingFor s r)

/-- 20_memory.md R77: after a failed write, of a SET command or of a read-modify-write, every register of
the range reads as its draw, whatever was there; the response is TransportFailure. -/
def Obligations.FailedWriteBecomesDraws : Prop :=
  (∀ (i : Instr) (s t : State), i.inputError = none → i.bursts.map Prod.fst = [true] →
    nextAnswer s = .fail → exec i s = .next t →
    t.rsp = { err := 4 } ∧ ∀ a, i.writesAt a = true → ∀ d, peerByte t.regs a d = d) ∧
  (∀ (i : Instr) (s t : State) (b : Burst) (x : Byte), i.inputError = none →
    i.bursts.map Prod.fst = [false, true] → i.bursts.head? = some (Request.shape (.read b)) →
    nextAnswer s = .ok [x] → nextAnswer (requested s (.read b)) = .fail → exec i s = .next t →
    t.rsp = { err := 4 } ∧ ∀ a, i.writesAt a = true → ∀ d, peerByte t.regs a d = d)

/-- 10_state.md R43: what a read of each register returns, `d` being its draw: the draw for a volatile
register; for a stable one the byte last written, if any, else the draw; for control the last written
bits [4:0] under drawn bits [7:5]. -/
def Obligations.ReadsFollowTheVolatilityClass : Prop :=
  ∀ (m : Memory) (a : Nat) (b d : Byte),
    ((a ≤ 0x06 ∨ a = 0x0F ∨ a = 0x11 ∨ a = 0x12) → peerByte m a d = d) ∧
    (0x07 ≤ a → a ≤ 0x0D → peerByte (m.put a b) a d = b) ∧
    (peerByte (m.put 0x0E b) 0x0E d).toNat = d.toNat / 32 * 32 + b.toNat % 32 ∧
    (m.byteAt a = none → peerByte m a d = d) ∧
    peerByte (m.forget a 1) a d = d

/-- 70_reset_and_hazards.md R457, 60_exceptions.md R419: no command blind-writes the status or the
control register. A write of either is the second of two requests, after a read of the same register
that delivered one byte `d`; a status write leaves bits [7:2] as read, so OSF stays, and sets no flag;
a control write leaves bits [7:5] as read (the byte read is the byte delivered, log entry 5). -/
def Obligations.StatusAndControlAreReadBeforeWritten : Prop :=
  ∀ (i : Instr) (s t : State) (rs : List Request) (b : Burst) (bytes : List Byte),
    exec i s = .next t → t.requests = s.requests ++ rs → .write b bytes ∈ rs →
    (b = .status ∨ b = .control) →
    ∃ w d : Byte, rs = [.read b, .write b [w]] ∧ bytes = [w] ∧ nextAnswer s = .ok [d] ∧
      (b = .status → w &&& 0xFC = d &&& 0xFC ∧ w &&& d = w) ∧
      (b = .control → w &&& 0xE0 = d &&& 0xE0)

/-! ## BCD (40_bcd.md) -/

/-- 40_bcd.md R202, R200. -/
def Obligations.BcdPackResult : Prop :=
  (∀ h (f : CmdFrame), f.op = 0x01 → decode h f = .ok (.bcdPack f.p1)) ∧
  ∀ (v : Byte) (s : State),
    (v.toNat ≤ 99 → exec (.bcdPack v) s = .next (answered s { q1 := packed v.toNat })) ∧
    (99 < v.toNat → exec (.bcdPack v) s = .next (rejected s 1))

/-- 40_bcd.md R203, R201. -/
def Obligations.BcdUnpackResult : Prop :=
  (∀ h (f : CmdFrame), f.op = 0x02 → decode h f = .ok (.bcdUnpack f.p1)) ∧
  ∀ (b : Byte) (s : State),
    exec (.bcdUnpack b) s =
      .next (answered s { q1 := BitVec.ofNat 8 (b.toNat / 16 * 10 + b.toNat % 16) }) ∧
    b.toNat / 16 * 10 + b.toNat % 16 ≤ 165

/-- 40_bcd.md R204: unpacking what was packed gives the value back; packing what was unpacked gives the
byte back exactly when both nibbles are at most 9. -/
def Obligations.BcdRoundTrip : Prop :=
  (∀ (v : Byte) (s t : State), v.toNat ≤ 99 → exec (.bcdPack v) s = .next t →
    exec (.bcdUnpack t.rsp.q1) t = .next (answered t { q1 := v })) ∧
  ∀ (b : Byte) (s t : State), exec (.bcdUnpack b) s = .next t →
    (exec (.bcdPack t.rsp.q1) t = .next (answered t { q1 := b }) ↔
      b.toNat / 16 ≤ 9 ∧ b.toNat % 16 ≤ 9)

/-! ## Hours (41_hour.md) -/

/-- 41_hour.md R214, R210. -/
def Obligations.HourEncodeResult : Prop :=
  (∀ h (f : CmdFrame), f.op = 0x10 → decode h f = .ok (.hourEnc f.p1 f.p2)) ∧
  ∀ (mode hour : Byte) (s : State),
    (mode.toNat ≤ 1 → hour.toNat ≤ 23 →
      exec (.hourEnc mode hour) s =
        .next (answered s { q1 := hourByte (mode.toNat = 1) hour.toNat })) ∧
    (1 < mode.toNat ∨ 23 < hour.toNat → exec (.hourEnc mode hour) s = .next (rejected s 1))

/-- 41_hour.md R215, R211. -/
def Obligations.HourDecodeResult : Prop :=
  (∀ h (f : CmdFrame), f.op = 0x11 → decode h f = .ok (.hourDec f.p1)) ∧
  ∀ (b : Byte) (s : State),
    exec (.hourDec b) s =
      .next (answered s { q1 := flagByte (inTwelveHourForm b), q2 := BitVec.ofNat 8 (shownHour b),
                          q3 := flagByte (afterNoon b) })

/-- 41_hour.md R216, R217, R212, R213. -/
def Obligations.HourDisplayAndTo24Result : Prop :=
  (∀ h (f : CmdFrame), f.op = 0x12 → decode h f = .ok (.hourDisp f.p1 f.p2)) ∧
  (∀ h (f : CmdFrame), f.op = 0x13 → decode h f = .ok (.hourTo24 f.p1 f.p2)) ∧
  (∀ (mode hour : Byte) (s : State),
    (mode.toNat ≤ 1 → hour.toNat ≤ 23 →
      exec (.hourDisp mode hour) s =
        .next (answered s
          { q1 := if mode.toNat = 1 then BitVec.ofNat 8 (hour12 hour.toNat) else hour,
            q2 := flagByte (hour.toNat ≥ 12) })) ∧
    (1 < mode.toNat ∨ 23 < hour.toNat → exec (.hourDisp mode hour) s = .next (rejected s 1))) ∧
  ∀ (hour pm : Byte) (s : State),
    (1 ≤ hour.toNat → hour.toNat ≤ 12 → pm.toNat ≤ 1 →
      exec (.hourTo24 hour pm) s =
        .next (answered s { q1 := BitVec.ofNat 8 (hour24Of hour.toNat (pm.toNat = 1)) })) ∧
    (hour.toNat < 1 ∨ 12 < hour.toNat ∨ 1 < pm.toNat →
      exec (.hourTo24 hour pm) s = .next (rejected s 1))

/-- 41_hour.md R218: decoding an encoded hour gives the mode, the display hour and isPM, in both modes;
in 12-hour form HOUR.TO24 of the last two gives the hour back. -/
def Obligations.HourRoundTrip : Prop :=
  ∀ (mode hour : Byte) (s t u v : State), mode.toNat ≤ 1 → hour.toNat ≤ 23 →
    exec (.hourEnc mode hour) s = .next t → exec (.hourDec t.rsp.q1) t = .next u →
    exec (.hourDisp mode hour) u = .next v →
    u.rsp = { q1 := mode, q2 := v.rsp.q1, q3 := v.rsp.q2 } ∧
    (mode = 1 → exec (.hourTo24 u.rsp.q2 u.rsp.q3) u = .next (answered u { q1 := hour }))

/-- 41_hour.md R219: bit 7 of an hour byte carries no hour information. -/
def Obligations.HourBitSevenIsIgnored : Prop :=
  ∀ (b : Byte) (s : State), exec (.hourDec b) s = exec (.hourDec (b ^^^ 0x80)) s

/-! ## Clock (42_clock.md) -/

/-- 42_clock.md R232, R230. -/
def Obligations.ClockBuildResult : Prop :=
  (∀ h (f : CmdFrame), f.op = 0x20 → decode h f = .ok (.clkBuild f.timeBlock f.p8)) ∧
  ∀ (t : TimeBlock) (mode : Byte) (s : State),
    (t.inDomain = true → mode.toNat ≤ 1 →
      exec (.clkBuild t mode) s =
        .next (answered s
          { q1 := packed t.sec.toNat, q2 := packed t.min.toNat,
            q3 := hourByte (mode.toNat = 1) t.hour.toNat, q4 := packed t.dow.toNat,
            q5 := packed t.date.toNat, q6 := packed t.month.toNat, q7 := packed t.year.toNat })) ∧
    (t.inDomain = false ∨ 1 < mode.toNat →
      exec (.clkBuild t mode) s = .next (rejected s 1))

/-- 42_clock.md R233, R231. -/
def Obligations.ClockParseResult : Prop :=
  (∀ h (f : CmdFrame), f.op = 0x21 →
    decode h f = .ok (.clkParse f.p1 f.p2 f.p3 f.p4 f.p5 f.p6 f.p7 f.p8)) ∧
  ∀ (c b0 b1 b2 b3 b4 b5 b6 : Byte) (s : State),
    (c = 7 → exec (.clkParse c b0 b1 b2 b3 b4 b5 b6) s =
      .next (answered s (clockReport b0 b1 b2 b3 b4 b5 b6))) ∧
    (c ≠ 7 → exec (.clkParse c b0 b1 b2 b3 b4 b5 b6) s = .next (rejected s 3))

/-- 42_clock.md R234: the checks, then one seven-byte burst at 0x00, whose answer ends the command. (That
the model lists the bytes at volatile registers too is log entry 7; a burst without an answer stands in
UnansweredRequestLeavesTheBlockWaiting.) -/
def Obligations.ClockSetResult : Prop :=
  (∀ h (f : CmdFrame), f.op = 0x22 → decode h f = .ok (.clkSet f.timeBlock f.p8)) ∧
  ∀ (t : TimeBlock) (mode : Byte) (s : State),
    (t.inDomain = false ∨ 1 < mode.toNat → exec (.clkSet t mode) s = .next (rejected s 1)) ∧
    (t.inDomain = true → mode.toNat ≤ 1 →
      let r := Request.write .clock (clockImage t (mode.toNat = 1))
      (∀ ds, nextAnswer s = .ok ds →
        exec (.clkSet t mode) s =
          .next (answered { requested s r with
            regs := s.regs.putBytes 0x00 (clockImage t (mode.toNat = 1)) } {})) ∧
      (nextAnswer s = .fail →
        exec (.clkSet t mode) s =
          .next (rejected { requested s r with regs := s.regs.forget 0x00 7 } 4)))

/-- 42_clock.md R235: one seven-byte burst at 0x00; all seven bytes are draws. -/
def Obligations.ClockReadResult : Prop :=
  (∀ h (f : CmdFrame), f.op = 0x23 → decode h f = .ok .clkRead) ∧
  ∀ (s : State),
    (∀ b0 b1 b2 b3 b4 b5 b6, nextAnswer s = .ok [b0, b1, b2, b3, b4, b5, b6] →
      exec .clkRead s =
        .next (answered (requested s (.read .clock)) (clockReport b0 b1 b2 b3 b4 b5 b6))) ∧
    (∀ ds, nextAnswer s = .ok ds → ds.length ≠ 7 →
      exec .clkRead s = .next (rejected (requested s (.read .clock)) 3)) ∧
    (nextAnswer s = .fail → exec .clkRead s = .next (rejected (requested s (.read .clock)) 4))

/-- 42_clock.md R236: parsing what was built from a valid time gives the time and the mode back. -/
def Obligations.ClockRoundTrip : Prop :=
  ∀ (t : TimeBlock) (mode : Byte) (s u v : State), t.inDomain = true → mode.toNat ≤ 1 →
    exec (.clkBuild t mode) s = .next u →
    exec (.clkParse 7 u.rsp.q1 u.rsp.q2 u.rsp.q3 u.rsp.q4 u.rsp.q5 u.rsp.q6 u.rsp.q7) u = .next v →
    v.rsp.err = 0 ∧ v.rsp.q1 = t.sec ∧ v.rsp.q2 = t.min ∧ v.rsp.q3 = t.hour ∧ v.rsp.q4 = t.dow ∧
    v.rsp.q5 = t.date ∧ v.rsp.q6 = t.month ∧ v.rsp.q7 = t.year ∧ v.rsp.q8 = mode

/-! ## Alarms (43_alarm.md) -/

/-- 43_alarm.md R260, R252: an operand block in its domains (R407 decides which error comes first). -/
def Obligations.Alarm1EncodeResult : Prop :=
  (∀ h (f : CmdFrame), f.op = 0x30 → decode h f = .ok (.a1Enc f.p1 f.p2 f.p3 f.p4 f.p5)) ∧
  ∀ (v sec min hour dd : Byte) (s : State),
    (v.toNat ≤ 2 → sec.toNat ≤ 59 → min.toNat ≤ 59 → hour.toNat ≤ 23 →
      alarmDayInDomain v dd = true →
      exec (.a1Enc v sec min hour dd) s =
        .next (answered s { q1 := packed sec.toNat, q2 := packed min.toNat,
                            q3 := packed hour.toNat, q4 := alarmDayByte v dd })) ∧
    (2 < v.toNat ∨ 59 < sec.toNat ∨ 59 < min.toNat ∨ 23 < hour.toNat ∨
        alarmDayInDomain v dd = false →
      exec (.a1Enc v sec min hour dd) s = .next (rejected s 1))

/-- 43_alarm.md R261, R253: TimeOnly is refused before the field checks; P2 is not an operand. -/
def Obligations.Alarm2EncodeResult : Prop :=
  (∀ h (f : CmdFrame), f.op = 0x31 → decode h f = .ok (.a2Enc f.p1 f.p3 f.p4 f.p5)) ∧
  ∀ (v min hour dd : Byte) (s : State),
    (v = 0 → exec (.a2Enc v min hour dd) s = .next (rejected s 2)) ∧
    (1 ≤ v.toNat → v.toNat ≤ 2 → min.toNat ≤ 59 → hour.toNat ≤ 23 →
      alarmDayInDomain v dd = true →
      exec (.a2Enc v min hour dd) s =
        .next (answered s { q1 := packed min.toNat, q2 := packed hour.toNat,
                            q3 := alarmDayByte v dd })) ∧
    (v ≠ 0 → 2 < v.toNat ∨ 59 < min.toNat ∨ 23 < hour.toNat ∨ alarmDayInDomain v dd = false →
      exec (.a2Enc v min hour dd) s = .next (rejected s 1))

/-- 43_alarm.md R262, R263, R254 to R256: decoding the bytes of either alarm. -/
def Obligations.AlarmDecodeResult : Prop :=
  (∀ h (f : CmdFrame), f.op = 0x32 → decode h f = .ok (.a1Dec f.p1 f.p2 f.p3 f.p4 f.p5)) ∧
  (∀ h (f : CmdFrame), f.op = 0x33 → decode h f = .ok (.a2Dec f.p1 f.p2 f.p3 f.p4)) ∧
  ∀ (c b0 b1 b2 b3 : Byte) (s : State),
    (c = 4 → exec (.a1Dec c b0 b1 b2 b3) s = .next (answered s (alarm1Report b0 b1 b2 b3))) ∧
    (c ≠ 4 → exec (.a1Dec c b0 b1 b2 b3) s = .next (rejected s 3)) ∧
    (c = 3 → exec (.a2Dec c b0 b1 b2) s = .next (answered s (alarm2Report b0 b1 b2))) ∧
    (c ≠ 3 → exec (.a2Dec c b0 b1 b2) s = .next (rejected s 3))

/-- 43_alarm.md R264, R257: the minutes carry into the hour; an offset above 59 and a carry out of hour
23 are refused. -/
def Obligations.AlarmOffsetResult : Prop :=
  (∀ h (f : CmdFrame), f.op = 0x34 → decode h f = .ok (.aOffset f.timeBlock f.p8)) ∧
  ∀ (t : TimeBlock) (off : Byte) (s : State),
    (t.inDomain = true → off.toNat ≤ 59 → t.min.toNat + off.toNat < 60 →
      exec (.aOffset t off) s =
        .next (answered s { q1 := 2, q2 := t.sec,
                            q3 := BitVec.ofNat 8 (t.min.toNat + off.toNat), q4 := t.hour,
                            q5 := t.dow })) ∧
    (t.inDomain = true → off.toNat ≤ 59 → 60 ≤ t.min.toNat + off.toNat → t.hour.toNat < 23 →
      exec (.aOffset t off) s =
        .next (answered s { q1 := 2, q2 := t.sec,
                            q3 := BitVec.ofNat 8 (t.min.toNat + off.toNat - 60),
                            q4 := BitVec.ofNat 8 (t.hour.toNat + 1), q5 := t.dow })) ∧
    (t.inDomain = false ∨ 59 < off.toNat ∨
        (t.hour.toNat = 23 ∧ 60 ≤ t.min.toNat + off.toNat) →
      exec (.aOffset t off) s = .next (rejected s 1))

/-- 43_alarm.md R265: the checks, then one four-byte burst at 0x07; nothing else is written. -/
def Obligations.Alarm1SetResult : Prop :=
  (∀ h (f : CmdFrame), f.op = 0x35 → decode h f = .ok (.a1Set f.p1 f.p2 f.p3 f.p4 f.p5)) ∧
  ∀ (v sec min hour dd : Byte) (s : State),
    (2 < v.toNat ∨ 59 < sec.toNat ∨ 59 < min.toNat ∨ 23 < hour.toNat ∨
        alarmDayInDomain v dd = false →
      exec (.a1Set v sec min hour dd) s = .next (rejected s 1)) ∧
    (v.toNat ≤ 2 → sec.toNat ≤ 59 → min.toNat ≤ 59 → hour.toNat ≤ 23 →
      alarmDayInDomain v dd = true →
      let r := Request.write .alarm1 (alarm1Image v sec min hour dd)
      (∀ ds, nextAnswer s = .ok ds →
        exec (.a1Set v sec min hour dd) s =
          .next (answered { requested s r with
            regs := s.regs.putBytes 0x07 (alarm1Image v sec min hour dd) } {})) ∧
      (nextAnswer s = .fail →
        exec (.a1Set v sec min hour dd) s =
          .next (rejected { requested s r with regs := s.regs.forget 0x07 4 } 4)))

/-- 43_alarm.md R267: the checks, then one three-byte burst at 0x0B; nothing else is written. -/
def Obligations.Alarm2SetResult : Prop :=
  (∀ h (f : CmdFrame), f.op = 0x37 → decode h f = .ok (.a2Set f.p1 f.p3 f.p4 f.p5)) ∧
  ∀ (v min hour dd : Byte) (s : State),
    (v = 0 → exec (.a2Set v min hour dd) s = .next (rejected s 2)) ∧
    (v ≠ 0 → 2 < v.toNat ∨ 59 < min.toNat ∨ 23 < hour.toNat ∨ alarmDayInDomain v dd = false →
      exec (.a2Set v min hour dd) s = .next (rejected s 1)) ∧
    (1 ≤ v.toNat → v.toNat ≤ 2 → min.toNat ≤ 59 → hour.toNat ≤ 23 →
      alarmDayInDomain v dd = true →
      let r := Request.write .alarm2 (alarm2Image v min hour dd)
      (∀ ds, nextAnswer s = .ok ds →
        exec (.a2Set v min hour dd) s =
          .next (answered { requested s r with
            regs := s.regs.putBytes 0x0B (alarm2Image v min hour dd) } {})) ∧
      (nextAnswer s = .fail →
        exec (.a2Set v min hour dd) s =
          .next (rejected { requested s r with regs := s.regs.forget 0x0B 3 } 4)))

/-- 43_alarm.md R266, R268: one burst, then the decoding of the bytes that the registers return
(10_state.md R43), the delivered bytes being the draws (log entry 5). -/
def Obligations.AlarmReadResult : Prop :=
  (∀ h (f : CmdFrame), f.op = 0x36 → decode h f = .ok .a1Read) ∧
  (∀ h (f : CmdFrame), f.op = 0x38 → decode h f = .ok .a2Read) ∧
  ∀ (s : State),
    (∀ d0 d1 d2 d3, nextAnswer s = .ok [d0, d1, d2, d3] →
      exec .a1Read s =
        .next (answered (requested s (.read .alarm1))
          (alarm1Report (peerByte s.regs 0x07 d0) (peerByte s.regs 0x08 d1)
            (peerByte s.regs 0x09 d2) (peerByte s.regs 0x0A d3)))) ∧
    (∀ d0 d1 d2, nextAnswer s = .ok [d0, d1, d2] →
      exec .a2Read s =
        .next (answered (requested s (.read .alarm2))
          (alarm2Report (peerByte s.regs 0x0B d0) (peerByte s.regs 0x0C d1)
            (peerByte s.regs 0x0D d2)))) ∧
    (∀ ds, nextAnswer s = .ok ds → ds.length ≠ 4 →
      exec .a1Read s = .next (rejected (requested s (.read .alarm1)) 3)) ∧
    (∀ ds, nextAnswer s = .ok ds → ds.length ≠ 3 →
      exec .a2Read s = .next (rejected (requested s (.read .alarm2)) 3)) ∧
    (nextAnswer s = .fail →
      exec .a1Read s = .next (rejected (requested s (.read .alarm1)) 4) ∧
      exec .a2Read s = .next (rejected (requested s (.read .alarm2)) 4))

/-- 43_alarm.md R269 (d), R269 (a): decoding what was encoded gives a valid alarm back; the day-or-date
of TimeOnly comes back as 0, and Alarm-2's seconds as 0. -/
def Obligations.AlarmRoundTrip : Prop :=
  ∀ (v sec min hour dd : Byte) (s t u : State),
    (exec (.a1Enc v sec min hour dd) s = .next t → t.rsp.err = 0 →
      exec (.a1Dec 4 t.rsp.q1 t.rsp.q2 t.rsp.q3 t.rsp.q4) t = .next u →
      u.rsp = { q1 := v, q2 := sec, q3 := min, q4 := hour, q5 := if v = 0 then 0 else dd }) ∧
    (exec (.a2Enc v min hour dd) s = .next t → t.rsp.err = 0 →
      exec (.a2Dec 3 t.rsp.q1 t.rsp.q2 t.rsp.q3) t = .next u →
      u.rsp = { q1 := v, q3 := min, q4 := hour, q5 := dd })

/-- 43_alarm.md R266, R268, 10_state.md R43: what the block has put into a peer register is kept by every
step that cannot write the register, by a command or by answering or abandoning a write, and is no move of
the peer on a volatile one; so, after a SET that ended without error and any steps with no write of that
alarm in between, a READ whose burst is delivered whole returns the alarm that was set, whatever bytes the
transport drew (log entry 5). -/
def Obligations.AlarmSetThenReadReturnsIt : Prop :=
  (∀ (s t : State) (a : Nat), step s = .next t → ¬ s.mayWrite a →
    t.regs.byteAt a = s.regs.byteAt a) ∧
  ∀ (v sec min hour dd : Byte) (s t u : State),
    (∀ d0 d1 d2 d3, exec (.a1Set v sec min hour dd) s = .next t → t.phase = .idle →
      t.rsp.err = 0 → Reaches (fun x => ∀ a, 0x07 ≤ a → a ≤ 0x0A → ¬ x.mayWrite a) t u →
      nextAnswer u = .ok [d0, d1, d2, d3] →
      exec .a1Read u =
        .next (answered (requested u (.read .alarm1))
          { q1 := v, q2 := sec, q3 := min, q4 := hour, q5 := if v = 0 then 0 else dd })) ∧
    (∀ d0 d1 d2, exec (.a2Set v min hour dd) s = .next t → t.phase = .idle →
      t.rsp.err = 0 → Reaches (fun x => ∀ a, 0x0B ≤ a → a ≤ 0x0D → ¬ x.mayWrite a) t u →
      nextAnswer u = .ok [d0, d1, d2] →
      exec .a2Read u =
        .next (answered (requested u (.read .alarm2))
          { q1 := v, q3 := min, q4 := hour, q5 := dd }))

/-! ## Status and control (44_status_control.md) -/

/-- 44_status_control.md R285, R286, R280, R281: the flags of a status byte, and the byte; and, bit by
bit, a flag is cleared exactly when it is selected. -/
def Obligations.StatusByteResult : Prop :=
  (∀ h (f : CmdFrame), f.op = 0x40 → decode h f = .ok (.stDec f.p1)) ∧
  (∀ h (f : CmdFrame), f.op = 0x41 → decode h f = .ok (.stClr f.p1 f.p2)) ∧
  ∀ (b sel : Byte) (s : State),
    exec (.stDec b) s = .next (answered s (statusReport b)) ∧
    (sel.toNat ≤ 3 → ∃ w : Byte,
      exec (.stClr b sel) s = .next (answered s { q1 := w }) ∧
      ∀ k < 8, w.getLsbD k = (b.getLsbD k && !(sel.getLsbD k))) ∧
    (3 < sel.toNat → exec (.stClr b sel) s = .next (rejected s 1))

/-- 44_status_control.md R287, R282, R284: the four operands packed as given. -/
def Obligations.ControlBuildResult : Prop :=
  (∀ h (f : CmdFrame), f.op = 0x42 → decode h f = .ok (.ctlBuild f.p1 f.p2 f.p3 f.p4)) ∧
  ∀ (intcn a1e a2e rate : Byte) (s : State),
    (controlInDomain intcn a1e a2e rate = true →
      exec (.ctlBuild intcn a1e a2e rate) s =
        .next (answered s { q1 := controlImage intcn a1e a2e rate })) ∧
    (controlInDomain intcn a1e a2e rate = false →
      exec (.ctlBuild intcn a1e a2e rate) s = .next (rejected s 1))

/-- 44_status_control.md R288, R289, R283, R284: the code of a rate, and the fields of a control byte. -/
def Obligations.RateCodeAndControlDecodeResult : Prop :=
  (∀ h (f : CmdFrame), f.op = 0x43 → decode h f = .ok (.sqwCode f.p1)) ∧
  (∀ h (f : CmdFrame), f.op = 0x44 → decode h f = .ok (.ctlDec f.p1)) ∧
  ∀ (x : Byte) (s : State),
    (x.toNat ≤ 3 → exec (.sqwCode x) s = .next (answered s { q1 := x })) ∧
    (3 < x.toNat → exec (.sqwCode x) s = .next (rejected s 1)) ∧
    exec (.ctlDec x) s = .next (answered s (controlReport x))

/-- 44_status_control.md R290, R294: one read, reported as ST.DEC or CTL.DEC reports a byte. The status
byte is a draw; the control byte is what its register returns (10_state.md R43), the delivered byte being
its draw (log entry 5). -/
def Obligations.StatusAndControlReadResult : Prop :=
  (∀ h (f : CmdFrame), f.op = 0x45 → decode h f = .ok .stRead) ∧
  (∀ h (f : CmdFrame), f.op = 0x49 → decode h f = .ok .ctlRead) ∧
  ∀ (s : State),
    (∀ d, nextAnswer s = .ok [d] →
      exec .stRead s = .next (answered (requested s (.read .status)) (statusReport d)) ∧
      exec .ctlRead s =
        .next (answered (requested s (.read .control))
          (controlReport (peerByte s.regs 0x0E d)))) ∧
    (∀ ds, nextAnswer s = .ok ds → ds.length ≠ 1 →
      exec .stRead s = .next (rejected (requested s (.read .status)) 3) ∧
      exec .ctlRead s = .next (rejected (requested s (.read .control)) 3)) ∧
    (nextAnswer s = .fail →
      exec .stRead s = .next (rejected (requested s (.read .status)) 4) ∧
      exec .ctlRead s = .next (rejected (requested s (.read .control)) 4))

/-- 44_status_control.md R291: with nothing selected the byte is read and no write is issued; else the
byte read is written back with exactly the selected flags cleared, and reported. (That the model lists
the byte at the volatile 0x0F is log entry 7.) -/
def Obligations.StatusClearFlagsResult : Prop :=
  (∀ h (f : CmdFrame), f.op = 0x46 → decode h f = .ok (.stClrf f.p1)) ∧
  ∀ (sel : Byte) (s : State),
    (3 < sel.toNat → exec (.stClrf sel) s = .next (rejected s 1)) ∧
    (sel.toNat ≤ 3 →
      (∀ d, sel = 0 → nextAnswer s = .ok [d] →
        exec (.stClrf sel) s = .next (answered (requested s (.read .status)) { q1 := d })) ∧
      (∀ d, sel ≠ 0 → nextAnswer s = .ok [d] →
        let s1 := requested s (.read .status)
        let w := d &&& ~~~sel
        (∀ ds, nextAnswer s1 = .ok ds →
          exec (.stClrf sel) s =
            .next (answered { requested s1 (.write .status [w]) with
              regs := s.regs.put 0x0F w } { q1 := w })) ∧
        (nextAnswer s1 = .fail →
          exec (.stClrf sel) s =
            .next (rejected { requested s1 (.write .status [w]) with
              regs := s.regs.forget 0x0F 1 } 4))) ∧
      (∀ ds, nextAnswer s = .ok ds → ds.length ≠ 1 →
        exec (.stClrf sel) s = .next (rejected (requested s (.read .status)) 3)) ∧
      (nextAnswer s = .fail →
        exec (.stClrf sel) s = .next (rejected (requested s (.read .status)) 4)))

/-- 44_status_control.md R292: bits [4:3] get the rate code, bit 2 gets 0, all other bits of the byte
read are kept; two requests. The byte read is what the register returns (log entry 5). -/
def Obligations.SquareWaveSetResult : Prop :=
  (∀ h (f : CmdFrame), f.op = 0x47 → decode h f = .ok (.sqwSet f.p1)) ∧
  ∀ (rate : Byte) (s : State),
    (3 < rate.toNat → exec (.sqwSet rate) s = .next (rejected s 1)) ∧
    (∀ d ds, rate.toNat ≤ 3 → nextAnswer s = .ok [d] →
      nextAnswer (requested s (.read .control)) = .ok ds →
      let x := (peerByte s.regs 0x0E d).toNat
      exec (.sqwSet rate) s =
        .next (controlRewritten s (BitVec.ofNat 8 (x / 32 * 32 + rate.toNat * 8 + x % 4)))) ∧
    (∀ d, rate.toNat ≤ 3 → nextAnswer s = .ok [d] →
      nextAnswer (requested s (.read .control)) = .fail →
      let x := (peerByte s.regs 0x0E d).toNat
      exec (.sqwSet rate) s =
        .next (controlWriteFailed s (BitVec.ofNat 8 (x / 32 * 32 + rate.toNat * 8 + x % 4)))) ∧
    (∀ ds, rate.toNat ≤ 3 → nextAnswer s = .ok ds → ds.length ≠ 1 →
      exec (.sqwSet rate) s = .next (rejected (requested s (.read .control)) 3)) ∧
    (rate.toNat ≤ 3 → nextAnswer s = .fail →
      exec (.sqwSet rate) s = .next (rejected (requested s (.read .control)) 4))

/-- 44_status_control.md R293: bit 2 gets 1, all other bits of the byte read are kept; two requests.
The byte read is what the register returns (log entry 5). -/
def Obligations.SquareWaveOffResult : Prop :=
  (∀ h (f : CmdFrame), f.op = 0x48 → decode h f = .ok .sqwOff) ∧
  ∀ (s : State),
    (∀ d ds, nextAnswer s = .ok [d] → nextAnswer (requested s (.read .control)) = .ok ds →
      let x := (peerByte s.regs 0x0E d).toNat
      exec .sqwOff s = .next (controlRewritten s (BitVec.ofNat 8 (x / 8 * 8 + 4 + x % 4)))) ∧
    (∀ d, nextAnswer s = .ok [d] → nextAnswer (requested s (.read .control)) = .fail →
      let x := (peerByte s.regs 0x0E d).toNat
      exec .sqwOff s = .next (controlWriteFailed s (BitVec.ofNat 8 (x / 8 * 8 + 4 + x % 4)))) ∧
    (∀ ds, nextAnswer s = .ok ds → ds.length ≠ 1 →
      exec .sqwOff s = .next (rejected (requested s (.read .control)) 3)) ∧
    (nextAnswer s = .fail → exec .sqwOff s = .next (rejected (requested s (.read .control)) 4))

/-- 44_status_control.md R295: bits [4:0] are replaced, bits [7:5] of the byte read are kept; two
requests. The bits [7:5] read are the delivered byte's (log entry 5). -/
def Obligations.ControlWriteResult : Prop :=
  (∀ h (f : CmdFrame), f.op = 0x4A → decode h f = .ok (.ctlWrite f.p1 f.p2 f.p3 f.p4)) ∧
  ∀ (intcn a1e a2e rate : Byte) (s : State),
    (controlInDomain intcn a1e a2e rate = false →
      exec (.ctlWrite intcn a1e a2e rate) s = .next (rejected s 1)) ∧
    (∀ d ds, controlInDomain intcn a1e a2e rate = true → nextAnswer s = .ok [d] →
      nextAnswer (requested s (.read .control)) = .ok ds →
      exec (.ctlWrite intcn a1e a2e rate) s =
        .next (controlRewritten s
          (BitVec.ofNat 8 (d.toNat / 32 * 32 + (controlImage intcn a1e a2e rate).toNat)))) ∧
    (∀ d, controlInDomain intcn a1e a2e rate = true → nextAnswer s = .ok [d] →
      nextAnswer (requested s (.read .control)) = .fail →
      exec (.ctlWrite intcn a1e a2e rate) s =
        .next (controlWriteFailed s
          (BitVec.ofNat 8 (d.toNat / 32 * 32 + (controlImage intcn a1e a2e rate).toNat)))) ∧
    (∀ ds, controlInDomain intcn a1e a2e rate = true → nextAnswer s = .ok ds → ds.length ≠ 1 →
      exec (.ctlWrite intcn a1e a2e rate) s =
        .next (rejected (requested s (.read .control)) 3)) ∧
    (controlInDomain intcn a1e a2e rate = true → nextAnswer s = .fail →
      exec (.ctlWrite intcn a1e a2e rate) s =
        .next (rejected (requested s (.read .control)) 4))

/-- 44_status_control.md R294, 10_state.md R43: after a CTL.WRITE that ended without error and any steps
with no write of the control register in between, a CTL.READ whose byte is delivered reports the four
fields that were written, whatever byte was drawn; bits [7:5] of the raw byte are drawn (log entry 5). -/
def Obligations.ControlWriteThenReadReturnsIt : Prop :=
  ∀ (intcn a1e a2e rate d : Byte) (s t u : State),
    exec (.ctlWrite intcn a1e a2e rate) s = .next t → t.phase = .idle → t.rsp.err = 0 →
    Reaches (fun x => ¬ x.mayWrite 0x0E) t u → nextAnswer u = .ok [d] →
    exec .ctlRead u =
      .next (answered (requested u (.read .control))
        { q1 := intcn, q2 := a1e, q3 := a2e, q4 := rate,
          q5 := BitVec.ofNat 8 (d.toNat / 32 * 32 + (controlImage intcn a1e a2e rate).toNat) })

/-! ## Temperature (45_temperature.md) -/

/-- 45_temperature.md R311, R310: signed degrees times four plus the two fraction bits, as a 16-bit
two's-complement number, its high byte first. -/
def Obligations.TemperatureDecodeResult : Prop :=
  (∀ (f : CmdFrame), f.op = 0x50 → decode true f = .ok (.tDec f.p1 f.p2)) ∧
  (∀ (f : CmdFrame), f.op = 0x50 → decode false f = .error (.illegalOpcode 0x50)) ∧
  ∀ (msb lsb : Byte) (s : State),
    exec (.tDec msb lsb) s = .next (answered s (temperatureReport msb lsb)) ∧
    ((temperatureReport msb lsb).q1 ++ (temperatureReport msb lsb).q2).toInt =
      msb.toInt * 4 + (lsb.toNat / 64 : Nat)

/-- 45_temperature.md R312: one two-byte burst at 0x11; both bytes are draws. -/
def Obligations.TemperatureReadResult : Prop :=
  (∀ (f : CmdFrame), f.op = 0x51 → decode true f = .ok .tRead) ∧
  (∀ (f : CmdFrame), f.op = 0x51 → decode false f = .error (.illegalOpcode 0x51)) ∧
  ∀ (s : State),
    (∀ msb lsb, nextAnswer s = .ok [msb, lsb] →
      exec .tRead s =
        .next (answered (requested s (.read .temperature)) (temperatureReport msb lsb))) ∧
    (∀ ds, nextAnswer s = .ok ds → ds.length ≠ 2 →
      exec .tRead s = .next (rejected (requested s (.read .temperature)) 3)) ∧
    (nextAnswer s = .fail → exec .tRead s = .next (rejected (requested s (.read .temperature)) 4))
end

