-- ==== Sys2Proof/Laws/Memory.lean ====
section
/-! SUPPORT. The laws of the peer's registers: a read after a write, everything else unchanged, and the
canonical form kept by every operation. -/

namespace Sys2Proof.Machine

@[simp] theorem byteAt_nil (a : Nat) : Memory.byteAt [] a = none := rfl

theorem byteAt_cons (c : Host.Cell) (m : Memory) (a : Nat) :
    Memory.byteAt (c :: m) a = if c.1 = a then some c.2 else Memory.byteAt m a := rfl

/-- A read after a write to the same register gives the byte written. -/
@[simp] theorem byteAt_put_self (m : Memory) (a : Nat) (b : Byte) :
    (Memory.put m a b).byteAt a = some b := by
  induction m with
  | nil => simp [Memory.put, byteAt_cons]
  | cons c rest ih =>
    unfold Memory.put
    split
    · simp [byteAt_cons]
    · split
      · simp [byteAt_cons]
      · rename_i h1 h2
        rw [byteAt_cons, if_neg (fun h => h2 h.symm), ih]

/-- A write leaves every other register alone. -/
theorem byteAt_put_ne (m : Memory) {a x : Nat} (b : Byte) (h : x ≠ a) :
    (Memory.put m a b).byteAt x = Memory.byteAt m x := by
  induction m with
  | nil => simp [Memory.put, byteAt_cons, Ne.symm h]
  | cons c rest ih =>
    unfold Memory.put
    split
    · simp [byteAt_cons, Ne.symm h]
    · split
      · rename_i h1 h2
        simp [byteAt_cons, ← h2, Ne.symm h]
      · simp [byteAt_cons, ih]

/-- A burst leaves every register outside its range alone. -/
theorem byteAt_putBytes_outside (bs : List Byte) :
    ∀ (m : Memory) {a x : Nat}, x < a ∨ a + bs.length ≤ x →
      (Memory.putBytes m a bs).byteAt x = Memory.byteAt m x := by
  induction bs with
  | nil => intros; rfl
  | cons b bs ih =>
    intro m a x h
    simp only [List.length_cons] at h
    rw [Memory.putBytes, ih (m.put a b) (by omega), byteAt_put_ne m b (by omega)]

/-- After a burst, register a + i holds byte i of it. -/
theorem byteAt_putBytes_inside (bs : List Byte) :
    ∀ (m : Memory) (a i : Nat), i < bs.length →
      (Memory.putBytes m a bs).byteAt (a + i) = some (bs.getD i 0) := by
  induction bs with
  | nil => intro m a i h; simp at h
  | cons b bs ih =>
    intro m a i h
    rw [Memory.putBytes]
    cases i with
    | zero => rw [byteAt_putBytes_outside bs _ (by omega)]; simp
    | succ i =>
      rw [show a + (i + 1) = a + 1 + i by omega, ih (m.put a b) (a + 1) i (by simpa using h)]
      simp

/-- A forgotten register is a draw. -/
theorem byteAt_forget_inside (m : Memory) {a n x : Nat} (h : a ≤ x ∧ x < a + n) :
    (Memory.forget m a n).byteAt x = none := by
  induction m with
  | nil => rfl
  | cons c rest ih =>
    unfold Memory.forget at ih ⊢
    rw [List.filter_cons]
    split
    · rename_i hc
      rw [byteAt_cons, if_neg, ih]
      rintro rfl
      simp at hc
      omega
    · exact ih

/-- Forgetting a range leaves every register outside it alone. -/
theorem byteAt_forget_outside (m : Memory) {a n x : Nat} (h : x < a ∨ a + n ≤ x) :
    (Memory.forget m a n).byteAt x = Memory.byteAt m x := by
  induction m with
  | nil => rfl
  | cons c rest ih =>
    unfold Memory.forget at ih ⊢
    rw [List.filter_cons]
    split
    · rw [byteAt_cons, byteAt_cons, ih]
    · rename_i hc
      rw [byteAt_cons, if_neg, ih]
      rintro rfl
      simp at hc
      omega

/-- Dropping the entries of other registers leaves a register alone. -/
theorem byteAt_filter (m : Memory) {a : Nat} (p : Host.Cell → Bool) (h : ∀ c, c.1 = a → p c = true) :
    Memory.byteAt (m.filter p) a = Memory.byteAt m a := by
  induction m with
  | nil => rfl
  | cons c rest ih =>
    rw [List.filter_cons]
    split
    · rw [byteAt_cons, byteAt_cons, ih]
    · rename_i hp
      rw [byteAt_cons, if_neg fun e => hp (h c e), ih]

/-! ## The canonical form -/

theorem wf_nil : Memory.wf [] := by simp [Memory.wf]

theorem mem_put {m : Memory} {a : Nat} {b : Byte} {c : Host.Cell}
    (h : c ∈ Memory.put m a b) : c = (a, b) ∨ c ∈ m := by
  induction m with
  | nil => simpa [Memory.put] using h
  | cons d rest ih =>
    unfold Memory.put at h
    split at h
    · simpa using h
    · split at h
      · rcases List.mem_cons.1 h with h | h
        · exact .inl h
        · exact .inr (List.mem_cons_of_mem _ h)
      · rcases List.mem_cons.1 h with h | h
        · exact .inr (by simp [h])
        · exact (ih h).imp_right (List.mem_cons_of_mem _)

/-- Writing a register that the block may write keeps the canonical form. -/
theorem wf_put {m : Memory} (h : m.wf) {a : Nat} (ha : writable a = true) (b : Byte) :
    (Memory.put m a b).wf := by
  refine ⟨?_, fun c hc => (mem_put hc).elim (fun e => by rw [e]; exact ha) (h.2 c)⟩
  induction m with
  | nil => simp [Memory.put]
  | cons d rest ih =>
    have hp := List.pairwise_cons.1 h.1
    have hr : Memory.wf rest := ⟨hp.2, fun c hc => h.2 c (List.mem_cons_of_mem _ hc)⟩
    unfold Memory.put
    split
    · rename_i h1
      refine List.pairwise_cons.2 ⟨fun c hc => ?_, h.1⟩
      rcases List.mem_cons.1 hc with rfl | hc
      · exact h1
      · exact Nat.lt_trans h1 (hp.1 c hc)
    · split
      · rename_i h1 h2
        exact List.pairwise_cons.2 ⟨fun c hc => by simpa [h2] using hp.1 c hc, hp.2⟩
      · rename_i h1 h2
        refine List.pairwise_cons.2 ⟨fun c hc => ?_, ih hr⟩
        rcases mem_put hc with rfl | hc
        · simp only; omega
        · exact hp.1 c hc

/-- A burst within the registers that the block may write keeps the canonical form. -/
theorem wf_putBytes (bs : List Byte) :
    ∀ {m : Memory} {a : Nat}, m.wf → a + bs.length ≤ 0x10 → (Memory.putBytes m a bs).wf := by
  induction bs with
  | nil => intro m a h _; exact h
  | cons b bs ih =>
    intro m a h hl
    simp only [List.length_cons] at hl
    exact ih (wf_put h (by simp [writable]; omega) b) (by omega)

/-- Forgetting keeps the canonical form. -/
theorem wf_forget {m : Memory} (h : m.wf) (a n : Nat) : (Memory.forget m a n).wf :=
  ⟨h.1.filter _, fun c hc => h.2 c (List.mem_filter.1 hc).1⟩

/-- The peer's move keeps the canonical form. -/
theorem wf_peerMoves {s : State} (h : s.regs.wf) : (peerMoves s).regs.wf :=
  ⟨h.1.filter _, fun c hc => h.2 c (List.mem_filter.1 hc).1⟩

/-- A reset keeps the canonical form. -/
theorem wf_regsAfterReset {m : Memory} (h : m.wf) (r : Option Request) :
    (regsAfterReset r m).wf := by
  cases r with
  | none => exact h
  | some r =>
    cases r with
    | read b => exact h
    | write b bytes => exact wf_forget h _ _

/-! ## Reads -/

@[simp] theorem peerBytes_length (ds : List Byte) :
    ∀ (m : Memory) (a : Nat), (peerBytes m a ds).length = ds.length := by
  induction ds with
  | nil => intros; rfl
  | cons d ds ih => intro m a; simp [peerBytes, ih]

/-- A volatile register reads as its draw (10_state.md R43). -/
theorem peerByte_volatile {a : Nat} (h : classOf a = .volatile) (m : Memory) (d : Byte) :
    peerByte m a d = d := by
  simp [peerByte, h]

/-- A register of which nothing is known reads as its draw (10_state.md R43). -/
theorem peerByte_unknown {m : Memory} {a : Nat} (h : m.byteAt a = none) (d : Byte) :
    peerByte m a d = d := by
  unfold peerByte
  rw [h]
  cases classOf a <;> rfl

/-- A stable register reads as the byte last written (10_state.md R43). -/
theorem peerByte_stable {m : Memory} {a : Nat} {b : Byte} (hc : classOf a = .stable)
    (h : m.byteAt a = some b) (d : Byte) : peerByte m a d = b := by
  simp [peerByte, hc, h]

/-- The control register reads as the last written bits [4:0] with drawn bits [7:5]
(10_state.md R43). -/
theorem peerByte_mixed {m : Memory} {a : Nat} {b : Byte} (hc : classOf a = .mixed)
    (h : m.byteAt a = some b) (d : Byte) : peerByte m a d = (b &&& 0x1F) ||| (d &&& 0xE0) := by
  simp [peerByte, hc, h]

/-- A burst of volatile registers reads as its draws. -/
theorem peerBytes_volatile (ds : List Byte) :
    ∀ (m : Memory) (a : Nat), (∀ i < ds.length, classOf (a + i) = .volatile) →
      peerBytes m a ds = ds := by
  induction ds with
  | nil => intros; rfl
  | cons d ds ih =>
    intro m a h
    have h0 := h 0 (by simp)
    rw [peerBytes, peerByte_volatile (by simpa using h0),
      ih m (a + 1) fun i hi => by
        have := h (i + 1) (by simpa using hi)
        rwa [show a + (i + 1) = a + 1 + i by omega] at this]

end Sys2Proof.Machine
end

