-- ==== Sys2Proof/Laws/State.lean ====
section
/-! SUPPORT. What each named update of the state does to each field. -/

namespace Sys2Proof.Machine

@[simp] theorem issue_phase (r : Request) (s : State) : (issue r s).phase = s.phase := rfl
@[simp] theorem issue_cmd (r : Request) (s : State) : (issue r s).cmd = s.cmd := rfl
@[simp] theorem issue_rsp (r : Request) (s : State) : (issue r s).rsp = s.rsp := rfl
@[simp] theorem issue_rspValid (r : Request) (s : State) : (issue r s).rspValid = s.rspValid := rfl
@[simp] theorem issue_inFlight (r : Request) (s : State) : (issue r s).inFlight = s.inFlight := rfl
@[simp] theorem issue_regs (r : Request) (s : State) : (issue r s).regs = s.regs := rfl
@[simp] theorem issue_hasTemperature (r : Request) (s : State) :
    (issue r s).hasTemperature = s.hasTemperature := rfl
@[simp] theorem issue_host (r : Request) (s : State) : (issue r s).host = s.host := rfl
@[simp] theorem issue_answers (r : Request) (s : State) : (issue r s).answers = s.answers := rfl
@[simp] theorem issue_drawn (r : Request) (s : State) : (issue r s).drawn = s.drawn := rfl
@[simp] theorem issue_requests (r : Request) (s : State) :
    (issue r s).requests = s.requests ++ [r] := rfl

@[simp] theorem hear_phase (s : State) : (hear s).phase = s.phase := rfl
@[simp] theorem hear_cmd (s : State) : (hear s).cmd = s.cmd := rfl
@[simp] theorem hear_rsp (s : State) : (hear s).rsp = s.rsp := rfl
@[simp] theorem hear_rspValid (s : State) : (hear s).rspValid = s.rspValid := rfl
@[simp] theorem hear_inFlight (s : State) : (hear s).inFlight = s.inFlight := rfl
@[simp] theorem hear_regs (s : State) : (hear s).regs = s.regs := rfl
@[simp] theorem hear_hasTemperature (s : State) : (hear s).hasTemperature = s.hasTemperature := rfl
@[simp] theorem hear_host (s : State) : (hear s).host = s.host := rfl
@[simp] theorem hear_answers (s : State) : (hear s).answers = s.answers.tail := rfl
@[simp] theorem hear_drawn (s : State) : (hear s).drawn = s.drawn + 1 := rfl
@[simp] theorem hear_requests (s : State) : (hear s).requests = s.requests := rfl

@[simp] theorem wait_phase (r : Request) (s : State) : (wait r s).phase = .busy := rfl
@[simp] theorem wait_cmd (r : Request) (s : State) : (wait r s).cmd = s.cmd := rfl
@[simp] theorem wait_rsp (r : Request) (s : State) : (wait r s).rsp = s.rsp := rfl
@[simp] theorem wait_rspValid (r : Request) (s : State) : (wait r s).rspValid = s.rspValid := rfl
@[simp] theorem wait_inFlight (r : Request) (s : State) : (wait r s).inFlight = some r := rfl
@[simp] theorem wait_regs (r : Request) (s : State) : (wait r s).regs = s.regs := rfl
@[simp] theorem wait_hasTemperature (r : Request) (s : State) :
    (wait r s).hasTemperature = s.hasTemperature := rfl
@[simp] theorem wait_host (r : Request) (s : State) : (wait r s).host = s.host := rfl
@[simp] theorem wait_answers (r : Request) (s : State) :
    (wait r s).answers = s.answers.tail := rfl
@[simp] theorem wait_drawn (r : Request) (s : State) : (wait r s).drawn = s.drawn := rfl
@[simp] theorem wait_requests (r : Request) (s : State) : (wait r s).requests = s.requests := rfl

@[simp] theorem finish_phase (f : RspFrame) (s : State) : (finish f s).phase = .idle := rfl
@[simp] theorem finish_cmd (f : RspFrame) (s : State) : (finish f s).cmd = s.cmd := rfl
@[simp] theorem finish_rsp (f : RspFrame) (s : State) : (finish f s).rsp = f := rfl
@[simp] theorem finish_rspValid (f : RspFrame) (s : State) : (finish f s).rspValid = true := rfl
@[simp] theorem finish_inFlight (f : RspFrame) (s : State) :
    (finish f s).inFlight = s.inFlight := rfl
@[simp] theorem finish_regs (f : RspFrame) (s : State) : (finish f s).regs = s.regs := rfl
@[simp] theorem finish_hasTemperature (f : RspFrame) (s : State) :
    (finish f s).hasTemperature = s.hasTemperature := rfl
@[simp] theorem finish_host (f : RspFrame) (s : State) : (finish f s).host = s.host := rfl
@[simp] theorem finish_answers (f : RspFrame) (s : State) : (finish f s).answers = s.answers := rfl
@[simp] theorem finish_drawn (f : RspFrame) (s : State) : (finish f s).drawn = s.drawn := rfl
@[simp] theorem finish_requests (f : RspFrame) (s : State) :
    (finish f s).requests = s.requests := rfl

@[simp] theorem complete_phase (qs : List Byte) (s : State) : (complete qs s).phase = .idle := rfl
@[simp] theorem complete_cmd (qs : List Byte) (s : State) : (complete qs s).cmd = s.cmd := rfl
@[simp] theorem complete_rsp (qs : List Byte) (s : State) :
    (complete qs s).rsp = responseOf qs := rfl
@[simp] theorem complete_rspValid (qs : List Byte) (s : State) :
    (complete qs s).rspValid = true := rfl
@[simp] theorem complete_inFlight (qs : List Byte) (s : State) :
    (complete qs s).inFlight = s.inFlight := rfl
@[simp] theorem complete_regs (qs : List Byte) (s : State) : (complete qs s).regs = s.regs := rfl
@[simp] theorem complete_hasTemperature (qs : List Byte) (s : State) :
    (complete qs s).hasTemperature = s.hasTemperature := rfl
@[simp] theorem complete_host (qs : List Byte) (s : State) : (complete qs s).host = s.host := rfl
@[simp] theorem complete_answers (qs : List Byte) (s : State) :
    (complete qs s).answers = s.answers := rfl
@[simp] theorem complete_drawn (qs : List Byte) (s : State) : (complete qs s).drawn = s.drawn := rfl
@[simp] theorem complete_requests (qs : List Byte) (s : State) :
    (complete qs s).requests = s.requests := rfl

@[simp] theorem raise_phase (e : ErrorKind) (s : State) : (raise e s).phase = .idle := rfl
@[simp] theorem raise_cmd (e : ErrorKind) (s : State) : (raise e s).cmd = s.cmd := rfl
@[simp] theorem raise_rsp (e : ErrorKind) (s : State) :
    (raise e s).rsp = { err := errorCode e } := rfl
@[simp] theorem raise_rspValid (e : ErrorKind) (s : State) : (raise e s).rspValid = true := rfl
@[simp] theorem raise_inFlight (e : ErrorKind) (s : State) :
    (raise e s).inFlight = s.inFlight := rfl
@[simp] theorem raise_regs (e : ErrorKind) (s : State) : (raise e s).regs = s.regs := rfl
@[simp] theorem raise_hasTemperature (e : ErrorKind) (s : State) :
    (raise e s).hasTemperature = s.hasTemperature := rfl
@[simp] theorem raise_host (e : ErrorKind) (s : State) : (raise e s).host = s.host := rfl
@[simp] theorem raise_answers (e : ErrorKind) (s : State) : (raise e s).answers = s.answers := rfl
@[simp] theorem raise_drawn (e : ErrorKind) (s : State) : (raise e s).drawn = s.drawn := rfl
@[simp] theorem raise_requests (e : ErrorKind) (s : State) :
    (raise e s).requests = s.requests := rfl

@[simp] theorem rejectCommand_phase (s : State) : (rejectCommand s).phase = .idle := rfl
@[simp] theorem rejectCommand_cmd (s : State) : (rejectCommand s).cmd = s.cmd := rfl
@[simp] theorem rejectCommand_rsp (s : State) :
    (rejectCommand s).rsp = { err := errorCode .illegalCommand } := rfl
@[simp] theorem rejectCommand_rspValid (s : State) : (rejectCommand s).rspValid = true := rfl
@[simp] theorem rejectCommand_inFlight (s : State) : (rejectCommand s).inFlight = s.inFlight := rfl
@[simp] theorem rejectCommand_regs (s : State) : (rejectCommand s).regs = s.regs := rfl
@[simp] theorem rejectCommand_hasTemperature (s : State) :
    (rejectCommand s).hasTemperature = s.hasTemperature := rfl
@[simp] theorem rejectCommand_host (s : State) : (rejectCommand s).host = s.host := rfl
@[simp] theorem rejectCommand_answers (s : State) : (rejectCommand s).answers = s.answers := rfl
@[simp] theorem rejectCommand_drawn (s : State) : (rejectCommand s).drawn = s.drawn := rfl
@[simp] theorem rejectCommand_requests (s : State) : (rejectCommand s).requests = s.requests := rfl

@[simp] theorem acceptFrame_phase (f : CmdFrame) (s : State) :
    (acceptFrame f s).phase = .busy := rfl
@[simp] theorem acceptFrame_cmd (f : CmdFrame) (s : State) : (acceptFrame f s).cmd = f := rfl
@[simp] theorem acceptFrame_rsp (f : CmdFrame) (s : State) : (acceptFrame f s).rsp = s.rsp := rfl
@[simp] theorem acceptFrame_rspValid (f : CmdFrame) (s : State) :
    (acceptFrame f s).rspValid = s.rspValid := rfl
@[simp] theorem acceptFrame_inFlight (f : CmdFrame) (s : State) :
    (acceptFrame f s).inFlight = s.inFlight := rfl
@[simp] theorem acceptFrame_regs (f : CmdFrame) (s : State) : (acceptFrame f s).regs = s.regs := rfl
@[simp] theorem acceptFrame_hasTemperature (f : CmdFrame) (s : State) :
    (acceptFrame f s).hasTemperature = s.hasTemperature := rfl
@[simp] theorem acceptFrame_host (f : CmdFrame) (s : State) : (acceptFrame f s).host = s.host := rfl
@[simp] theorem acceptFrame_answers (f : CmdFrame) (s : State) :
    (acceptFrame f s).answers = s.answers := rfl
@[simp] theorem acceptFrame_drawn (f : CmdFrame) (s : State) :
    (acceptFrame f s).drawn = s.drawn := rfl
@[simp] theorem acceptFrame_requests (f : CmdFrame) (s : State) :
    (acceptFrame f s).requests = s.requests := rfl

@[simp] theorem takeResponse_phase (s : State) : (takeResponse s).phase = s.phase := rfl
@[simp] theorem takeResponse_cmd (s : State) : (takeResponse s).cmd = s.cmd := rfl
@[simp] theorem takeResponse_rsp (s : State) : (takeResponse s).rsp = s.rsp := rfl
@[simp] theorem takeResponse_rspValid (s : State) : (takeResponse s).rspValid = false := rfl
@[simp] theorem takeResponse_inFlight (s : State) : (takeResponse s).inFlight = s.inFlight := rfl
@[simp] theorem takeResponse_regs (s : State) : (takeResponse s).regs = s.regs := rfl
@[simp] theorem takeResponse_hasTemperature (s : State) :
    (takeResponse s).hasTemperature = s.hasTemperature := rfl
@[simp] theorem takeResponse_host (s : State) : (takeResponse s).host = s.host := rfl
@[simp] theorem takeResponse_answers (s : State) : (takeResponse s).answers = s.answers := rfl
@[simp] theorem takeResponse_drawn (s : State) : (takeResponse s).drawn = s.drawn := rfl
@[simp] theorem takeResponse_requests (s : State) : (takeResponse s).requests = s.requests := rfl

@[simp] theorem peerMoves_phase (s : State) : (peerMoves s).phase = s.phase := rfl
@[simp] theorem peerMoves_cmd (s : State) : (peerMoves s).cmd = s.cmd := rfl
@[simp] theorem peerMoves_rsp (s : State) : (peerMoves s).rsp = s.rsp := rfl
@[simp] theorem peerMoves_rspValid (s : State) : (peerMoves s).rspValid = s.rspValid := rfl
@[simp] theorem peerMoves_inFlight (s : State) : (peerMoves s).inFlight = s.inFlight := rfl
@[simp] theorem peerMoves_regs (s : State) :
    (peerMoves s).regs = s.regs.filter fun c => classOf c.1 ≠ .volatile := rfl
@[simp] theorem peerMoves_hasTemperature (s : State) :
    (peerMoves s).hasTemperature = s.hasTemperature := rfl
@[simp] theorem peerMoves_host (s : State) : (peerMoves s).host = s.host := rfl
@[simp] theorem peerMoves_answers (s : State) : (peerMoves s).answers = s.answers := rfl
@[simp] theorem peerMoves_drawn (s : State) : (peerMoves s).drawn = s.drawn := rfl
@[simp] theorem peerMoves_requests (s : State) : (peerMoves s).requests = s.requests := rfl

@[simp] theorem popHost_phase (s : State) : (popHost s).phase = s.phase := rfl
@[simp] theorem popHost_cmd (s : State) : (popHost s).cmd = s.cmd := rfl
@[simp] theorem popHost_rsp (s : State) : (popHost s).rsp = s.rsp := rfl
@[simp] theorem popHost_rspValid (s : State) : (popHost s).rspValid = s.rspValid := rfl
@[simp] theorem popHost_inFlight (s : State) : (popHost s).inFlight = s.inFlight := rfl
@[simp] theorem popHost_regs (s : State) : (popHost s).regs = s.regs := rfl
@[simp] theorem popHost_hasTemperature (s : State) :
    (popHost s).hasTemperature = s.hasTemperature := rfl
@[simp] theorem popHost_host (s : State) : (popHost s).host = s.host.eraseP (servedIn s.phase) := rfl
@[simp] theorem popHost_answers (s : State) : (popHost s).answers = s.answers := rfl
@[simp] theorem popHost_drawn (s : State) : (popHost s).drawn = s.drawn := rfl
@[simp] theorem popHost_requests (s : State) : (popHost s).requests = s.requests := rfl

@[simp] theorem blockReset_phase (s : State) : (blockReset s).phase = .idle := rfl
@[simp] theorem blockReset_cmd (s : State) : (blockReset s).cmd = {} := rfl
@[simp] theorem blockReset_rsp (s : State) : (blockReset s).rsp = {} := rfl
@[simp] theorem blockReset_rspValid (s : State) : (blockReset s).rspValid = false := rfl
@[simp] theorem blockReset_inFlight (s : State) : (blockReset s).inFlight = none := rfl
@[simp] theorem blockReset_regs (s : State) :
    (blockReset s).regs = regsAfterReset s.inFlight s.regs := rfl
@[simp] theorem blockReset_hasTemperature (s : State) :
    (blockReset s).hasTemperature = s.hasTemperature := rfl
@[simp] theorem blockReset_host (s : State) : (blockReset s).host = s.host := rfl
@[simp] theorem blockReset_answers (s : State) : (blockReset s).answers = s.answers := rfl
@[simp] theorem blockReset_drawn (s : State) : (blockReset s).drawn = s.drawn := rfl
@[simp] theorem blockReset_requests (s : State) : (blockReset s).requests = s.requests := rfl

@[simp] theorem withFetchWord_phase (s : State) (nbits w : Nat) :
    (s.withFetchWord nbits w).phase = .busy := rfl
@[simp] theorem withFetchWord_cmd (s : State) (nbits w : Nat) :
    (s.withFetchWord nbits w).cmd = frameOfWord nbits w := rfl
@[simp] theorem withFetchWord_rsp (s : State) (nbits w : Nat) :
    (s.withFetchWord nbits w).rsp = s.rsp := rfl
@[simp] theorem withFetchWord_rspValid (s : State) (nbits w : Nat) :
    (s.withFetchWord nbits w).rspValid = s.rspValid := rfl
@[simp] theorem withFetchWord_inFlight (s : State) (nbits w : Nat) :
    (s.withFetchWord nbits w).inFlight = none := rfl
@[simp] theorem withFetchWord_regs (s : State) (nbits w : Nat) :
    (s.withFetchWord nbits w).regs = s.regs := rfl
@[simp] theorem withFetchWord_hasTemperature (s : State) (nbits w : Nat) :
    (s.withFetchWord nbits w).hasTemperature = s.hasTemperature := rfl
@[simp] theorem withFetchWord_host (s : State) (nbits w : Nat) :
    (s.withFetchWord nbits w).host =
      if s.host.any (servedIn .busy) then .pass .block :: s.host else s.host := rfl
@[simp] theorem withFetchWord_answers (s : State) (nbits w : Nat) :
    (s.withFetchWord nbits w).answers = s.answers := rfl
@[simp] theorem withFetchWord_drawn (s : State) (nbits w : Nat) :
    (s.withFetchWord nbits w).drawn = s.drawn := rfl
@[simp] theorem withFetchWord_requests (s : State) (nbits w : Nat) :
    (s.withFetchWord nbits w).requests = s.requests := rfl

end Sys2Proof.Machine
end

