-- ==== Sys2Proof/Laws/Ops.lean ====
section
/-! SUPPORT. What the shared operations can do, once each, in the terms of Safety. -/

namespace Sys2Proof.Machine

open Sys2Proof

@[simp] theorem errorCode_eq_codeOf (e : ErrorKind) : errorCode e = codeOf e := by cases e <;> rfl

theorem raise_eq_rejected (e : ErrorKind) (s : State) : raise e s = rejected s (codeOf e) := by
  cases e <;> rfl

theorem complete_eq_answered (qs : List Byte) (s : State) :
    complete qs s = answered s (responseOf qs) := rfl

theorem hear_issue_eq_requested (r : Request) (s : State) : hear (issue r s) = requested s r := rfl

theorem wait_issue_eq_waitingFor (r : Request) (s : State) : wait r (issue r s) = waitingFor s r := rfl

/-! ## The transport -/

theorem nextAnswer_scripted {s : State} {a : Answer} {rest : List Answer}
    (h : s.answers = a :: rest) : nextAnswer s = a := by simp [nextAnswer, h]

/-- Only a scripted answer is silent: a free answer is `fail` or `ok` (log entry 3). -/
theorem nextAnswer_silent {s : State} (h : nextAnswer s = .silent) : .silent ∈ s.answers := by
  unfold nextAnswer at h
  split at h
  · rename_i a rest e; rw [e, h]; exact List.mem_cons_self
  · split at h <;> cases h

theorem nextAnswer_congr {s s' : State} (ha : s'.answers = s.answers) (hd : s'.drawn = s.drawn) :
    nextAnswer s' = nextAnswer s := by simp [nextAnswer, ha, hd]

@[simp] theorem nextAnswer_issue (r : Request) (s : State) : nextAnswer (issue r s) = nextAnswer s :=
  nextAnswer_congr rfl rfl

/-! ## Input checks -/

@[simp] theorem withResult_ok {α : Type} (a : α) (s : State) (k : α → State) :
    withResult (.ok a) s k = k a := rfl

@[simp] theorem withResult_error {α : Type} (e : ErrorKind) (s : State) (k : α → State) :
    withResult (.error e : Except ErrorKind α) s k = raise e s := rfl

@[simp] theorem respond_ok (qs : List Byte) (s : State) : respond (.ok qs) s = complete qs s := rfl

@[simp] theorem respond_error (e : ErrorKind) (s : State) : respond (.error e) s = raise e s := rfl

/-! ## The access primitives -/

/-- What holds in each of the four ends of a wait for a read's answer holds of the wait. -/
theorem awaitRead_elim {P : State → Prop} {b : Burst} {s : State} {k : List Byte → State → State}
    (silent : nextAnswer s = .silent → P (wait (.read b) s))
    (fail : nextAnswer s = .fail → P (rejected (hear s) 4))
    (badCount : ∀ ds, nextAnswer s = .ok ds → ds.length ≠ b.count → P (rejected (hear s) 3))
    (ok : ∀ ds, nextAnswer s = .ok ds → ds.length = b.count →
      P (k (peerBytes s.regs b.base ds) (hear s))) :
    P (awaitRead b k s) := by
  unfold awaitRead
  split
  · exact silent ‹_›
  · exact fail ‹_›
  · split
    · exact ok _ ‹_› ‹_›
    · exact badCount _ ‹_› ‹_›

/-- What holds in each of the three ends of a wait for a write's answer holds of the wait. -/
theorem awaitWrite_elim {P : State → Prop} {b : Burst} {bytes : List Byte} {s : State}
    {k : State → State}
    (silent : nextAnswer s = .silent → P (wait (.write b bytes) s))
    (fail : nextAnswer s = .fail →
      P (rejected { hear s with regs := s.regs.forget b.base b.count } 4))
    (ok : ∀ ds, nextAnswer s = .ok ds → P (k { hear s with regs := s.regs.putBytes b.base bytes })) :
    P (awaitWrite b bytes k s) := by
  unfold awaitWrite
  split
  · exact silent ‹_›
  · exact fail ‹_›
  · exact ok _ ‹_›

theorem memRead_silent {b : Burst} {s : State} (k : List Byte → State → State)
    (h : nextAnswer s = .silent) : memRead b s k = waitingFor s (.read b) := by
  simp [memRead, awaitRead, h, wait_issue_eq_waitingFor]

theorem memRead_fail {b : Burst} {s : State} (k : List Byte → State → State)
    (h : nextAnswer s = .fail) : memRead b s k = rejected (requested s (.read b)) 4 := by
  simp [memRead, awaitRead, h, raise_eq_rejected, hear_issue_eq_requested, codeOf]

theorem memRead_badCount {b : Burst} {s : State} (k : List Byte → State → State) {ds : List Byte}
    (h : nextAnswer s = .ok ds) (hc : ds.length ≠ b.count) :
    memRead b s k = rejected (requested s (.read b)) 3 := by
  simp [memRead, awaitRead, h, hc, raise_eq_rejected, hear_issue_eq_requested, codeOf]

theorem memRead_ok {b : Burst} {s : State} (k : List Byte → State → State) {ds : List Byte}
    (h : nextAnswer s = .ok ds) (hc : ds.length = b.count) :
    memRead b s k = k (peerBytes s.regs b.base ds) (requested s (.read b)) := by
  simp [memRead, awaitRead, h, hc, hear_issue_eq_requested]

/-- What holds in each of the four ends of a read holds of the read. -/
theorem memRead_elim {P : State → Prop} {b : Burst} {s : State} {k : List Byte → State → State}
    (silent : nextAnswer s = .silent → P (waitingFor s (.read b)))
    (fail : nextAnswer s = .fail → P (rejected (requested s (.read b)) 4))
    (badCount : ∀ ds, nextAnswer s = .ok ds → ds.length ≠ b.count →
      P (rejected (requested s (.read b)) 3))
    (ok : ∀ ds, nextAnswer s = .ok ds → ds.length = b.count →
      P (k (peerBytes s.regs b.base ds) (requested s (.read b)))) :
    P (memRead b s k) := by
  cases h : nextAnswer s with
  | silent => rw [memRead_silent k h]; exact silent h
  | fail => rw [memRead_fail k h]; exact fail h
  | ok ds =>
    by_cases hc : ds.length = b.count
    · rw [memRead_ok k h hc]; exact ok ds h hc
    · rw [memRead_badCount k h hc]; exact badCount ds h hc

theorem memWrite_silent {b : Burst} {bytes : List Byte} {s : State} (k : State → State)
    (h : nextAnswer s = .silent) : memWrite b bytes s k = waitingFor s (.write b bytes) := by
  simp [memWrite, awaitWrite, h, wait_issue_eq_waitingFor]

theorem memWrite_fail {b : Burst} {bytes : List Byte} {s : State} (k : State → State)
    (h : nextAnswer s = .fail) :
    memWrite b bytes s k =
      rejected { requested s (.write b bytes) with regs := s.regs.forget b.base b.count } 4 := by
  simp [memWrite, awaitWrite, h, raise_eq_rejected, hear_issue_eq_requested, codeOf]

theorem memWrite_ok {b : Burst} {bytes : List Byte} {s : State} (k : State → State) {ds : List Byte}
    (h : nextAnswer s = .ok ds) :
    memWrite b bytes s k =
      k { requested s (.write b bytes) with regs := s.regs.putBytes b.base bytes } := by
  simp [memWrite, awaitWrite, h, hear_issue_eq_requested]

/-- What holds in each of the three ends of a write holds of the write. -/
theorem memWrite_elim {P : State → Prop} {b : Burst} {bytes : List Byte} {s : State}
    {k : State → State}
    (silent : nextAnswer s = .silent → P (waitingFor s (.write b bytes)))
    (fail : nextAnswer s = .fail →
      P (rejected { requested s (.write b bytes) with regs := s.regs.forget b.base b.count } 4))
    (ok : ∀ ds, nextAnswer s = .ok ds →
      P (k { requested s (.write b bytes) with regs := s.regs.putBytes b.base bytes })) :
    P (memWrite b bytes s k) := by
  cases h : nextAnswer s with
  | silent => rw [memWrite_silent k h]; exact silent h
  | fail => rw [memWrite_fail k h]; exact fail h
  | ok ds => rw [memWrite_ok k h]; exact ok ds h

/-- What holds in each end of a read-modify-write of a one-byte burst holds of it. -/
theorem readModifyWrite_elim {P : State → Prop} {b : Burst} {f : Byte → Byte} {s : State}
    (hb : b.count = 1)
    (silent : nextAnswer s = .silent → P (waitingFor s (.read b)))
    (fail : nextAnswer s = .fail → P (rejected (requested s (.read b)) 4))
    (badCount : ∀ ds, nextAnswer s = .ok ds → ds.length ≠ 1 →
      P (rejected (requested s (.read b)) 3))
    (writeSilent : ∀ d w, nextAnswer s = .ok [d] → w = f (peerByte s.regs b.base d) →
      nextAnswer (requested s (.read b)) = .silent →
      P (waitingFor (requested s (.read b)) (.write b [w])))
    (writeFail : ∀ d w, nextAnswer s = .ok [d] → w = f (peerByte s.regs b.base d) →
      nextAnswer (requested s (.read b)) = .fail →
      P (rejected { requested (requested s (.read b)) (.write b [w]) with
        regs := s.regs.forget b.base 1 } 4))
    (ok : ∀ d w ds, nextAnswer s = .ok [d] → w = f (peerByte s.regs b.base d) →
      nextAnswer (requested s (.read b)) = .ok ds →
      P (answered { requested (requested s (.read b)) (.write b [w]) with
        regs := s.regs.put b.base w } { q1 := w })) :
    P (readModifyWrite b f s) := by
  refine memRead_elim silent fail (fun ds h hc => badCount ds h (hb ▸ hc)) fun ds h hc => ?_
  obtain ⟨d, rfl⟩ := List.length_eq_one_iff.1 (hc.trans hb)
  refine memWrite_elim (fun h2 => writeSilent d _ h rfl h2) (fun h2 => ?_)
    fun ds h2 => ok d _ ds h rfl h2
  rw [hb]
  exact writeFail d _ h rfl h2

/-- A read-modify-write of a one-byte burst whose two answers are `ok`. -/
theorem readModifyWrite_ok {b : Burst} (f : Byte → Byte) {s : State} (hb : b.count = 1) {d : Byte}
    {ds : List Byte} (h1 : nextAnswer s = .ok [d])
    (h2 : nextAnswer (requested s (.read b)) = .ok ds) :
    readModifyWrite b f s =
      answered { requested (requested s (.read b)) (.write b [f (peerByte s.regs b.base d)]) with
        regs := s.regs.put b.base (f (peerByte s.regs b.base d)) }
        { q1 := f (peerByte s.regs b.base d) } := by
  rw [readModifyWrite, memRead_ok _ h1 (by rw [hb]; rfl), writeBack, memWrite_ok _ h2]
  rfl

/-- A read-modify-write of a one-byte burst whose read answers `ok` and whose write answers `fail`. -/
theorem readModifyWrite_writeFail {b : Burst} (f : Byte → Byte) {s : State} (hb : b.count = 1)
    {d : Byte} (h1 : nextAnswer s = .ok [d]) (h2 : nextAnswer (requested s (.read b)) = .fail) :
    readModifyWrite b f s =
      rejected { requested (requested s (.read b)) (.write b [f (peerByte s.regs b.base d)]) with
        regs := s.regs.forget b.base 1 } 4 := by
  rw [readModifyWrite, memRead_ok _ h1 (by rw [hb]; rfl), writeBack, memWrite_fail _ h2, hb]
  rfl

theorem readModifyWrite_fail {b : Burst} (f : Byte → Byte) {s : State}
    (h : nextAnswer s = .fail) :
    readModifyWrite b f s = rejected (requested s (.read b)) 4 := memRead_fail _ h

theorem readModifyWrite_badCount {b : Burst} (f : Byte → Byte) {s : State} {ds : List Byte}
    (h : nextAnswer s = .ok ds) (hc : ds.length ≠ b.count) :
    readModifyWrite b f s = rejected (requested s (.read b)) 3 := memRead_badCount _ h hc

/-! ## The step -/

/-- Every command completes: `exec` answers a next state, whatever the state. -/
theorem exec_next (i : Instr) (s : State) : ∃ t, exec i s = .next t := by
  cases i <;> exact ⟨_, rfl⟩

/-! Whose move it is: `dueAction` and `popHost` in the terms of Safety. -/

theorem servedIn_idle (a : HostAction) : servedIn .idle a = true := rfl

theorem servedIn_busy (a : HostAction) : servedIn .busy a = !a.isOffer := by cases a <;> rfl

theorem servedIn_eq_false {p : Phase} {a : HostAction} :
    servedIn p a = false ↔ p = .busy ∧ a.isOffer = true := by
  cases p <;> cases a <;> simp [servedIn, HostAction.isOffer]

theorem State.hostDoes.due {s : State} {a : HostAction} {rest : List HostAction}
    (h : s.hostDoes a rest) : dueAction s = some a ∧ popHost s = { s with host := rest } := by
  obtain ⟨held, later, hs, rfl, ho, hi, hb⟩ := h
  have hh : ∀ x ∈ held, ¬ servedIn s.phase x = true := fun x hx => by
    cases hp : s.phase with
    | idle => rw [hi hp] at hx; cases hx
    | busy => simp [servedIn_busy, ho x hx]
  have ha : servedIn s.phase a = true := by
    cases hp : s.phase with
    | idle => rfl
    | busy => simp [servedIn_busy, hb hp]
  refine ⟨?_, ?_⟩
  · rw [dueAction, hs, List.find?_append, List.find?_eq_none.2 hh]
    simp [ha]
  · rw [popHost, hs, List.eraseP_append_right _ hh, List.eraseP_cons_of_pos ha]

theorem hostDoes_of_due {s : State} {a : HostAction} (h : dueAction s = some a) :
    ∃ rest, s.hostDoes a rest := by
  obtain ⟨ha, held, later, hs, hh⟩ := List.find?_eq_some_iff_append.1 h
  have hf : ∀ x ∈ held, s.phase = .busy ∧ x.isOffer = true := fun x hx =>
    servedIn_eq_false.1 (by simpa using hh x hx)
  refine ⟨_, held, later, hs, rfl, fun x hx => (hf x hx).2, fun hp => ?_, fun hp => ?_⟩
  · refine List.eq_nil_iff_forall_not_mem.2 fun x hx => ?_
    have := (hf x hx).1
    rw [hp] at this
    cases this
  · rw [hp, servedIn_busy] at ha
    simpa using ha

theorem hostQuiet_iff {s : State} : s.hostQuiet ↔ dueAction s = none := by
  rw [dueAction, List.find?_eq_none, State.hostQuiet]
  cases hp : s.phase with
  | idle =>
    simp only [servedIn_idle, not_true_eq_false, imp_false, ← List.eq_nil_iff_forall_not_mem,
      forall_const]
    exact ⟨fun h => h.2, fun h => ⟨by simp [h], h⟩⟩
  | busy => simp [servedIn_busy]

/-! One lemma for each move. -/

theorem step_offer {s : State} {f : CmdFrame} {rest : List HostAction}
    (h : s.hostDoes (.offer f) rest) : step s = .next (acceptFrame f { s with host := rest }) := by
  simp [step, h.due]

theorem step_take {s : State} {rest : List HostAction} (h : s.hostDoes .take rest) :
    step s = .next { s with rspValid := false, host := rest } := by
  simp [step, h.due, takeResponse]

theorem step_reset {s : State} {rest : List HostAction} (h : s.hostDoes .reset rest) :
    step s = .next (blockReset { s with host := rest }) := by
  simp [step, h.due]

/-- It is the turn of an agent beside the host. -/
theorem step_turn {s : State} {a : Agent} {rest : List HostAction} (h : s.turnOf a rest) :
    step s = agentMoves a { s with host := rest } := by
  rcases h with h | ⟨h, rfl, rfl⟩
  · simp [step, h.due]
  · simp [step, hostQuiet_iff.1 h]

theorem step_block {s : State} {rest : List HostAction} (h : s.turnOf .block rest) :
    step s = blockMoves { s with host := rest } := step_turn h

theorem step_transport {s : State} {rest : List HostAction} (h : s.turnOf .transport rest) :
    step s = .next (transportMoves { s with host := rest }) := step_turn h

theorem step_peer {s : State} {rest : List HostAction} (h : s.turnOf .peer rest) :
    step s = .next (peerMoves { s with host := rest }) := step_turn h

theorem blockMoves_idle {s : State} (h : s.phase = .idle) : blockMoves s = .next s := by
  simp [blockMoves, h]

theorem blockMoves_waiting {s : State} (h : s.phase = .busy) (hw : s.inFlight.isSome = true) :
    blockMoves s = .next s := by simp [blockMoves, h, hw]

theorem blockMoves_runs {s : State} {i : Instr} (h : s.phase = .busy) (hw : s.inFlight = none)
    (hd : decode s.hasTemperature s.cmd = .ok i) : blockMoves s = exec i s := by
  simp [blockMoves, h, hw, hd]

theorem blockMoves_illegal {s : State} {e : DecodeError} (h : s.phase = .busy)
    (hw : s.inFlight = none) (hd : decode s.hasTemperature s.cmd = .error e) :
    blockMoves s = .next (rejected s 5) := by
  simp [blockMoves, h, hw, hd, rejectCommand, raise_eq_rejected, codeOf]

theorem transportMoves_idle {s : State} (h : s.phase = .idle) : transportMoves s = s := by
  simp [transportMoves, h]

theorem transportMoves_none {s : State} (h : s.inFlight = none) : transportMoves s = s := by
  cases hp : s.phase <;> simp [transportMoves, hp, h]

theorem transportMoves_resumes {s : State} {i : Instr} {r : Request} (h : s.phase = .busy)
    (hw : s.inFlight = some r) (hd : decode s.hasTemperature s.cmd = .ok i) :
    transportMoves s = resume i r { s with inFlight := none } := by
  simp [transportMoves, h, hw, hd]

/-- Everything the transport's own move can do. -/
theorem transportMoves_cases (s : State) :
    transportMoves s = s ∨
    ∃ i r, s.phase = .busy ∧ s.inFlight = some r ∧ decode s.hasTemperature s.cmd = .ok i ∧
      transportMoves s = resume i r { s with inFlight := none } := by
  unfold transportMoves
  split
  · exact .inl rfl
  · exact .inl rfl
  · split
    · exact .inr ⟨_, _, ‹_›, ‹_›, ‹_›, rfl⟩
    · exact .inl rfl

/-- Whose move it is. -/
theorem moves (s : State) :
    (∃ f rest, s.hostDoes (.offer f) rest) ∨ (∃ rest, s.hostDoes .take rest) ∨
    (∃ rest, s.hostDoes .reset rest) ∨ ∃ a rest, s.turnOf a rest := by
  cases h : dueAction s with
  | none => exact .inr (.inr (.inr ⟨_, _, .inr ⟨hostQuiet_iff.2 h, rfl, rfl⟩⟩))
  | some a =>
    obtain ⟨rest, hr⟩ := hostDoes_of_due h
    cases a with
    | offer f => exact .inl ⟨f, rest, hr⟩
    | take => exact .inr (.inl ⟨rest, hr⟩)
    | reset => exact .inr (.inr (.inl ⟨rest, hr⟩))
    | pass a => exact .inr (.inr (.inr ⟨a, rest, .inl hr⟩))

/-- Everything the block's own move can do. -/
theorem blockMoves_cases {s t : State} (h : blockMoves s = .next t) :
    ((s.phase = .idle ∨ s.phase = .busy ∧ s.inFlight.isSome = true) ∧ t = s) ∨
    (s.phase = .busy ∧ s.inFlight = none ∧
      ∃ i, decode s.hasTemperature s.cmd = .ok i ∧ exec i s = .next t) ∨
    (s.phase = .busy ∧ s.inFlight = none ∧
      (∃ e, decode s.hasTemperature s.cmd = .error e) ∧ t = rejected s 5) := by
  cases hp : s.phase with
  | idle => rw [blockMoves_idle hp] at h; cases h; exact .inl ⟨.inl rfl, rfl⟩
  | busy =>
    cases hw : s.inFlight with
    | some r =>
      rw [blockMoves_waiting hp (by simp [hw])] at h
      cases h
      exact .inl ⟨.inr ⟨rfl, rfl⟩, rfl⟩
    | none =>
      cases hd : decode s.hasTemperature s.cmd with
      | ok i => exact .inr (.inl ⟨rfl, rfl, i, rfl, (blockMoves_runs hp hw hd) ▸ h⟩)
      | error e =>
        rw [blockMoves_illegal hp hw hd] at h
        cases h
        exact .inr (.inr ⟨rfl, rfl, ⟨e, rfl⟩, rfl⟩)

/-- Everything one step can do. -/
theorem step_cases {s t : State} (h : step s = .next t) :
    (∃ f rest, s.hostDoes (.offer f) rest ∧ t = acceptFrame f { s with host := rest }) ∨
    (∃ rest, s.hostDoes .take rest ∧ t = { s with rspValid := false, host := rest }) ∨
    (∃ rest, s.hostDoes .reset rest ∧ t = blockReset { s with host := rest }) ∨
    (∃ rest, s.turnOf .block rest ∧ blockMoves { s with host := rest } = .next t) ∨
    (∃ rest, s.turnOf .transport rest ∧ t = transportMoves { s with host := rest }) ∨
    ∃ rest, s.turnOf .peer rest ∧ t = peerMoves { s with host := rest } := by
  rcases moves s with ⟨f, rest, hm⟩ | ⟨rest, hm⟩ | ⟨rest, hm⟩ | ⟨a, rest, hm⟩
  · rw [step_offer hm] at h; cases h; exact .inl ⟨f, rest, hm, rfl⟩
  · rw [step_take hm] at h; cases h; exact .inr (.inl ⟨rest, hm, rfl⟩)
  · rw [step_reset hm] at h; cases h; exact .inr (.inr (.inl ⟨rest, hm, rfl⟩))
  · refine .inr (.inr (.inr ?_))
    cases a with
    | block => rw [step_block hm] at h; exact .inl ⟨rest, hm, h⟩
    | transport => rw [step_transport hm] at h; cases h; exact .inr (.inl ⟨rest, hm, rfl⟩)
    | peer => rw [step_peer hm] at h; cases h; exact .inr (.inr ⟨rest, hm, rfl⟩)

theorem blockMoves_next (s : State) : ∃ t, blockMoves s = .next t := by
  unfold blockMoves
  split
  · exact ⟨_, rfl⟩
  · split
    · exact ⟨_, rfl⟩
    · split
      · exact exec_next _ _
      · exact ⟨_, rfl⟩

/-- A step always answers a next state. -/
theorem step_next (s : State) : ∃ t, step s = .next t := by
  rcases moves s with ⟨f, rest, hm⟩ | ⟨rest, hm⟩ | ⟨rest, hm⟩ | ⟨a, rest, hm⟩
  · exact ⟨_, step_offer hm⟩
  · exact ⟨_, step_take hm⟩
  · exact ⟨_, step_reset hm⟩
  · rw [step_turn hm]
    cases a with
    | block => exact blockMoves_next _
    | transport => exact ⟨_, rfl⟩
    | peer => exact ⟨_, rfl⟩

/-- The peer's move changes no byte that a read gives (10_state.md R43). -/
theorem peerByte_peerMoves (s : State) (a : Nat) (d : Byte) :
    peerByte (peerMoves s).regs a d = peerByte s.regs a d := by
  cases hc : classOf a with
  | volatile => rw [peerByte_volatile hc, peerByte_volatile hc]
  | stable | mixed =>
    rw [peerByte, peerByte, peerMoves_regs, byteAt_filter _ _ fun c he => by simp [he, hc]]

/-- A Busy block lets no held frame go: the host's next action leaves the offered frames. -/
theorem State.hostDoes.offers {s : State} {a : HostAction} {rest : List HostAction}
    (h : s.hostDoes a rest) (hp : s.phase = .busy) :
    rest.filter HostAction.isOffer = s.host.filter HostAction.isOffer := by
  obtain ⟨held, later, hs, rfl, -, -, hb⟩ := h
  simp [hs, hb hp]

end Sys2Proof.Machine
end

