-- ==== Sys2Proof/Laws/Codec.lean ====
section
/-! SUPPORT. The codecs in the terms of Safety: each function of the families equals the spec's formula in
plain arithmetic, and each input check has its two outcomes. -/

namespace Sys2Proof.Machine

open Sys2Proof

/-! ## Bits of a byte -/

theorem toNat_and_1F (b : Byte) : (b &&& 0x1F).toNat = b.toNat % 32 := by
  rw [BitVec.toNat_and]; exact Nat.and_two_pow_sub_one_eq_mod b.toNat 5

theorem toNat_and_3F (b : Byte) : (b &&& 0x3F).toNat = b.toNat % 64 := by
  rw [BitVec.toNat_and]; exact Nat.and_two_pow_sub_one_eq_mod b.toNat 6

theorem toNat_and_7F (b : Byte) : (b &&& 0x7F).toNat = b.toNat % 128 := by
  rw [BitVec.toNat_and]; exact Nat.and_two_pow_sub_one_eq_mod b.toNat 7

/-- A bit read as a division. -/
theorem bitOf_eq (b : Byte) (i : Nat) : bitOf b i = decide (b.toNat / 2 ^ i % 2 = 1) := by
  simp [bitOf, BitVec.getLsbD, Nat.testBit, Nat.shiftRight_eq_div_pow, Nat.and_comm 1,
    Nat.and_one_is_mod, Bool.beq_eq_decide_eq]

/-- A tens part and a units part, put side by side. -/
theorem shift_or_eq (x y : Nat) (hx : x < 16) (hy : y < 16) :
    (byteOf x <<< 4) ||| byteOf y = BitVec.ofNat 8 (16 * x + y) := by
  apply BitVec.eq_of_toNat_eq
  have h : (x * 16) ||| y = x * 16 + y := by
    have := Nat.shiftLeft_add_eq_or_of_lt (i := 4) (b := y) hy x
    rw [Nat.shiftLeft_eq] at this
    exact this.symm
  simp only [byteOf, BitVec.toNat_or, BitVec.toNat_shiftLeft, BitVec.toNat_ofNat,
    Nat.shiftLeft_eq]
  rw [Nat.mod_eq_of_lt (a := x) (by omega), Nat.mod_eq_of_lt (a := y) (by omega),
    Nat.mod_eq_of_lt (a := x * 2 ^ 4) (by omega), show (2 : Nat) ^ 4 = 16 from rfl, h]
  omega

/-! ## BCD -/

/-- 40_bcd.md R200. -/
theorem bcd_eq_packed {v : Nat} (h : v ≤ 99) : bcd v = packed v :=
  shift_or_eq _ _ (by omega) (by omega)

/-- 40_bcd.md R201. -/
theorem unBCD_eq_digits (b : Byte) : unBCD b = digits b.toNat := by
  have := b.isLt
  simp only [unBCD, fieldOf, digits]
  omega

theorem packed_toNat {v : Nat} (h : v ≤ 99) : (packed v).toNat = 16 * (v / 10) + v % 10 := by
  simp only [packed, BitVec.toNat_ofNat]
  omega

/-- 40_bcd.md R204. -/
theorem digits_packed {v : Nat} (h : v ≤ 99) : digits (packed v).toNat = v := by
  rw [packed_toNat h, digits]
  omega

/-! ## Hours -/

/-- 41_hour.md R211. -/
theorem decodeHour_eq (b : Byte) :
    decodeHour b =
      { mode := if inTwelveHourForm b then .twelveHour else .twentyFourHour,
        hour := shownHour b, isPM := afterNoon b } := by
  unfold decodeHour shownHour afterNoon shownHour inTwelveHourForm
  rw [bitOf_eq, bitOf_eq, unBCD_eq_digits, unBCD_eq_digits, toNat_and_1F, toNat_and_3F]
  by_cases h : b.toNat / 2 ^ 6 % 2 = 1 <;> simp at h <;> simp [h]

/-- 42_clock.md R231, 43_alarm.md R255: the 24-hour value of an hour byte. -/
theorem decodeHour_hour24 (b : Byte) : (decodeHour b).hour24 = clockHour b := by
  rw [decodeHour_eq, clockHour]
  cases inTwelveHourForm b <;> rfl

/-- 41_hour.md R219: bit 7 is not looked at. -/
theorem clockHour_and_7F (b : Byte) : clockHour (b &&& 0x7F) = clockHour b := by
  have h : inTwelveHourForm (b &&& 0x7F) = inTwelveHourForm b := by
    simp only [inTwelveHourForm, toNat_and_7F, decide_eq_decide]; omega
  have h1 : b.toNat % 128 % 32 = b.toNat % 32 := by omega
  have h2 : b.toNat % 128 % 64 = b.toNat % 64 := by omega
  have h3 : b.toNat % 128 / 32 % 2 = b.toNat / 32 % 2 := by omega
  unfold clockHour afterNoon shownHour
  rw [h, toNat_and_7F, h1, h2, h3]

/-- 41_hour.md R210. -/
theorem encodeHour_eq_hourByte {h : Nat} (hh : h ≤ 23) (mode : HourMode) :
    encodeHour mode h = hourByte (mode = .twelveHour) h := by
  cases mode with
  | twentyFourHour => exact bcd_eq_packed (by omega)
  | twelveHour =>
    revert hh
    have : ∀ h < 24, encodeHour .twelveHour h = hourByte (decide True) h := by decide
    intro hh
    simpa using this h (by omega)

/-- 30_encoding.md R108. -/
theorem modeOperand_some {p : Byte} (h : p.toNat ≤ 1) :
    modeOperand p = some (if p.toNat = 1 then .twelveHour else .twentyFourHour) := by
  have : p = 0 ∨ p = 1 := by
    rcases Nat.le_one_iff_eq_zero_or_eq_one.1 h with h | h
    · exact .inl (BitVec.eq_of_toNat_eq (by simpa using h))
    · exact .inr (BitVec.eq_of_toNat_eq (by simpa using h))
  rcases this with rfl | rfl <;> rfl

theorem modeOperand_none {p : Byte} (h : 1 < p.toNat) : modeOperand p = none := by
  have h0 : p ≠ 0 := by rintro rfl; simp at h
  have h1 : p ≠ 1 := by rintro rfl; simp at h
  rw [modeOperand, if_neg h0, if_neg h1]

theorem boolOperand_some {p : Byte} (h : p.toNat ≤ 1) :
    boolOperand p = some (decide (p.toNat = 1)) := by
  have : p = 0 ∨ p = 1 := by
    rcases Nat.le_one_iff_eq_zero_or_eq_one.1 h with h | h
    · exact .inl (BitVec.eq_of_toNat_eq (by simpa using h))
    · exact .inr (BitVec.eq_of_toNat_eq (by simpa using h))
  rcases this with rfl | rfl <;> rfl

theorem boolOperand_none {p : Byte} (h : 1 < p.toNat) : boolOperand p = none := by
  have h0 : p ≠ 0 := by rintro rfl; simp at h
  have h1 : p ≠ 1 := by rintro rfl; simp at h
  rw [boolOperand, if_neg h0, if_neg h1]

/-! ## Clock -/

theorem calendarTime_inRange (t : TimeBlock) : (calendarTime t).inRange = t.inDomain := by
  rw [Bool.eq_iff_iff]
  simp only [CalendarTime.inRange, TimeBlock.inDomain, Bool.and_eq_true, decide_eq_true_eq,
    and_assoc]
  rfl

/-- What it means for a CalendarTime block to be in its domains. -/
theorem inDomain_iff (t : TimeBlock) : t.inDomain = true ↔
    t.sec.toNat ≤ 59 ∧ t.min.toNat ≤ 59 ∧ t.hour.toNat ≤ 23 ∧
    (1 ≤ t.dow.toNat ∧ t.dow.toNat ≤ 7) ∧ (1 ≤ t.date.toNat ∧ t.date.toNat ≤ 31) ∧
    (1 ≤ t.month.toNat ∧ t.month.toNat ≤ 12) ∧ t.year.toNat ≤ 99 := by
  simp [TimeBlock.inDomain, and_assoc]

theorem clkBuild_ok {t : TimeBlock} {mode : Byte} (ht : t.inDomain = true)
    (hm : mode.toNat ≤ 1) : clkBuild t mode = .ok (clockImage t (mode.toNat = 1)) := by
  obtain ⟨h1, h2, h3, h4, h5, h6, h7⟩ := (inDomain_iff t).1 ht
  have hr : (calendarTime t).inRange = true := by rw [calendarTime_inRange, ht]
  simp only [clkBuild, modeOperand_some hm, buildClockWrite, hr, if_true, List.map_cons,
    List.map_nil]
  simp [clockImage, calendarTime, bcd_eq_packed (show t.sec.toNat ≤ 99 by omega),
    bcd_eq_packed (show t.min.toNat ≤ 99 by omega), bcd_eq_packed (show t.dow.toNat ≤ 99 by omega),
    bcd_eq_packed (show t.date.toNat ≤ 99 by omega),
    bcd_eq_packed (show t.month.toNat ≤ 99 by omega), bcd_eq_packed h7,
    encodeHour_eq_hourByte h3]

theorem clkBuild_error {t : TimeBlock} {mode : Byte}
    (h : t.inDomain = false ∨ 1 < mode.toNat) : clkBuild t mode = .error .outOfRange := by
  by_cases hm : 1 < mode.toNat
  · simp [clkBuild, modeOperand_none hm]
  · simp [clkBuild, modeOperand_some (show mode.toNat ≤ 1 by omega), buildClockWrite,
      calendarTime_inRange, h.resolve_right hm]

theorem clkParse_ok (b0 b1 b2 b3 b4 b5 b6 : Byte) :
    ∃ qs, clkParse 7 [b0, b1, b2, b3, b4, b5, b6] = .ok qs ∧
      responseOf qs = clockReport b0 b1 b2 b3 b4 b5 b6 := by
  refine ⟨_, rfl, ?_⟩
  simp only [ClockReading.results, List.getD_cons_zero, List.getD_cons_succ, decodeHour_hour24,
    unBCD_eq_digits]
  rw [decodeHour_eq]
  simp only [responseOf, clockReport, List.getD_cons_zero, List.getD_cons_succ]
  cases inTwelveHourForm b2 <;> rfl

/-! ## Alarms -/

/-- 43_alarm.md R250: the forced match-mask bit changes no legal value. -/
theorem alarmField_eq_packed {v : Nat} (h : v ≤ 59) : alarmField v = packed v := by
  apply BitVec.eq_of_toNat_eq
  rw [alarmField, bcd_eq_packed (by omega), toNat_and_7F, packed_toNat (by omega)]
  omega

theorem alarmHour_eq_packed {h : Nat} (hh : h ≤ 23) : alarmHour h = packed h :=
  alarmField_eq_packed (v := h) (by omega)

/-- 30_encoding.md R108. -/
theorem variantOperand_none {v : Byte} (h : 2 < v.toNat) : variantOperand v = none := by
  have h0 : v ≠ 0 := by rintro rfl; simp at h
  have h1 : v ≠ 1 := by rintro rfl; simp at h
  have h2 : v ≠ 2 := by rintro rfl; simp at h
  rw [variantOperand, if_neg h0, if_neg h1, if_neg h2]

theorem variant_cases {v : Byte} (h : v.toNat ≤ 2) : v = 0 ∨ v = 1 ∨ v = 2 := by
  have : v.toNat = 0 ∨ v.toNat = 1 ∨ v.toNat = 2 := by omega
  rcases this with h | h | h
  · exact .inl (BitVec.eq_of_toNat_eq (by simpa using h))
  · exact .inr (.inl (BitVec.eq_of_toNat_eq (by simpa using h)))
  · exact .inr (.inr (BitVec.eq_of_toNat_eq (by simpa using h)))

/-- 43_alarm.md R251 for day 1..7 under DayMatch: bit 6 and BCD do not overlap. -/
theorem dayMatch_byte {d : Nat} (h : d ≤ 7) :
    0x40 ||| bcd d = (BitVec.ofNat 8 (64 + 16 * (d / 10) + d % 10) : Byte) := by
  have : ∀ d < 8, 0x40 ||| bcd d = (BitVec.ofNat 8 (64 + 16 * (d / 10) + d % 10) : Byte) := by
    decide
  exact this d (by omega)

theorem dayInRange_eq {v dd : Byte} {w : AlarmVariant} (hv : variantOperand v = some w) :
    dayInRange w dd.toNat = alarmDayInDomain v dd := by
  unfold variantOperand at hv
  split at hv
  · cases hv; simp_all [dayInRange, alarmDayInDomain]
  · split at hv
    · cases hv; simp_all [dayInRange, alarmDayInDomain]
    · split at hv
      · cases hv; simp_all [dayInRange, alarmDayInDomain]
      · cases hv

theorem dayDateByte_eq {v dd : Byte} {w : AlarmVariant} (hv : variantOperand v = some w)
    (hd : alarmDayInDomain v dd = true) : dayDateByte w dd.toNat = alarmDayByte v dd := by
  unfold variantOperand at hv
  split at hv
  · cases hv; simp_all [dayDateByte, alarmDayByte]
  · split at hv
    · cases hv
      simp_all [alarmDayInDomain]
      simp_all [dayDateByte, alarmDayByte, bcd_eq_packed (show dd.toNat ≤ 99 by omega)]
    · split at hv
      · cases hv
        simp_all [alarmDayInDomain]
        simp_all [dayDateByte, alarmDayByte]
        exact dayMatch_byte hd.2
      · cases hv

theorem variantOperand_some {v : Byte} (h : v.toNat ≤ 2) :
    ∃ w, variantOperand v = some w ∧ (w = .timeOnly ↔ v = 0) := by
  rcases variant_cases h with rfl | rfl | rfl
  · exact ⟨.timeOnly, rfl, by simp⟩
  · exact ⟨.dateMatch, rfl, by decide⟩
  · exact ⟨.dayMatch, rfl, by decide⟩

/-- 43_alarm.md R252, R260. -/
theorem a1Enc_ok {v sec min hour dd : Byte} (hv : v.toNat ≤ 2) (hs : sec.toNat ≤ 59)
    (hm : min.toNat ≤ 59) (hh : hour.toNat ≤ 23) (hd : alarmDayInDomain v dd = true) :
    a1Enc v sec min hour dd = .ok (alarm1Image v sec min hour dd) := by
  obtain ⟨w, hw, -⟩ := variantOperand_some hv
  simp [a1Enc, alarmOperand, hw, encodeAlarm1, dayInRange_eq hw, hd, alarm1Image,
    alarmField_eq_packed hs, alarmField_eq_packed hm, alarmHour_eq_packed hh,
    dayDateByte_eq hw hd, Nat.not_lt.2 hs, Nat.not_lt.2 hm, Nat.not_lt.2 hh]

theorem a1Enc_error {v sec min hour dd : Byte}
    (h : 2 < v.toNat ∨ 59 < sec.toNat ∨ 59 < min.toNat ∨ 23 < hour.toNat ∨
      alarmDayInDomain v dd = false) :
    a1Enc v sec min hour dd = .error .outOfRange := by
  by_cases hv : 2 < v.toNat
  · simp [a1Enc, alarmOperand, variantOperand_none hv]
  · obtain ⟨w, hw, -⟩ := variantOperand_some (show v.toNat ≤ 2 by omega)
    simp only [a1Enc, alarmOperand, hw, encodeAlarm1, dayInRange_eq hw]
    split
    · rfl
    · rename_i hf
      simp only [gt_iff_lt, Bool.or_eq_true, decide_eq_true_eq, not_or] at hf
      have : alarmDayInDomain v dd = false := by
        rcases h with h | h | h | h | h
        · exact absurd h hv
        · exact absurd h hf.1.1
        · exact absurd h hf.1.2
        · exact absurd h hf.2
        · exact h
      simp [this]

/-- 43_alarm.md R253, R261. -/
theorem a2Enc_timeOnly (min hour dd : Byte) :
    a2Enc 0 min hour dd = .error .unsupportedAlarmVariant := rfl

theorem a2Enc_ok {v min hour dd : Byte} (h0 : v ≠ 0) (hv : v.toNat ≤ 2) (hm : min.toNat ≤ 59)
    (hh : hour.toNat ≤ 23) (hd : alarmDayInDomain v dd = true) :
    a2Enc v min hour dd = .ok (alarm2Image v min hour dd) := by
  obtain ⟨w, hw, ht⟩ := variantOperand_some hv
  have hw0 : w ≠ .timeOnly := fun e => h0 (ht.1 e)
  simp [a2Enc, alarmOperand, hw, encodeAlarm2, dayInRange_eq hw, hd, alarm2Image, hw0,
    alarmField_eq_packed hm, alarmHour_eq_packed hh, dayDateByte_eq hw hd,
    Nat.not_lt.2 hm, Nat.not_lt.2 hh]

theorem a2Enc_error {v min hour dd : Byte} (h0 : v ≠ 0)
    (h : 2 < v.toNat ∨ 59 < min.toNat ∨ 23 < hour.toNat ∨ alarmDayInDomain v dd = false) :
    a2Enc v min hour dd = .error .outOfRange := by
  by_cases hv : 2 < v.toNat
  · simp [a2Enc, alarmOperand, variantOperand_none hv]
  · obtain ⟨w, hw, ht⟩ := variantOperand_some (show v.toNat ≤ 2 by omega)
    simp only [a2Enc, alarmOperand, hw, encodeAlarm2, dayInRange_eq hw]
    rw [if_neg (by simpa [ht] using h0)]
    split
    · rfl
    · rename_i hf
      simp only [gt_iff_lt, Bool.or_eq_true, decide_eq_true_eq, not_or] at hf
      have : alarmDayInDomain v dd = false := by
        rcases h with h | h | h | h
        · exact absurd h hv
        · exact absurd h hf.1
        · exact absurd h hf.2
        · exact h
      simp [this]

/-- 43_alarm.md R254. -/
theorem variantOf_code (b : Byte) : (variantOf b).code = variantCode b := by
  have := b.isLt
  unfold variantOf variantCode
  rw [bitOf_eq, bitOf_eq]
  by_cases h7 : b.toNat ≥ 128
  · rw [if_pos (by simp; omega), if_pos h7]; rfl
  · rw [if_neg (by simp; omega), if_neg h7]
    by_cases h6 : b.toNat ≥ 64
    · rw [if_pos (by simp; omega), if_pos h6]; rfl
    · rw [if_neg (by simp; omega), if_neg h6]; rfl

/-- 43_alarm.md R255, R256. -/
theorem dayOf_eq (b : Byte) : dayOf b = alarmDay b := by
  have := b.isLt
  unfold dayOf variantOf alarmDay
  rw [bitOf_eq, bitOf_eq, unBCD_eq_digits, toNat_and_3F]
  by_cases h7 : b.toNat ≥ 128
  · rw [if_pos (by simp; omega), if_pos h7]
  · rw [if_neg (by simp; omega), if_neg h7]
    by_cases h6 : b.toNat / 2 ^ 6 % 2 = 1
    · rw [if_pos (by simpa using h6)]
    · rw [if_neg (by simpa using h6)]

theorem decodeAlarm1_ok (b0 b1 b2 b3 : Byte) :
    ∃ qs, alarmResults (decodeAlarm1 4 [b0, b1, b2, b3]) = .ok qs ∧
      responseOf qs = alarm1Report b0 b1 b2 b3 := by
  refine ⟨_, rfl, ?_⟩
  simp only [AlarmSpec.results, List.getD_cons_zero, List.getD_cons_succ, decodeHour_hour24,
    unBCD_eq_digits, toNat_and_7F, clockHour_and_7F, variantOf_code, dayOf_eq]
  rfl

theorem decodeAlarm2_ok (b0 b1 b2 : Byte) :
    ∃ qs, alarmResults (decodeAlarm2 3 [b0, b1, b2]) = .ok qs ∧
      responseOf qs = alarm2Report b0 b1 b2 := by
  refine ⟨_, rfl, ?_⟩
  simp only [AlarmSpec.results, List.getD_cons_zero, List.getD_cons_succ, decodeHour_hour24,
    unBCD_eq_digits, toNat_and_7F, clockHour_and_7F, variantOf_code, dayOf_eq]
  rfl

/-! ## Status and control -/

/-- 44_status_control.md R285. -/
theorem statusResults_response (b : Byte) : responseOf (statusResults b) = statusReport b := by
  have := b.isLt
  have h7 : (b.toNat / 2 ^ 7 % 2 = 1) ↔ b.toNat ≥ 128 := by omega
  simp only [statusResults, responseOf, statusReport, decodeStatus, bitOf_eq, h7,
    List.getD_cons_zero, List.getD_cons_succ, Nat.pow_zero, Nat.div_one, Nat.pow_one]
  rfl

/-- 44_status_control.md R283, R284: the rate code of a control byte is its bits [4:3]. -/
theorem rateBits_rateOf {c : Nat} (h : c < 4) :
    squareWaveRateBits (rateOf c) = BitVec.ofNat 8 c := by
  have : ∀ c < 4, squareWaveRateBits (rateOf c) = BitVec.ofNat 8 c := by decide
  exact this c h

/-- 44_status_control.md R289. -/
theorem controlResults_response (b : Byte) : responseOf (controlResults b) = controlReport b := by
  have hf : fieldOf b 4 3 = b.toNat / 8 % 4 := rfl
  simp only [controlResults, responseOf, controlReport, decodeControl, bitOf_eq, hf,
    rateBits_rateOf (show b.toNat / 8 % 4 < 4 by omega),
    List.getD_cons_zero, List.getD_cons_succ, Nat.pow_zero, Nat.div_one, Nat.pow_one]
  rfl

theorem checkedSelect_ok {p : Byte} (h : p.toNat ≤ 3) : checkedSelect p = .ok p := by
  simp [checkedSelect, selectOperand, h]

theorem checkedSelect_error {p : Byte} (h : 3 < p.toNat) :
    checkedSelect p = .error .outOfRange := by
  simp [checkedSelect, selectOperand, Nat.not_le.2 h]

theorem rate_cases {p : Byte} (h : p.toNat ≤ 3) : p = 0 ∨ p = 1 ∨ p = 2 ∨ p = 3 := by
  have : p.toNat = 0 ∨ p.toNat = 1 ∨ p.toNat = 2 ∨ p.toNat = 3 := by omega
  rcases this with h | h | h | h
  · exact .inl (BitVec.eq_of_toNat_eq (by simpa using h))
  · exact .inr (.inl (BitVec.eq_of_toNat_eq (by simpa using h)))
  · exact .inr (.inr (.inl (BitVec.eq_of_toNat_eq (by simpa using h))))
  · exact .inr (.inr (.inr (BitVec.eq_of_toNat_eq (by simpa using h))))

/-- 44_status_control.md R284: the operand code of a rate is its 2-bit code. -/
theorem checkedRate_ok {p : Byte} (h : p.toNat ≤ 3) :
    ∃ r, checkedRate p = .ok r ∧ squareWaveRateBits r = p := by
  rcases rate_cases h with rfl | rfl | rfl | rfl
  · exact ⟨.hz1, rfl, rfl⟩
  · exact ⟨.khz1_024, rfl, rfl⟩
  · exact ⟨.khz4_096, rfl, rfl⟩
  · exact ⟨.khz8_192, rfl, rfl⟩

theorem rateOperand_none {p : Byte} (h : 3 < p.toNat) : rateOperand p = none := by
  have h0 : p ≠ 0 := by rintro rfl; simp at h
  have h1 : p ≠ 1 := by rintro rfl; simp at h
  have h2 : p ≠ 2 := by rintro rfl; simp at h
  have h3 : p ≠ 3 := by rintro rfl; simp at h
  rw [rateOperand, if_neg h0, if_neg h1, if_neg h2, if_neg h3]

theorem checkedRate_error {p : Byte} (h : 3 < p.toNat) :
    checkedRate p = .error .outOfRange := by
  simp [checkedRate, rateOperand_none h]

theorem controlInDomain_iff (i a1 a2 r : Byte) : controlInDomain i a1 a2 r = true ↔
    i.toNat ≤ 1 ∧ a1.toNat ≤ 1 ∧ a2.toNat ≤ 1 ∧ r.toNat ≤ 3 := by
  simp [controlInDomain, and_assoc]

/-- 44_status_control.md R282, R287, R295. -/
theorem checkedControlByte_ok {i a1 a2 r : Byte} (h : controlInDomain i a1 a2 r = true) :
    checkedControlByte i a1 a2 r = .ok (controlImage i a1 a2 r) := by
  obtain ⟨h1, h2, h3, h4⟩ := (controlInDomain_iff i a1 a2 r).1 h
  have two : ∀ p : Byte, p.toNat ≤ 1 → p = 0 ∨ p = 1 := fun p hp => by
    rcases Nat.le_one_iff_eq_zero_or_eq_one.1 hp with hp | hp
    · exact .inl (BitVec.eq_of_toNat_eq (by simpa using hp))
    · exact .inr (BitVec.eq_of_toNat_eq (by simpa using hp))
  rcases two i h1 with rfl | rfl <;> rcases two a1 h2 with rfl | rfl <;>
    rcases two a2 h3 with rfl | rfl <;> rcases rate_cases h4 with rfl | rfl | rfl | rfl <;> rfl

theorem checkedControlByte_error {i a1 a2 r : Byte} (h : controlInDomain i a1 a2 r = false) :
    checkedControlByte i a1 a2 r = .error .outOfRange := by
  have hn : ¬(i.toNat ≤ 1 ∧ a1.toNat ≤ 1 ∧ a2.toNat ≤ 1 ∧ r.toNat ≤ 3) := by
    rw [← controlInDomain_iff, h]; simp
  unfold checkedControlByte
  split
  · rename_i hi h1 h2 hr
    exact absurd ⟨by by_contra hc; simp [boolOperand_none (show 1 < i.toNat by omega)] at hi,
      by by_contra hc; simp [boolOperand_none (show 1 < a1.toNat by omega)] at h1,
      by by_contra hc; simp [boolOperand_none (show 1 < a2.toNat by omega)] at h2,
      by by_contra hc; simp [rateOperand_none (show 3 < r.toNat by omega)] at hr⟩ hn
  · rfl

/-! ## The bytes written back -/

/-- What holds of every upper three and lower five bits holds of every byte. -/
theorem byte_halves {P : Byte → Prop} (h : ∀ hi < 8, ∀ lo < 32, P (BitVec.ofNat 8 (hi * 32 + lo)))
    (x : Byte) : P x := by
  have := h (x.toNat / 32) (by have := x.isLt; omega) (x.toNat % 32) (by omega)
  rwa [show x.toNat / 32 * 32 + x.toNat % 32 = x.toNat by omega, BitVec.ofNat_toNat,
    BitVec.setWidth_eq] at this

/-- 44_status_control.md R292. -/
theorem withSquareWave_eq (r : SquareWaveRate) (x : Byte) :
    withSquareWave r x =
      BitVec.ofNat 8 (x.toNat / 32 * 32 + (squareWaveRateBits r).toNat * 8 + x.toNat % 4) := by
  revert x
  cases r <;> exact byte_halves (by decide)

/-- 44_status_control.md R293. -/
theorem withoutSquareWave_eq (x : Byte) :
    withoutSquareWave x = BitVec.ofNat 8 (x.toNat / 8 * 8 + 4 + x.toNat % 4) := by
  revert x
  exact byte_halves (by decide)

/-- 44_status_control.md R295. -/
theorem withControlBits_eq {w : Byte} (hw : w.toNat < 32) (x : Byte) :
    withControlBits w x = BitVec.ofNat 8 (x.toNat / 32 * 32 + w.toNat) := by
  refine BitVec.eq_of_toNat_eq ?_
  have h32 : (x &&& 0xE0).toNat = 2 ^ 5 * (x.toNat / 32) :=
    byte_halves (P := fun x => (x &&& 0xE0).toNat = 2 ^ 5 * (x.toNat / 32)) (by decide) x
  have := x.isLt
  rw [withControlBits, BitVec.toNat_or, h32, ← Nat.two_pow_add_eq_or_of_lt hw, BitVec.toNat_ofNat,
    Nat.mod_eq_of_lt (by omega)]
  omega

/-! ## Temperature -/

/-- 45_temperature.md R311. -/
theorem temperatureResults_response (msb lsb : Byte) :
    responseOf (temperatureResults msb lsb) = temperatureReport msb lsb := by
  have hm := msb.isLt
  have hl := lsb.isLt
  have hu : (decodeTemperature msb lsb % 65536).toNat =
      (if msb.toNat ≥ 128 then 65536 - 1024 else 0) + msb.toNat * 4 + lsb.toNat / 64 := by
    simp only [decodeTemperature, BitVec.toInt_eq_toNat_cond, fieldOf]
    split <;> split <;> omega
  simp only [temperatureResults, temperatureReport, responseOf, hu, byteOf,
    List.getD_cons_zero, List.getD_cons_succ]
  rfl

end Sys2Proof.Machine
end

