-- ==== Sys2Proof/Laws/Exec.lean ====
section
/-! SUPPORT. Everything a command can do, said once (`exec_ends`): it raises the error its operands give;
or, being pure, it answers; or it ends at one of the ends of its read, its write, or its
read-modify-write. And everything that a late answer to its request can lead to (`resume_resumes`). -/

namespace Sys2Proof.Machine

open Sys2Proof

/-- What a read-modify-write keeps of the byte `d` that was delivered, in the byte `w` that it writes. -/
def Preserves (b : Burst) (d w : Byte) : Prop :=
  (b = .status ∧ w &&& 0xFC = d &&& 0xFC ∧ w &&& d = w) ∨ (b = .control ∧ w &&& 0xE0 = d &&& 0xE0)

/-- The states in which a command can end, each with what brings it there. -/
inductive Ends (i : Instr) (s : State) : State → Prop where
  | input (e : ErrorKind) (h : i.inputError = some e) : Ends i s (rejected s (codeOf e))
  | pure (f : RspFrame) (h : i.inputError = none) (hp : i.isPure = true) (hf : f.err = 0) :
    Ends i s (answered s f)
  | readSilent (b : Burst) (h : i.inputError = none) (hp : i.isPure = false)
    (hb : i.bursts.head? = some (Request.shape (.read b))) (ha : nextAnswer s = .silent) :
    Ends i s (waitingFor s (.read b))
  | readFail (b : Burst) (h : i.inputError = none) (hp : i.isPure = false)
    (hb : i.bursts.head? = some (Request.shape (.read b))) (ha : nextAnswer s = .fail) :
    Ends i s (rejected (requested s (.read b)) 4)
  | readBadCount (b : Burst) (ds : List Byte) (h : i.inputError = none) (hp : i.isPure = false)
    (hb : i.bursts.head? = some (Request.shape (.read b))) (ha : nextAnswer s = .ok ds)
    (hc : ds.length ≠ b.count) :
    Ends i s (rejected (requested s (.read b)) 3)
  | readDone (b : Burst) (ds : List Byte) (f : RspFrame) (h : i.inputError = none)
    (hp : i.isPure = false) (hb : i.bursts = [Request.shape (.read b)])
    (ha : nextAnswer s = .ok ds) (hc : ds.length = b.count) (hf : f.err = 0) :
    Ends i s (answered (requested s (.read b)) f)
  | writeSilent (b : Burst) (bytes : List Byte) (h : i.inputError = none) (hp : i.isPure = false)
    (hb : i.bursts = [Request.shape (.write b bytes)]) (hl : (Request.write b bytes).legal = true)
    (ha : nextAnswer s = .silent) (hs : i.setRequest = some (.write b bytes)) :
    Ends i s (waitingFor s (.write b bytes))
  | writeFail (b : Burst) (bytes : List Byte) (h : i.inputError = none) (hp : i.isPure = false)
    (hb : i.bursts = [Request.shape (.write b bytes)]) (hl : (Request.write b bytes).legal = true)
    (ha : nextAnswer s = .fail) (hs : i.setRequest = some (.write b bytes)) :
    Ends i s (rejected { requested s (.write b bytes) with regs := s.regs.forget b.base b.count } 4)
  | writeDone (b : Burst) (bytes ds : List Byte) (h : i.inputError = none) (hp : i.isPure = false)
    (hb : i.bursts = [Request.shape (.write b bytes)]) (hl : (Request.write b bytes).legal = true)
    (ha : nextAnswer s = .ok ds) (hs : i.setRequest = some (.write b bytes)) :
    Ends i s (answered { requested s (.write b bytes) with regs := s.regs.putBytes b.base bytes } {})
  | modifySilent (b : Burst) (d w : Byte) (h : i.inputError = none) (hp : i.isPure = false)
    (hb : i.bursts = [Request.shape (.read b), Request.shape (.write b [w])])
    (hw : Preserves b d w) (ha : nextAnswer s = .ok [d])
    (ha2 : nextAnswer (requested s (.read b)) = .silent)
    (hr : w = i.rewritten (peerByte s.regs b.base d)) :
    Ends i s (waitingFor (requested s (.read b)) (.write b [w]))
  | modifyFail (b : Burst) (d w : Byte) (h : i.inputError = none) (hp : i.isPure = false)
    (hb : i.bursts = [Request.shape (.read b), Request.shape (.write b [w])])
    (hw : Preserves b d w) (ha : nextAnswer s = .ok [d])
    (ha2 : nextAnswer (requested s (.read b)) = .fail)
    (hr : w = i.rewritten (peerByte s.regs b.base d)) :
    Ends i s (rejected { requested (requested s (.read b)) (.write b [w]) with
      regs := s.regs.forget b.base 1 } 4)
  | modifyDone (b : Burst) (d w : Byte) (ds : List Byte) (h : i.inputError = none)
    (hp : i.isPure = false)
    (hb : i.bursts = [Request.shape (.read b), Request.shape (.write b [w])])
    (hw : Preserves b d w) (ha : nextAnswer s = .ok [d])
    (ha2 : nextAnswer (requested s (.read b)) = .ok ds)
    (hr : w = i.rewritten (peerByte s.regs b.base d)) :
    Ends i s (answered { requested (requested s (.read b)) (.write b [w]) with
      regs := s.regs.put b.base w } { q1 := w })

/-! ## The shapes of the meanings -/

theorem ends_withResult {α : Type} {i : Instr} {s : State} {r : Except ErrorKind α}
    {k : α → State} (herr : ∀ e, r = .error e → i.inputError = some e)
    (hok : ∀ a, r = .ok a → Ends i s (k a)) : Ends i s (withResult r s k) := by
  cases r with
  | error e =>
    rw [withResult_error, raise_eq_rejected]
    exact .input e (herr e rfl)
  | ok a => exact hok a rfl

theorem ends_respond {i : Instr} {s : State} {r : Except ErrorKind (List Byte)}
    (hp : i.isPure = true) (herr : ∀ e, r = .error e → i.inputError = some e)
    (hok : ∀ a, r = .ok a → i.inputError = none) : Ends i s (respond r s) :=
  ends_withResult herr fun qs h => .pure (responseOf qs) (hok qs h) hp rfl

theorem ends_complete {i : Instr} {s : State} (hp : i.isPure = true) (h : i.inputError = none)
    (qs : List Byte) : Ends i s (complete qs s) := .pure (responseOf qs) h hp rfl

theorem ends_memRead {i : Instr} {s : State} {b : Burst} {k : List Byte → State → State}
    (h : i.inputError = none) (hp : i.isPure = false) (hb : i.bursts = [Request.shape (.read b)])
    (hk : ∀ bs s1, bs.length = b.count → ∃ f : RspFrame, f.err = 0 ∧ k bs s1 = answered s1 f) :
    Ends i s (memRead b s k) := by
  have hh : i.bursts.head? = some (Request.shape (.read b)) := by rw [hb]; rfl
  refine memRead_elim (.readSilent b h hp hh) (.readFail b h hp hh)
    (fun ds ha hc => .readBadCount b ds h hp hh ha hc) fun ds ha hc => ?_
  obtain ⟨f, hf, e⟩ := hk (peerBytes s.regs b.base ds) (requested s (.read b))
    (by rw [peerBytes_length, hc])
  rw [e]
  exact .readDone b ds f h hp hb ha hc hf

theorem ends_memWrite {i : Instr} {s : State} {b : Burst} {bytes : List Byte}
    (h : i.inputError = none) (hp : i.isPure = false)
    (hb : i.bursts = [Request.shape (.write b bytes)])
    (hl : (Request.write b bytes).legal = true) (hs : i.setRequest = some (.write b bytes)) :
    Ends i s (memWrite b bytes s (complete [])) :=
  memWrite_elim (fun ha => .writeSilent b bytes h hp hb hl ha hs)
    (fun ha => .writeFail b bytes h hp hb hl ha hs) fun ds ha => .writeDone b bytes ds h hp hb hl ha hs

theorem ends_readModifyWrite {i : Instr} {s : State} {b : Burst} {f : Byte → Byte}
    (h : i.inputError = none) (hp : i.isPure = false) (hc : b.count = 1)
    (hb : i.bursts = [(false, b.base, 1), (true, b.base, 1)])
    (hw : ∀ d, Preserves b d (f (peerByte s.regs b.base d))) (hr : ∀ x, f x = i.rewritten x) :
    Ends i s (readModifyWrite b f s) := by
  have hh : i.bursts.head? = some (Request.shape (.read b)) := by rw [hb, Request.shape, hc]; rfl
  have hs : ∀ w : Byte, i.bursts = [Request.shape (.read b), Request.shape (.write b [w])] := by
    intro w; rw [hb, Request.shape, Request.shape, hc]; rfl
  refine readModifyWrite_elim hc (.readSilent b h hp hh) (.readFail b h hp hh)
    (fun ds ha hn => .readBadCount b ds h hp hh ha (hc ▸ hn)) ?_ ?_ ?_
  · rintro d w ha rfl ha2; exact .modifySilent b d _ h hp (hs _) (hw d) ha ha2 (hr _)
  · rintro d w ha rfl ha2; exact .modifyFail b d _ h hp (hs _) (hw d) ha ha2 (hr _)
  · rintro d w ds ha rfl ha2; exact .modifyDone b d _ ds h hp (hs _) (hw d) ha ha2 (hr _)

/-! ## Bits kept by the read-modify-writes -/

theorem mask_or {c m : Byte} (h : c &&& m = 0) (x : Byte) : (x ||| c) &&& m = x &&& m := by
  ext k hk
  have := congrArg (BitVec.getLsbD · k) h
  simp only [BitVec.getLsbD_eq_getElem hk, BitVec.getElem_and, BitVec.getElem_or] at this ⊢
  rw [Bool.and_or_distrib_right, this]
  simp

theorem mask_and {c m : Byte} (h : c &&& m = m) (x : Byte) : (x &&& c) &&& m = x &&& m := by
  rw [BitVec.and_assoc, h]

theorem clearFlags_preserves (d : Byte) {sel : Byte} (h : sel.toNat ≤ 3) :
    Preserves .status d (clearFlags d sel) := by
  refine .inl ⟨rfl, ?_, ?_⟩
  · have hz : ~~~sel &&& 0xFC = (0xFC : Byte) := by rcases rate_cases h with rfl | rfl | rfl | rfl <;> rfl
    exact mask_and hz d
  · rw [clearFlags, BitVec.and_comm, ← BitVec.and_assoc, BitVec.and_self]

/-- The high bits of the control byte are its draw's (10_state.md R43). -/
theorem peerByte_control_high (m : Memory) (d : Byte) : peerByte m 0x0E d &&& 0xE0 = d &&& 0xE0 := by
  cases h : m.byteAt 0x0E with
  | none => rw [peerByte_unknown h]
  | some b =>
    have hz : (b &&& 0x1F) &&& 0xE0 = (0 : Byte) := by
      rw [BitVec.and_assoc]; exact BitVec.and_zero
    rw [peerByte_mixed rfl h, BitVec.or_comm, mask_or hz]
    exact mask_and rfl d

theorem withSquareWave_high (r : SquareWaveRate) (x : Byte) :
    withSquareWave r x &&& 0xE0 = x &&& 0xE0 := by
  have hz : (squareWaveRateBits r <<< 3) &&& (0xE0 : Byte) = 0 := by cases r <;> rfl
  rw [withSquareWave, mask_or hz]
  exact mask_and rfl x

theorem withoutSquareWave_high (x : Byte) : withoutSquareWave x &&& 0xE0 = x &&& 0xE0 :=
  mask_or rfl x

theorem withControlBits_high {w : Byte} (hw : w &&& 0xE0 = 0) (x : Byte) :
    withControlBits w x &&& 0xE0 = x &&& 0xE0 := by
  rw [withControlBits, mask_or hw]
  exact mask_and rfl x

theorem controlImage_high {i a1 a2 r : Byte} (h : controlInDomain i a1 a2 r = true) :
    controlImage i a1 a2 r &&& 0xE0 = 0 := by
  obtain ⟨h1, h2, h3, h4⟩ := (controlInDomain_iff i a1 a2 r).1 h
  have two : ∀ p : Byte, p.toNat ≤ 1 → p = 0 ∨ p = 1 := fun p hp => by
    rcases Nat.le_one_iff_eq_zero_or_eq_one.1 hp with hp | hp
    · exact .inl (BitVec.eq_of_toNat_eq (by simpa using hp))
    · exact .inr (BitVec.eq_of_toNat_eq (by simpa using hp))
  rcases two i h1 with rfl | rfl <;> rcases two a1 h2 with rfl | rfl <;>
    rcases two a2 h3 with rfl | rfl <;> rcases rate_cases h4 with rfl | rfl | rfl | rfl <;> rfl

theorem controlImage_lt {i a1 a2 r : Byte} (h : controlInDomain i a1 a2 r = true) :
    (controlImage i a1 a2 r).toNat < 32 := by
  have := (controlInDomain_iff i a1 a2 r).1 h
  rw [controlImage, BitVec.toNat_ofNat, Nat.mod_eq_of_lt (by omega)]
  omega

/-! ## Input errors of the operand blocks -/

theorem clkBuild_cases (t : TimeBlock) (mode : Byte) :
    (clkBuild t mode = .error .outOfRange ∧ (t.inDomain = false ∨ 1 < mode.toNat)) ∨
    (clkBuild t mode = .ok (clockImage t (mode.toNat = 1)) ∧ t.inDomain = true ∧
      mode.toNat ≤ 1) := by
  by_cases h : t.inDomain = false ∨ 1 < mode.toNat
  · exact .inl ⟨clkBuild_error h, h⟩
  · simp only [not_or, Bool.not_eq_false, not_lt] at h
    exact .inr ⟨clkBuild_ok h.1 h.2, h⟩

theorem a1Enc_cases (v sec min hour dd : Byte) :
    (a1Enc v sec min hour dd = .error .outOfRange ∧
      (2 < v.toNat ∨ 59 < sec.toNat ∨ 59 < min.toNat ∨ 23 < hour.toNat ∨
        alarmDayInDomain v dd = false)) ∨
    (a1Enc v sec min hour dd = .ok (alarm1Image v sec min hour dd) ∧ v.toNat ≤ 2 ∧
      sec.toNat ≤ 59 ∧ min.toNat ≤ 59 ∧ hour.toNat ≤ 23 ∧ alarmDayInDomain v dd = true) := by
  by_cases h : 2 < v.toNat ∨ 59 < sec.toNat ∨ 59 < min.toNat ∨ 23 < hour.toNat ∨
      alarmDayInDomain v dd = false
  · exact .inl ⟨a1Enc_error h, h⟩
  · simp only [not_or, Bool.not_eq_false, not_lt] at h
    exact .inr ⟨a1Enc_ok h.1 h.2.1 h.2.2.1 h.2.2.2.1 h.2.2.2.2, h⟩

theorem a2Enc_cases (v min hour dd : Byte) :
    (a2Enc v min hour dd = .error .unsupportedAlarmVariant ∧ v = 0) ∨
    (a2Enc v min hour dd = .error .outOfRange ∧ v ≠ 0 ∧
      (2 < v.toNat ∨ 59 < min.toNat ∨ 23 < hour.toNat ∨ alarmDayInDomain v dd = false)) ∨
    (a2Enc v min hour dd = .ok (alarm2Image v min hour dd) ∧ v ≠ 0 ∧ v.toNat ≤ 2 ∧
      min.toNat ≤ 59 ∧ hour.toNat ≤ 23 ∧ alarmDayInDomain v dd = true) := by
  by_cases h0 : v = 0
  · exact .inl ⟨by rw [h0]; rfl, h0⟩
  · by_cases h : 2 < v.toNat ∨ 59 < min.toNat ∨ 23 < hour.toNat ∨ alarmDayInDomain v dd = false
    · exact .inr (.inl ⟨a2Enc_error h0 h, h0, h⟩)
    · simp only [not_or, Bool.not_eq_false, not_lt] at h
      exact .inr (.inr ⟨a2Enc_ok h0 h.1 h.2.1 h.2.2.1 h.2.2.2, h0, h⟩)

theorem a1_inputError_eq (v sec min hour dd : Byte) {i : Instr}
    (hi : i = .a1Enc v sec min hour dd ∨ i = .a1Set v sec min hour dd) :
    (∀ e, a1Enc v sec min hour dd = .error e → i.inputError = some e) ∧
    (∀ a, a1Enc v sec min hour dd = .ok a →
      i.inputError = none ∧ a = alarm1Image v sec min hour dd) := by
  rcases a1Enc_cases v sec min hour dd with ⟨he, h⟩ | ⟨he, h1, h2, h3, h4, h5⟩
  · refine ⟨fun e h' => ?_, fun a h' => (by rw [he] at h'; cases h')⟩
    rw [he] at h'; cases h'
    by_cases hv : 2 < v.toNat
    · rcases hi with rfl | rfl <;> simp [Instr.inputError, Instr.countWrong, Instr.variantUnknown, hv]
    · have h := h.resolve_left hv
      rcases hi with rfl | rfl <;>
        simp [Instr.inputError, Instr.countWrong, Instr.variantUnknown, hv,
          Instr.timeOnlyForAlarm2, Instr.operandOutOfDomain, or_assoc, h]
  · refine ⟨fun e h' => (by rw [he] at h'; cases h'), fun a h' => ?_⟩
    rw [he] at h'; cases h'
    rcases hi with rfl | rfl <;>
      simp [Instr.inputError, Instr.countWrong, Instr.variantUnknown, Instr.timeOnlyForAlarm2,
        Instr.operandOutOfDomain, Nat.not_lt.2 h1, Nat.not_lt.2 h2, Nat.not_lt.2 h3,
        Nat.not_lt.2 h4, h5]

theorem a2_inputError_eq (v min hour dd : Byte) {i : Instr}
    (hi : i = .a2Enc v min hour dd ∨ i = .a2Set v min hour dd) :
    (∀ e, a2Enc v min hour dd = .error e → i.inputError = some e) ∧
    (∀ a, a2Enc v min hour dd = .ok a →
      i.inputError = none ∧ a = alarm2Image v min hour dd) := by
  rcases a2Enc_cases v min hour dd with ⟨he, h0⟩ | ⟨he, h0, h⟩ | ⟨he, h0, h1, h2, h3, h4⟩
  · refine ⟨fun e h' => ?_, fun a h' => (by rw [he] at h'; cases h')⟩
    rw [he] at h'; cases h'
    subst h0
    rcases hi with rfl | rfl <;>
      simp [Instr.inputError, Instr.countWrong, Instr.variantUnknown, Instr.timeOnlyForAlarm2]
  · refine ⟨fun e h' => ?_, fun a h' => (by rw [he] at h'; cases h')⟩
    rw [he] at h'; cases h'
    have h0' : ¬ v = 0#8 := h0
    by_cases hv : 2 < v.toNat
    · rcases hi with rfl | rfl <;> simp [Instr.inputError, Instr.countWrong, Instr.variantUnknown, hv]
    · have h := h.resolve_left hv
      rcases hi with rfl | rfl <;>
        simp [Instr.inputError, Instr.countWrong, Instr.variantUnknown, hv, h0',
          Instr.timeOnlyForAlarm2, Instr.operandOutOfDomain, or_assoc, h]
  · refine ⟨fun e h' => (by rw [he] at h'; cases h'), fun a h' => ?_⟩
    rw [he] at h'; cases h'
    have h0' : ¬ v = 0#8 := h0
    rcases hi with rfl | rfl <;>
      simp [Instr.inputError, Instr.countWrong, Instr.variantUnknown, Instr.timeOnlyForAlarm2,
        Instr.operandOutOfDomain, h0', Nat.not_lt.2 h1, Nat.not_lt.2 h2, Nat.not_lt.2 h3, h4]

theorem clk_inputError_eq (t : TimeBlock) (mode : Byte) {i : Instr}
    (hi : i = .clkBuild t mode ∨ i = .clkSet t mode) :
    (∀ e, clkBuild t mode = .error e → i.inputError = some e) ∧
    (∀ a, clkBuild t mode = .ok a →
      i.inputError = none ∧ a = clockImage t (mode.toNat = 1)) := by
  rcases clkBuild_cases t mode with ⟨he, h⟩ | ⟨he, h1, h2⟩
  · refine ⟨fun e h' => ?_, fun a h' => (by rw [he] at h'; cases h')⟩
    rw [he] at h'; cases h'
    rcases hi with rfl | rfl <;>
      simp [Instr.inputError, Instr.countWrong, Instr.variantUnknown, Instr.timeOnlyForAlarm2,
        Instr.operandOutOfDomain, h.symm]
  · refine ⟨fun e h' => (by rw [he] at h'; cases h'), fun a h' => ?_⟩
    rw [he] at h'; cases h'
    rcases hi with rfl | rfl <;>
      simp [Instr.inputError, Instr.countWrong, Instr.variantUnknown, Instr.timeOnlyForAlarm2,
        Instr.operandOutOfDomain, h1, h2]

/-! ## Every command -/

/-- The operand check of a command that has no count and no alarm variant. -/
theorem inputError_of_plain {i : Instr} (hc : i.countWrong = false) (hv : i.variantUnknown = false)
    (ht : i.timeOnlyForAlarm2 = false) :
    i.inputError = if i.operandOutOfDomain then some .outOfRange else none := by
  simp [Instr.inputError, hc, hv, ht]

/-- A checked operand goes wrong with OutOfRange exactly when the check fails. -/
def Checks {α : Type} (i : Instr) (r : Except ErrorKind α) : Prop :=
  (i.inputError = some .outOfRange ∧ r = .error .outOfRange) ∨
    (i.inputError = none ∧ ∃ a, r = .ok a)

theorem Checks.error {α : Type} {i : Instr} {r : Except ErrorKind α} (h : Checks i r) (e : ErrorKind)
    (he : r = .error e) : i.inputError = some e := by
  rcases h with ⟨h, h'⟩ | ⟨_, a, h'⟩ <;> rw [h'] at he <;> cases he
  exact h

theorem Checks.ok {α : Type} {i : Instr} {r : Except ErrorKind α} (h : Checks i r) (a : α)
    (ha : r = .ok a) : i.inputError = none := by
  rcases h with ⟨_, h'⟩ | ⟨h, b, h'⟩ <;> rw [h'] at ha <;> cases ha
  exact h

/-- A check that is the command's operand domain. -/
theorem checks_of {α : Type} {i : Instr} {r : Except ErrorKind α} (hc : i.countWrong = false)
    (hv : i.variantUnknown = false) (ht : i.timeOnlyForAlarm2 = false)
    (herr : i.operandOutOfDomain = true → r = .error .outOfRange)
    (hok : i.operandOutOfDomain = false → ∃ a, r = .ok a) : Checks i r := by
  rw [Checks, inputError_of_plain hc hv ht]
  cases h : i.operandOutOfDomain with
  | true => exact .inl ⟨by simp, herr h⟩
  | false => exact .inr ⟨by simp, hok h⟩

theorem checks_select {i : Instr} {p : Byte} (hc : i.countWrong = false)
    (hv : i.variantUnknown = false) (ht : i.timeOnlyForAlarm2 = false)
    (hd : i.operandOutOfDomain = decide (3 < p.toNat)) : Checks i (checkedSelect p) :=
  checks_of hc hv ht (fun h => checkedSelect_error (by simpa [hd] using h))
    fun h => ⟨p, checkedSelect_ok (by simpa [hd] using h)⟩

theorem checks_rate {i : Instr} {p : Byte} (hc : i.countWrong = false)
    (hv : i.variantUnknown = false) (ht : i.timeOnlyForAlarm2 = false)
    (hd : i.operandOutOfDomain = decide (3 < p.toNat)) : Checks i (checkedRate p) :=
  checks_of hc hv ht (fun h => checkedRate_error (by simpa [hd] using h)) fun h => by
    obtain ⟨r, hr, -⟩ := checkedRate_ok (p := p) (by simpa [hd] using h)
    exact ⟨r, hr⟩

theorem checks_control {i : Instr} {p1 p2 p3 p4 : Byte} (hc : i.countWrong = false)
    (hv : i.variantUnknown = false) (ht : i.timeOnlyForAlarm2 = false)
    (hd : i.operandOutOfDomain = !controlInDomain p1 p2 p3 p4) :
    Checks i (checkedControlByte p1 p2 p3 p4) :=
  checks_of hc hv ht (fun h => checkedControlByte_error (by simpa [hd] using h))
    fun h => ⟨_, checkedControlByte_ok (by simpa [hd] using h)⟩

theorem control_outOfDomain (p1 p2 p3 p4 : Byte) :
    (decide (1 < p1.toNat) || decide (1 < p2.toNat) || decide (1 < p3.toNat) ||
      decide (3 < p4.toNat)) = !controlInDomain p1 p2 p3 p4 := by
  rw [Bool.eq_iff_iff]
  simp only [controlInDomain, Bool.or_eq_true, Bool.not_eq_true', Bool.and_eq_false_iff,
    decide_eq_true_eq, decide_eq_false_iff_not]
  omega

theorem checkedControlByte_high {p1 p2 p3 p4 w : Byte} (h : checkedControlByte p1 p2 p3 p4 = .ok w) :
    w &&& 0xE0 = 0 := by
  cases hd : controlInDomain p1 p2 p3 p4 with
  | true =>
    rw [checkedControlByte_ok hd] at h
    cases h
    exact controlImage_high hd
  | false => rw [checkedControlByte_error hd] at h; cases h

/-- The two commands with a mode and an hour. -/
theorem checks_hour {α : Type} {i : Instr} {m hr : Byte} {r : Except ErrorKind α}
    (hc : i.countWrong = false) (hv : i.variantUnknown = false) (ht : i.timeOnlyForAlarm2 = false)
    (hd : i.operandOutOfDomain = (decide (1 < m.toNat) || decide (23 < hr.toNat)))
    (h : (1 < m.toNat ∨ 23 < hr.toNat → r = .error .outOfRange) ∧
      (m.toNat ≤ 1 → hr.toNat ≤ 23 → ∃ a, r = .ok a)) : Checks i r :=
  checks_of hc hv ht (fun e => h.1 (by simpa [hd] using e)) fun e => by
    have e : m.toNat ≤ 1 ∧ hr.toNat ≤ 23 := by simpa [hd] using e
    exact h.2 e.1 e.2

theorem hourEnc_checks (m hr : Byte) :
    (1 < m.toNat ∨ 23 < hr.toNat → hourEnc m hr = .error .outOfRange) ∧
    (m.toNat ≤ 1 → hr.toNat ≤ 23 → ∃ a, hourEnc m hr = .ok a) := by
  by_cases hm : m.toNat ≤ 1
  · simp only [hourEnc, modeOperand_some hm]
    refine ⟨fun h => if_pos (by omega), fun _ h => ⟨_, if_neg (by omega)⟩⟩
  · rw [hourEnc, modeOperand_none (by omega)]
    exact ⟨fun _ => rfl, fun h => absurd h hm⟩

theorem hourDisp_checks (m hr : Byte) :
    (1 < m.toNat ∨ 23 < hr.toNat → hourDisp m hr = .error .outOfRange) ∧
    (m.toNat ≤ 1 → hr.toNat ≤ 23 → ∃ a, hourDisp m hr = .ok a) := by
  by_cases hm : m.toNat ≤ 1
  · simp only [hourDisp, modeOperand_some hm]
    refine ⟨fun h => if_pos (by omega), fun _ h => ⟨_, if_neg (by omega)⟩⟩
  · rw [hourDisp, modeOperand_none (by omega)]
    exact ⟨fun _ => rfl, fun h => absurd h hm⟩

theorem hourTo24_checks (hr pm : Byte) : Checks (.hourTo24 hr pm) (hourTo24 hr pm) := by
  refine checks_of rfl rfl rfl (fun h => ?_) fun h => ?_ <;>
    simp only [Instr.operandOutOfDomain, Bool.or_eq_true, Bool.or_eq_false_iff, decide_eq_true_eq,
      decide_eq_false_iff_not, not_lt] at h
  · by_cases hh : hr.toNat < 1 ∨ 12 < hr.toNat
    · exact if_pos (by simpa using hh)
    · rw [hourTo24, if_neg (by simpa using hh), boolOperand_none (by omega)]
  · rw [hourTo24, if_neg (by simp; omega), boolOperand_some h.2]
    exact ⟨_, rfl⟩

/-- The pure commands that decode register bytes: a wrong count, or a response. -/
theorem ends_count {i : Instr} {s : State} {r : Nat → Except ErrorKind (List Byte)} {c : Byte} (n : Byte)
    (hp : i.isPure = true) (hv : i.variantUnknown = false) (ht : i.timeOnlyForAlarm2 = false)
    (hd : i.operandOutOfDomain = false) (hc : i.countWrong = decide (c ≠ n))
    (hbad : ∀ k, k ≠ n.toNat → r k = .error .malformedRegisterData) (hok : ∃ qs, r n.toNat = .ok qs) :
    Ends i s (respond (r c.toNat) s) := by
  by_cases h : c = n
  · obtain ⟨qs, hq⟩ := hok
    rw [h, hq]
    exact ends_complete hp (by simp [Instr.inputError, hc, h, hv, ht, hd]) qs
  · rw [hbad _ (fun e => h (BitVec.eq_of_toNat_eq e)), respond_error, raise_eq_rejected]
    exact .input _ (by simp [Instr.inputError, hc, h])

theorem aOffset_checks (base : TimeBlock) (off : Byte) :
    Checks (.aOffset base off)
      (alarmResults (buildAlarmAtOffset (calendarTime base) off.toNat)) := by
  have hm : (calendarTime base).min = base.min.toNat := rfl
  have hh : (calendarTime base).hour = base.hour.toNat := rfl
  refine checks_of rfl rfl rfl (fun h => ?_) fun h => ?_ <;>
    simp only [Instr.operandOutOfDomain, Bool.or_eq_true, Bool.or_eq_false_iff, Bool.and_eq_true,
      Bool.and_eq_false_iff, decide_eq_true_eq, decide_eq_false_iff_not, Bool.not_eq_true',
      Bool.not_eq_false'] at h
  · have he : buildAlarmAtOffset (calendarTime base) off.toNat = .error .outOfRange := by
      simp only [buildAlarmAtOffset, calendarTime_inRange, hm, hh]
      by_cases hd : base.inDomain = true
      · have := (inDomain_iff base).1 hd
        simp only [hd, Bool.true_eq_false, false_or] at h
        rw [if_neg (by simp [hd])]
        split
        · rfl
        · rw [if_pos (by split <;> omega)]
      · rw [if_pos (by simpa using hd)]
    rw [he]; rfl
  · have := (inDomain_iff base).1 h.1.1
    simp only [buildAlarmAtOffset, calendarTime_inRange, hm, hh]
    rw [if_neg (by simp [h.1.1]), if_neg (by omega), if_neg fun e => (by split at e <;> omega)]
    exact ⟨_, rfl⟩

/-- Everything a command can do. -/
theorem exec_ends {i : Instr} {s t : State} (h : exec i s = .next t) : Ends i s t := by
  cases i with
  | bcdPack v =>
    cases h
    have c : Checks (.bcdPack v) (bcdPack v) := checks_of rfl rfl rfl
      (fun h => if_pos (of_decide_eq_true h)) fun h => ⟨_, if_neg (of_decide_eq_false h)⟩
    exact ends_respond rfl c.error c.ok
  | bcdUnpack b => cases h; exact ends_complete rfl rfl _
  | hourEnc m hr =>
    cases h
    have c : Checks (.hourEnc m hr) (hourEnc m hr) := checks_hour rfl rfl rfl rfl (hourEnc_checks m hr)
    exact ends_respond rfl c.error c.ok
  | hourDec b => cases h; exact ends_complete rfl rfl _
  | hourDisp m hr =>
    cases h
    have c : Checks (.hourDisp m hr) (hourDisp m hr) := checks_hour rfl rfl rfl rfl (hourDisp_checks m hr)
    exact ends_respond rfl c.error c.ok
  | hourTo24 hr pm =>
    cases h
    exact ends_respond rfl (hourTo24_checks hr pm).error (hourTo24_checks hr pm).ok
  | clkBuild time mode =>
    cases h
    obtain ⟨he, ho⟩ := clk_inputError_eq time mode (.inl rfl)
    exact ends_respond rfl he fun a ha => (ho a ha).1
  | clkParse c b0 b1 b2 b3 b4 b5 b6 =>
    cases h
    exact ends_count (r := fun n => clkParse n [b0, b1, b2, b3, b4, b5, b6]) 7 rfl rfl rfl rfl rfl
      (fun n hn => by simp only [clkParse, parseClockRead]; rw [if_pos (by exact hn)]) ⟨_, rfl⟩
  | clkSet time mode =>
    cases h
    obtain ⟨he, ho⟩ := clk_inputError_eq time mode (.inr rfl)
    refine ends_withResult he fun a ha => ?_
    obtain ⟨hn, rfl⟩ := ho a ha
    exact ends_memWrite hn rfl rfl rfl rfl
  | clkRead =>
    cases h
    refine ends_memRead rfl rfl rfl fun bs s1 hc => ?_
    rw [afterClkRead, hc]
    exact ⟨_, rfl, rfl⟩
  | a1Enc v sec min hour dd =>
    cases h
    obtain ⟨he, ho⟩ := a1_inputError_eq v sec min hour dd (.inl rfl)
    exact ends_respond rfl he fun a ha => (ho a ha).1
  | a2Enc v min hour dd =>
    cases h
    obtain ⟨he, ho⟩ := a2_inputError_eq v min hour dd (.inl rfl)
    exact ends_respond rfl he fun a ha => (ho a ha).1
  | a1Dec c b0 b1 b2 b3 =>
    cases h
    exact ends_count (r := fun n => alarmResults (decodeAlarm1 n [b0, b1, b2, b3])) 4 rfl rfl rfl rfl rfl
      (fun n hn => by simp only [alarmResults, decodeAlarm1]; rw [if_pos (by exact hn)]) ⟨_, rfl⟩
  | a2Dec c b0 b1 b2 =>
    cases h
    exact ends_count (r := fun n => alarmResults (decodeAlarm2 n [b0, b1, b2])) 3 rfl rfl rfl rfl rfl
      (fun n hn => by simp only [alarmResults, decodeAlarm2]; rw [if_pos (by exact hn)]) ⟨_, rfl⟩
  | aOffset base off =>
    cases h
    exact ends_respond rfl (aOffset_checks base off).error (aOffset_checks base off).ok
  | a1Set v sec min hour dd =>
    cases h
    obtain ⟨he, ho⟩ := a1_inputError_eq v sec min hour dd (.inr rfl)
    refine ends_withResult he fun a ha => ?_
    obtain ⟨hn, rfl⟩ := ho a ha
    exact ends_memWrite hn rfl rfl rfl rfl
  | a1Read =>
    cases h
    refine ends_memRead rfl rfl rfl fun bs s1 hc => ?_
    rw [afterA1Read, hc]
    exact ⟨_, rfl, rfl⟩
  | a2Set v min hour dd =>
    cases h
    obtain ⟨he, ho⟩ := a2_inputError_eq v min hour dd (.inr rfl)
    refine ends_withResult he fun a ha => ?_
    obtain ⟨hn, rfl⟩ := ho a ha
    exact ends_memWrite hn rfl rfl rfl rfl
  | a2Read =>
    cases h
    refine ends_memRead rfl rfl rfl fun bs s1 hc => ?_
    rw [afterA2Read, hc]
    exact ⟨_, rfl, rfl⟩
  | stDec b => cases h; exact ends_complete rfl rfl _
  | stClr b sel =>
    cases h
    have c : Checks (.stClr b sel) (checkedSelect sel) := checks_select rfl rfl rfl rfl
    exact ends_withResult c.error fun a ha => ends_complete rfl (c.ok a ha) _
  | ctlBuild intcn a1e a2e rate =>
    cases h
    have c : Checks (.ctlBuild intcn a1e a2e rate) (checkedControlByte intcn a1e a2e rate) :=
      checks_control rfl rfl rfl (control_outOfDomain _ _ _ _)
    exact ends_withResult c.error fun a ha => ends_complete rfl (c.ok a ha) _
  | sqwCode rate =>
    cases h
    have c : Checks (.sqwCode rate) (checkedRate rate) := checks_rate rfl rfl rfl rfl
    exact ends_withResult c.error fun a ha => ends_complete rfl (c.ok a ha) _
  | ctlDec b => cases h; exact ends_complete rfl rfl _
  | stRead => cases h; exact ends_memRead rfl rfl rfl fun bs s1 _ => ⟨_, rfl, rfl⟩
  | stClrf sel =>
    cases h
    have c : Checks (.stClrf sel) (checkedSelect sel) := checks_select rfl rfl rfl rfl
    refine ends_withResult c.error fun a ha => ?_
    have hn := c.ok a ha
    have hs : sel.toNat ≤ 3 := by
      by_contra hs
      rw [checkedSelect_error (by omega)] at ha
      cases ha
    rw [checkedSelect_ok hs] at ha
    cases ha
    by_cases h0 : sel = 0
    · refine ends_memRead hn rfl (by simp [Instr.bursts, h0]; rfl) fun bs s1 _ =>
        ⟨responseOf _, rfl, if_pos h0⟩
    · rw [show afterStClrfRead sel = writeBack .status fun b => clearFlags b sel from
        funext fun _ => funext fun _ => if_neg h0]
      exact ends_readModifyWrite hn rfl rfl (by rw [Instr.bursts, if_neg h0]; rfl)
        (fun d => clearFlags_preserves d hs) fun _ => rfl
  | sqwSet rate =>
    cases h
    have c : Checks (.sqwSet rate) (checkedRate rate) := checks_rate rfl rfl rfl rfl
    refine ends_withResult c.error fun r hr =>
      ends_readModifyWrite (c.ok r hr) rfl rfl rfl (fun d => .inr ⟨rfl, ?_⟩) fun x => ?_
    · exact (withSquareWave_high r _).trans (peerByte_control_high s.regs d)
    · have hl : rate.toNat ≤ 3 := by
        by_contra hl
        rw [checkedRate_error (by omega)] at hr
        cases hr
      obtain ⟨r', hr', rfl⟩ := checkedRate_ok hl
      rw [hr'] at hr
      cases hr
      exact withSquareWave_eq _ x
  | sqwOff =>
    cases h
    refine ends_readModifyWrite rfl rfl rfl rfl (fun d => .inr ⟨rfl, ?_⟩) withoutSquareWave_eq
    exact (withoutSquareWave_high _).trans (peerByte_control_high s.regs d)
  | ctlRead => cases h; exact ends_memRead rfl rfl rfl fun bs s1 _ => ⟨_, rfl, rfl⟩
  | ctlWrite intcn a1e a2e rate =>
    cases h
    have c : Checks (.ctlWrite intcn a1e a2e rate) (checkedControlByte intcn a1e a2e rate) :=
      checks_control rfl rfl rfl (control_outOfDomain _ _ _ _)
    refine ends_withResult c.error fun w hw =>
      ends_readModifyWrite (c.ok w hw) rfl rfl rfl (fun d => .inr ⟨rfl, ?_⟩) fun x => ?_
    · exact (withControlBits_high (checkedControlByte_high hw) _).trans (peerByte_control_high s.regs d)
    · cases hd : controlInDomain intcn a1e a2e rate with
      | true =>
        rw [checkedControlByte_ok hd] at hw
        cases hw
        exact withControlBits_eq (controlImage_lt hd) x
      | false => rw [checkedControlByte_error hd] at hw; cases hw
  | tDec msb lsb => cases h; exact ends_complete rfl rfl _
  | tRead => cases h; exact ends_memRead rfl rfl rfl fun bs s1 _ => ⟨_, rfl, rfl⟩

/-! ## A command before and after its answers

`exec` and the transport's own move go on with an answer in the same way: by `afterRead` after a read, and
by `afterWrite` after a write. -/

/-- A checked operand, when the command's operands are in their domains. -/
theorem Checks.get {α : Type} {i : Instr} {r : Except ErrorKind α} (c : Checks i r)
    (h : i.inputError = none) : ∃ a, r = .ok a := by
  rcases c with ⟨he, _⟩ | ⟨_, ha⟩
  · rw [h] at he; cases he
  · exact ha

/-- A burst is known by the shape of its read. -/
theorem Burst.eq_of_shape {b c : Burst}
    (h : Request.shape (.read b) = Request.shape (.read c)) : b = c := by
  cases b <;> cases c <;> first | rfl | exact absurd h (by decide)

theorem afterRead_stClrf {select a : Byte} (h : checkedSelect select = .ok a) :
    afterRead (.stClrf select) = afterStClrfRead a := by
  funext bs s; simp [afterRead, h]

theorem afterRead_sqwSet {rate : Byte} {r : SquareWaveRate} (h : checkedRate rate = .ok r) :
    afterRead (.sqwSet rate) = writeBack .control (withSquareWave r) := by
  funext bs s; simp [afterRead, h]

theorem afterRead_ctlWrite {p1 p2 p3 p4 w : Byte} (h : checkedControlByte p1 p2 p3 p4 = .ok w) :
    afterRead (.ctlWrite p1 p2 p3 p4) = writeBack .control (withControlBits w) := by
  funext bs s; simp [afterRead, h]

/-- A command that begins with a read is that read, and what follows it. -/
theorem exec_read {i : Instr} {b : Burst} (s : State) (h : i.inputError = none)
    (hb : i.bursts.head? = some (Request.shape (.read b))) :
    exec i s = .next (memRead b s (afterRead i)) := by
  have one : ∀ {c : Burst}, i.bursts.head? = some (Request.shape (.read c)) → b = c :=
    fun hc => Burst.eq_of_shape (Option.some.inj (hb.symm.trans hc))
  cases i with
  | clkRead => cases one (c := .clock) rfl; rfl
  | a1Read => cases one (c := .alarm1) rfl; rfl
  | a2Read => cases one (c := .alarm2) rfl; rfl
  | stRead => cases one (c := .status) rfl; rfl
  | ctlRead => cases one (c := .control) rfl; rfl
  | tRead => cases one (c := .temperature) rfl; rfl
  | sqwOff => cases one (c := .control) rfl; rfl
  | stClrf select =>
    cases one (c := .status) (by rw [Instr.bursts]; split <;> rfl)
    obtain ⟨a, ha⟩ := (checks_select rfl rfl rfl rfl : Checks (.stClrf select) _).get h
    rw [afterRead_stClrf ha]
    simp [exec, execStClrf, ha]
  | sqwSet rate =>
    cases one (c := .control) rfl
    obtain ⟨a, ha⟩ := (checks_rate rfl rfl rfl rfl : Checks (.sqwSet rate) _).get h
    rw [afterRead_sqwSet ha]
    simp [exec, execSqwSet, ha, readModifyWrite]
  | ctlWrite p1 p2 p3 p4 =>
    cases one (c := .control) rfl
    obtain ⟨a, ha⟩ := (checks_control rfl rfl rfl (control_outOfDomain _ _ _ _) :
      Checks (.ctlWrite p1 p2 p3 p4) _).get h
    rw [afterRead_ctlWrite ha]
    simp [exec, execCtlWrite, ha, readModifyWrite]
  | _ => cases hb

/-- A SET command is its write, and what follows it. -/
theorem exec_write {i : Instr} {b : Burst} {bytes : List Byte} (s : State) (h : i.inputError = none)
    (hs : i.setRequest = some (.write b bytes)) :
    exec i s = .next (memWrite b bytes s (afterWrite i bytes)) := by
  cases i with
  | clkSet time mode =>
    cases hs
    obtain ⟨he, ho⟩ := clk_inputError_eq time mode (.inr rfl)
    cases hr : clkBuild time mode with
    | error e => rw [he e hr] at h; cases h
    | ok a => rw [exec, execClkSet, hr, (ho a hr).2]; rfl
  | a1Set v sec min hour dd =>
    cases hs
    obtain ⟨he, ho⟩ := a1_inputError_eq v sec min hour dd (.inr rfl)
    cases hr : a1Enc v sec min hour dd with
    | error e => rw [he e hr] at h; cases h
    | ok a => rw [exec, execA1Set, hr, (ho a hr).2]; rfl
  | a2Set v min hour dd =>
    cases hs
    obtain ⟨he, ho⟩ := a2_inputError_eq v min hour dd (.inr rfl)
    cases hr : a2Enc v min hour dd with
    | error e => rw [he e hr] at h; cases h
    | ok a => rw [exec, execA2Set, hr, (ho a hr).2]; rfl
  | _ => cases hs

/-- A read-modify-write writes the byte that its rule makes from the byte read. -/
theorem afterRead_writes {i : Instr} {b : Burst} (h : i.inputError = none)
    (hb : i.bursts.head? = some (Request.shape (.read b)))
    (hm : i.bursts.map Prod.fst = [false, true]) (x : Byte) (s : State) :
    afterRead i [x] s = memWrite b [i.rewritten x] s (afterWrite i [i.rewritten x]) := by
  have one : ∀ {c : Burst}, i.bursts.head? = some (Request.shape (.read c)) → b = c :=
    fun hc => Burst.eq_of_shape (Option.some.inj (hb.symm.trans hc))
  cases i with
  | stClrf select =>
    cases one (c := .status) (by rw [Instr.bursts]; split <;> rfl)
    obtain ⟨a, ha⟩ := (checks_select rfl rfl rfl rfl : Checks (.stClrf select) _).get h
    have h0 : select ≠ 0 := fun h0 => by simp [Instr.bursts, h0] at hm
    have hle : select.toNat ≤ 3 := by
      by_contra hle
      rw [checkedSelect_error (by omega)] at ha
      cases ha
    rw [checkedSelect_ok hle] at ha
    cases ha
    rw [afterRead_stClrf (checkedSelect_ok hle), afterStClrfRead, if_neg h0]
    rfl
  | sqwOff =>
    cases one (c := .control) rfl
    rw [Instr.rewritten, ← withoutSquareWave_eq]
    rfl
  | sqwSet rate =>
    cases one (c := .control) rfl
    have hle : rate.toNat ≤ 3 := by
      by_contra hle
      simp [Instr.inputError, Instr.operandOutOfDomain, Instr.countWrong, Instr.variantUnknown,
        Instr.timeOnlyForAlarm2, Nat.lt_of_not_le hle] at h
    obtain ⟨r, ha, rfl⟩ := checkedRate_ok hle
    rw [afterRead_sqwSet ha, Instr.rewritten, ← withSquareWave_eq]
    rfl
  | ctlWrite p1 p2 p3 p4 =>
    cases one (c := .control) rfl
    have c : Checks (.ctlWrite p1 p2 p3 p4) (checkedControlByte p1 p2 p3 p4) :=
      checks_control rfl rfl rfl (control_outOfDomain _ _ _ _)
    obtain ⟨a, ha⟩ := c.get h
    cases hd : controlInDomain p1 p2 p3 p4 with
    | true =>
      rw [afterRead_ctlWrite ha]
      rw [checkedControlByte_ok hd] at ha
      cases ha
      rw [Instr.rewritten, ← withControlBits_eq (controlImage_lt hd)]
      rfl
    | false => rw [checkedControlByte_error hd] at ha; cases ha
  | _ => cases hm

/-- A command with one read, and nothing else, answers with its bytes. -/
theorem afterRead_answers {i : Instr} {b : Burst} (h : i.inputError = none)
    (hb : i.bursts = [Request.shape (.read b)]) {bs : List Byte} (hc : bs.length = b.count) :
    ∃ f : RspFrame, f.err = 0 ∧ ∀ s, afterRead i bs s = answered s f := by
  have one : ∀ {c : Burst}, i.bursts = [Request.shape (.read c)] → b = c :=
    fun hc => Burst.eq_of_shape (List.head_eq_of_cons_eq (hb.symm.trans hc))
  cases i with
  | clkRead =>
    cases one (c := .clock) rfl
    simp only [afterRead, afterClkRead, hc]
    exact ⟨_, rfl, fun _ => rfl⟩
  | a1Read =>
    cases one (c := .alarm1) rfl
    simp only [afterRead, afterA1Read, hc]
    exact ⟨_, rfl, fun _ => rfl⟩
  | a2Read =>
    cases one (c := .alarm2) rfl
    simp only [afterRead, afterA2Read, hc]
    exact ⟨_, rfl, fun _ => rfl⟩
  | stRead | ctlRead | tRead => exact ⟨responseOf _, rfl, fun _ => rfl⟩
  | stClrf select =>
    by_cases h0 : select = 0
    · subst h0; exact ⟨responseOf _, rfl, fun _ => rfl⟩
    · rw [Instr.bursts, if_neg h0] at hb; exact absurd (congrArg List.length hb) (by simp)
  | _ => simp [Instr.bursts, Request.shape] at hb

/-- A command whose write is done has ended without error. -/
theorem afterWrite_answers {i : Instr} {b : Burst} {bytes : List Byte}
    (h : i.issues (.write b bytes)) :
    ∃ f : RspFrame, f.err = 0 ∧ ∀ s, afterWrite i bytes s = answered s f := by
  obtain ⟨-, ⟨_, h, -⟩ | h | ⟨_, _, h, hb⟩⟩ := h
  · cases h
  · cases i with
    | clkSet | a1Set | a2Set => exact ⟨responseOf _, rfl, fun _ => rfl⟩
    | _ => cases h
  · cases h
    cases i with
    | stClrf | sqwSet | sqwOff | ctlWrite => exact ⟨responseOf _, rfl, fun _ => rfl⟩
    | _ => simp [Instr.bursts, Request.shape] at hb

/-- What a command with a read reads first, and whether it writes then. -/
theorem bursts_of_read {i : Instr} {b : Burst}
    (hb : i.bursts.head? = some (Request.shape (.read b))) :
    i.bursts = [Request.shape (.read b)] ∨
    b.count = 1 ∧ ∀ w, i.bursts = [Request.shape (.read b), Request.shape (.write b [w])] := by
  have one : ∀ {c : Burst}, i.bursts.head? = some (Request.shape (.read c)) → b = c :=
    fun hc => Burst.eq_of_shape (Option.some.inj (hb.symm.trans hc))
  cases i with
  | clkRead => cases one (c := .clock) rfl; exact .inl rfl
  | a1Read => cases one (c := .alarm1) rfl; exact .inl rfl
  | a2Read => cases one (c := .alarm2) rfl; exact .inl rfl
  | stRead => cases one (c := .status) rfl; exact .inl rfl
  | ctlRead => cases one (c := .control) rfl; exact .inl rfl
  | tRead => cases one (c := .temperature) rfl; exact .inl rfl
  | sqwOff | sqwSet | ctlWrite => cases one (c := .control) rfl; exact .inr ⟨rfl, fun _ => rfl⟩
  | stClrf select =>
    cases one (c := .status) (by rw [Instr.bursts]; split <;> rfl)
    rw [Instr.bursts]
    split
    · exact .inl rfl
    · exact .inr ⟨rfl, fun _ => rfl⟩
  | _ => cases hb

/-- A read that a command issues is its first request. -/
theorem head_of_issues_read {i : Instr} {b : Burst} (h : i.issues (.read b)) :
    i.bursts.head? = some (Request.shape (.read b)) := by
  rcases h.2 with ⟨_, h, hb⟩ | h | ⟨_, _, h, _⟩
  · cases h; exact hb
  · cases i <;> cases h
  · cases h

/-- A command issues legal requests only (20_memory.md R66). -/
theorem legal_of_issues {i : Instr} {r : Request} (h : i.issues r) : r.legal = true := by
  obtain ⟨-, ⟨b, rfl, -⟩ | h | ⟨b, x, rfl, hb⟩⟩ := h
  · rfl
  · cases i <;> cases h <;> rfl
  · have h0 : i.bursts.map (fun r => r.2.1) = [b.base, b.base] := by rw [hb]; rfl
    have one : b = .status ∨ b = .control := by
      have hb0 : b.base = 0x0E ∨ b.base = 0x0F := by
        cases i
        case stClrf select =>
          rw [Instr.bursts] at h0
          split at h0 <;> simp at h0
          exact .inr h0.symm
        case sqwSet | sqwOff | ctlWrite => exact .inl (List.head_eq_of_cons_eq h0).symm
        all_goals exact absurd (congrArg List.length h0) (by simp [Instr.bursts])
      cases b <;> simp_all [Burst.base]
    rcases one with rfl | rfl <;> rfl

/-- A command left waiting waits for a request of its own. -/
theorem issues_of_waiting {i : Instr} {s t : State} {r : Request} (h : exec i s = .next t)
    (hs : s.inFlight = none) (ht : t.inFlight = some r) : i.issues r := by
  rcases exec_ends h with _ | _ | ⟨b, hn, _, hb⟩ | _ | _ | _ | ⟨b, bytes, hn, _, _, _, _, hw⟩ | _ | _ |
    ⟨b, d, w, hn, _, hb, _, _, _, hr⟩ | _ | _
  all_goals first
    | exact absurd (hs.symm.trans ht) (by simp)
    | (cases ht)
  · exact ⟨hn, .inl ⟨b, rfl, hb⟩⟩
  · exact ⟨hn, .inr (.inl hw)⟩
  · exact ⟨hn, .inr (.inr ⟨b, _, by rw [hr], by rw [← hr]; exact hb⟩)⟩

/-- The states to which the answer of a request leads, each with what brings it there. -/
inductive Resumes (i : Instr) : State → Request → State → Prop where
  | silent (s : State) (r : Request) (ha : nextAnswer s = .silent) : Resumes i s r (wait r s)
  | readFail (s : State) (b : Burst) (ha : nextAnswer s = .fail) : Resumes i s (.read b) (rejected (hear s) 4)
  | readBadCount (s : State) (b : Burst) (ds : List Byte) (ha : nextAnswer s = .ok ds) (hc : ds.length ≠ b.count) :
    Resumes i s (.read b) (rejected (hear s) 3)
  | readDone (s : State) (b : Burst) (ds : List Byte) (f : RspFrame) (hb : i.bursts = [Request.shape (.read b)])
    (ha : nextAnswer s = .ok ds) (hc : ds.length = b.count) (hf : f.err = 0) :
    Resumes i s (.read b) (answered (hear s) f)
  | modifies (s u : State) (b : Burst) (d w : Byte) (ha : nextAnswer s = .ok [d])
    (hr : w = i.rewritten (peerByte s.regs b.base d)) (hi : i.issues (.write b [w]))
    (hw : Resumes i (issue (.write b [w]) (hear s)) (.write b [w]) u) : Resumes i s (.read b) u
  | writeFail (s : State) (b : Burst) (bytes : List Byte) (ha : nextAnswer s = .fail) :
    Resumes i s (.write b bytes) (rejected { hear s with regs := s.regs.forget b.base b.count } 4)
  | writeDone (s : State) (b : Burst) (bytes ds : List Byte) (f : RspFrame) (ha : nextAnswer s = .ok ds)
    (hf : f.err = 0) :
    Resumes i s (.write b bytes) (answered { hear s with regs := s.regs.putBytes b.base bytes } f)

theorem resumes_write {i : Instr} {b : Burst} {bytes : List Byte} (h : i.issues (.write b bytes))
    (s : State) : Resumes i s (.write b bytes) (awaitWrite b bytes (afterWrite i bytes) s) := by
  refine awaitWrite_elim (.silent s _) (.writeFail s b bytes) fun ds ha => ?_
  obtain ⟨f, hf, e⟩ := afterWrite_answers h
  rw [e]
  exact .writeDone s b bytes ds f ha hf

/-- Everything the answer of a command's request can lead to. -/
theorem resume_resumes {i : Instr} {r : Request} (h : i.issues r) (s : State) :
    Resumes i s r (resume i r s) := by
  cases r with
  | write b bytes => exact resumes_write h s
  | read b =>
    have hb := head_of_issues_read h
    have hn := h.1
    refine awaitRead_elim (.silent s _) (.readFail s _) (.readBadCount s _) fun ds ha hc => ?_
    rcases bursts_of_read hb with h1 | ⟨hc1, h2⟩
    · obtain ⟨f, hf, e⟩ := afterRead_answers (bs := peerBytes s.regs b.base ds) hn h1
        (by rw [peerBytes_length, hc])
      rw [e]
      exact .readDone s b ds f h1 ha hc hf
    · obtain ⟨d, rfl⟩ := List.length_eq_one_iff.1 (hc.trans hc1)
      have hi := fun w => (⟨hn, .inr (.inr ⟨_, _, rfl, h2 _⟩)⟩ : i.issues (.write _ [i.rewritten w]))
      rw [peerBytes, peerBytes, afterRead_writes hn hb (by rw [h2 0]; rfl)]
      exact .modifies s _ _ d _ ha rfl (hi _) (resumes_write (hi _) _)

/-! ## What a command does not read

`exec` is given the decoded command, and nothing that it calls reads `cmd`, `host` or `hasTemperature`. -/

/-- A part of a command that does the same whatever the frame, the host's actions and the parameter are,
and keeps all three. -/
def IgnoresInputs (f : State → State) : Prop :=
  ∀ (s : State) (g : CmdFrame) (h : List HostAction) (p : Bool),
    f { s with cmd := g, host := h, hasTemperature := p } =
      { f s with cmd := g, host := h, hasTemperature := p }

theorem IgnoresInputs.keeps {f : State → State} (h : IgnoresInputs f) (s : State) :
    (f s).cmd = s.cmd ∧ (f s).host = s.host ∧ (f s).hasTemperature = s.hasTemperature := by
  have e : f s = { f s with cmd := s.cmd, host := s.host, hasTemperature := s.hasTemperature } :=
    h s s.cmd s.host s.hasTemperature
  rw [e]
  exact ⟨rfl, rfl, rfl⟩

theorem ignoresInputs_complete (qs : List Byte) : IgnoresInputs (complete qs) := fun _ _ _ _ => rfl

theorem ignoresInputs_withResult {α : Type} (r : Except ErrorKind α) {k : α → State → State}
    (hk : ∀ a, IgnoresInputs (k a)) : IgnoresInputs fun s => withResult r s fun a => k a s := by
  intro s g h p
  cases r with
  | error e => rfl
  | ok a => exact hk a s g h p

theorem ignoresInputs_awaitRead (b : Burst) {k : List Byte → State → State}
    (hk : ∀ bs, IgnoresInputs (k bs)) : IgnoresInputs (awaitRead b k) := by
  intro s g h p
  have ha : nextAnswer { s with cmd := g, host := h, hasTemperature := p } = nextAnswer s := nextAnswer_congr rfl rfl
  simp only [awaitRead, ha]
  split
  · rfl
  · rfl
  · split
    · exact hk _ (hear s) g h p
    · rfl

theorem ignoresInputs_awaitWrite (b : Burst) (bytes : List Byte) {k : State → State}
    (hk : IgnoresInputs k) : IgnoresInputs (awaitWrite b bytes k) := by
  intro s g h p
  have ha : nextAnswer { s with cmd := g, host := h, hasTemperature := p } = nextAnswer s := nextAnswer_congr rfl rfl
  simp only [awaitWrite, ha]
  split
  · rfl
  · rfl
  · exact hk { hear s with regs := s.regs.putBytes b.base bytes } g h p

theorem ignoresInputs_memRead (b : Burst) {k : List Byte → State → State}
    (hk : ∀ bs, IgnoresInputs (k bs)) : IgnoresInputs fun s => memRead b s k :=
  fun s g h p => ignoresInputs_awaitRead b hk (issue (.read b) s) g h p

theorem ignoresInputs_memWrite (b : Burst) (bytes : List Byte) {k : State → State}
    (hk : IgnoresInputs k) : IgnoresInputs fun s => memWrite b bytes s k :=
  fun s g h p => ignoresInputs_awaitWrite b bytes hk (issue (.write b bytes) s) g h p

theorem ignoresInputs_writeBack (b : Burst) (f : Byte → Byte) (bs : List Byte) :
    IgnoresInputs (writeBack b f bs) := ignoresInputs_memWrite b _ (ignoresInputs_complete _)

theorem ignoresInputs_readModifyWrite (b : Burst) (f : Byte → Byte) :
    IgnoresInputs (readModifyWrite b f) := ignoresInputs_memRead b (ignoresInputs_writeBack b f)

theorem ignoresInputs_afterStClrfRead (sel : Byte) (bs : List Byte) :
    IgnoresInputs (afterStClrfRead sel bs) := by
  intro s g h p
  simp only [afterStClrfRead]
  split
  · rfl
  · exact ignoresInputs_writeBack _ _ _ s g h p

/-- What a command does depends neither on the frame it was decoded from (30_encoding.md R103) nor on what the
host does next (10_state.md R31). -/
theorem exec_ignoresInputs (i : Instr) :
    ∃ f, (∀ s, exec i s = .next (f s)) ∧ IgnoresInputs f := by
  cases i <;> refine ⟨_, fun s => rfl, ?_⟩
  case stClrf =>
    exact ignoresInputs_withResult _ fun sel =>
      ignoresInputs_memRead _ (ignoresInputs_afterStClrfRead sel)
  case sqwOff => exact ignoresInputs_readModifyWrite _ _
  case sqwSet => exact ignoresInputs_withResult _ fun _ => ignoresInputs_readModifyWrite _ _
  case ctlWrite => exact ignoresInputs_withResult _ fun _ => ignoresInputs_readModifyWrite _ _
  case clkSet | a1Set | a2Set =>
    exact ignoresInputs_withResult _ fun l => ignoresInputs_memWrite _ l (ignoresInputs_complete _)
  case clkRead | a1Read | a2Read =>
    exact ignoresInputs_memRead _ fun _ => ignoresInputs_withResult _ ignoresInputs_complete
  case stRead | ctlRead | tRead => exact ignoresInputs_memRead _ fun _ => ignoresInputs_complete _
  case bcdUnpack | hourDec | stDec | ctlDec | tDec => exact ignoresInputs_complete _
  all_goals exact ignoresInputs_withResult _ fun _ => ignoresInputs_complete _

theorem afterRead_ignoresInputs (i : Instr) (bs : List Byte) : IgnoresInputs (afterRead i bs) := by
  cases i
  case stClrf =>
    exact ignoresInputs_withResult _ fun sel => ignoresInputs_afterStClrfRead sel bs
  case sqwOff => exact ignoresInputs_writeBack _ _ _
  case sqwSet | ctlWrite => exact ignoresInputs_withResult _ fun _ => ignoresInputs_writeBack _ _ _
  case clkRead | a1Read | a2Read => exact ignoresInputs_withResult _ ignoresInputs_complete
  case stRead | ctlRead | tRead => exact ignoresInputs_complete _
  all_goals exact fun _ _ _ _ => rfl

theorem afterWrite_ignoresInputs (i : Instr) (bs : List Byte) : IgnoresInputs (afterWrite i bs) := by
  cases i <;> exact fun _ _ _ _ => rfl

/-- Nor does how it goes on when its request is answered later. -/
theorem resume_ignoresInputs (i : Instr) (r : Request) : IgnoresInputs (resume i r) := by
  cases r with
  | read b => exact ignoresInputs_awaitRead b (afterRead_ignoresInputs i)
  | write b bytes => exact ignoresInputs_awaitWrite b bytes (afterWrite_ignoresInputs i bytes)

/-- The answer of a write sets the phase. -/
theorem awaitWrite_phase {i : Instr} {b : Burst} {bytes : List Byte} (hi : i.issues (.write b bytes))
    (s : State) (p : Phase) :
    awaitWrite b bytes (afterWrite i bytes) { s with phase := p } =
      awaitWrite b bytes (afterWrite i bytes) s := by
  have ha : nextAnswer { s with phase := p } = nextAnswer s := nextAnswer_congr rfl rfl
  obtain ⟨f, -, hf⟩ := afterWrite_answers hi
  simp only [awaitWrite, ha, hf]
  split <;> rfl

/-- The answer of a request sets the phase. -/
theorem resume_phase {i : Instr} {r : Request} (hi : i.issues r) (s : State) (p : Phase) :
    resume i r { s with phase := p } = resume i r s := by
  cases r with
  | write b bytes => exact awaitWrite_phase hi s p
  | read b =>
    have ha : nextAnswer { s with phase := p } = nextAnswer s := nextAnswer_congr rfl rfl
    have hb := head_of_issues_read hi
    simp only [resume, awaitRead, ha]
    split
    · rfl
    · rfl
    · split
      · rename_i ds _ hc
        rcases bursts_of_read hb with h1 | ⟨hc1, h2⟩
        · obtain ⟨f, -, hf⟩ := afterRead_answers (bs := peerBytes s.regs b.base ds) hi.1 h1
            (by rw [peerBytes_length, hc])
          rw [hf, hf]
          rfl
        · obtain ⟨d, rfl⟩ := List.length_eq_one_iff.1 (hc.trans hc1)
          have hw : i.bursts.map Prod.fst = [false, true] := by rw [h2 0]; rfl
          rw [peerBytes, peerBytes, afterRead_writes hi.1 hb hw, afterRead_writes hi.1 hb hw]
          exact awaitWrite_phase ⟨hi.1, .inr (.inr ⟨_, _, rfl, h2 _⟩)⟩ (issue _ (hear s)) p
      · rfl

end Sys2Proof.Machine
end

