-- ==== Sys2Proof/Laws/PerInstr.lean ====
section
/-! SUPPORT. A statement about every command as syntax, one lemma per constructor: with the temperature
commands present, decoding the frame of a command gives the command back. -/

namespace Sys2Proof.Laws.RoundTrip

/-- Decoding the frame of the command gives it back (30_encoding.md R102, R105). -/
def Statement (i : Instr) : Prop := decode true (encode i) = .ok i

theorem bcdPack (value : Byte) : Statement (.bcdPack value) := rfl
theorem bcdUnpack (b : Byte) : Statement (.bcdUnpack b) := rfl
theorem hourEnc (mode hour24 : Byte) : Statement (.hourEnc mode hour24) := rfl
theorem hourDec (b : Byte) : Statement (.hourDec b) := rfl
theorem hourDisp (mode hour24 : Byte) : Statement (.hourDisp mode hour24) := rfl
theorem hourTo24 (hour isPM : Byte) : Statement (.hourTo24 hour isPM) := rfl
theorem clkBuild (time : TimeBlock) (mode : Byte) : Statement (.clkBuild time mode) := rfl
theorem clkParse (count b0 b1 b2 b3 b4 b5 b6 : Byte) :
    Statement (.clkParse count b0 b1 b2 b3 b4 b5 b6) := rfl
theorem clkSet (time : TimeBlock) (mode : Byte) : Statement (.clkSet time mode) := rfl
theorem clkRead : Statement .clkRead := rfl
theorem a1Enc (variant sec min hour dd : Byte) : Statement (.a1Enc variant sec min hour dd) := rfl
theorem a2Enc (variant min hour dd : Byte) : Statement (.a2Enc variant min hour dd) := rfl
theorem a1Dec (count b0 b1 b2 b3 : Byte) : Statement (.a1Dec count b0 b1 b2 b3) := rfl
theorem a2Dec (count b0 b1 b2 : Byte) : Statement (.a2Dec count b0 b1 b2) := rfl
theorem aOffset (base : TimeBlock) (offset : Byte) : Statement (.aOffset base offset) := rfl
theorem a1Set (variant sec min hour dd : Byte) : Statement (.a1Set variant sec min hour dd) := rfl
theorem a1Read : Statement .a1Read := rfl
theorem a2Set (variant min hour dd : Byte) : Statement (.a2Set variant min hour dd) := rfl
theorem a2Read : Statement .a2Read := rfl
theorem stDec (b : Byte) : Statement (.stDec b) := rfl
theorem stClr (b select : Byte) : Statement (.stClr b select) := rfl
theorem ctlBuild (intcn a1e a2e rate : Byte) : Statement (.ctlBuild intcn a1e a2e rate) := rfl
theorem sqwCode (rate : Byte) : Statement (.sqwCode rate) := rfl
theorem ctlDec (b : Byte) : Statement (.ctlDec b) := rfl
theorem stRead : Statement .stRead := rfl
theorem stClrf (select : Byte) : Statement (.stClrf select) := rfl
theorem sqwSet (rate : Byte) : Statement (.sqwSet rate) := rfl
theorem sqwOff : Statement .sqwOff := rfl
theorem ctlRead : Statement .ctlRead := rfl
theorem ctlWrite (intcn a1e a2e rate : Byte) : Statement (.ctlWrite intcn a1e a2e rate) := rfl
theorem tDec (msb lsb : Byte) : Statement (.tDec msb lsb) := rfl
theorem tRead : Statement .tRead := rfl

end Sys2Proof.Laws.RoundTrip
end

