-- ==== Sys2Proof/Tests/Slice0.lean ====
section
/-! SUPPORT. Tests: each check of WellFormed refuses an ill-formed term, each command decodes from a word
written out from the spec, one or two of the spec's vectors run for each command, a few steps of the
block, and for every obligation with hypotheses a witness that meets them. -/

namespace Sys2Proof.Tests

open Machine

/-- A Busy block with a frame and the transport's coming answers. -/
def running (cmd : CmdFrame) (answers : List Answer) : State :=
  { State.reset with phase := .busy, cmd, answers }

/-- The response and the requests after one step. -/
def outcome (s : State) : Option (RspFrame × List Request) :=
  match step s with
  | .next t => some (t.rsp, t.requests)
  | .fault _ => none
  | .refused _ => none

/-- The state after one step. -/
def after (s : State) : State :=
  match step s with
  | .next t => t
  | .fault _ => s
  | .refused _ => s

/-! ## WellFormed -/

theorem test_wf_tDec_absent : (Instr.tDec 0x19 0x40).wellFormed false = false := by decide

theorem test_wf_tRead_absent : Instr.tRead.wellFormed false = false := by decide

theorem test_wf_tDec_present : (Instr.tDec 0x19 0x40).wellFormed true = true := by decide

theorem test_count_clkParse :
    (Instr.clkParse 6 0 0 0 0 0 0 0).inputError = some .malformedRegisterData := by decide

theorem test_count_a1Dec : (Instr.a1Dec 5 0 0 0 0).inputError = some .malformedRegisterData := by
  decide

theorem test_count_a2Dec : (Instr.a2Dec 4 0 0 0).inputError = some .malformedRegisterData := by
  decide

/-- 60_exceptions.md R407 item 3 before item 4 and before item 5. -/
theorem test_variant_unknown :
    (Instr.a2Enc 3 99 99 99).inputError = some .outOfRange ∧
    (Instr.a1Set 3 0 0 0 0).inputError = some .outOfRange := by decide

/-- 60_exceptions.md R407 item 4 before item 5. -/
theorem test_timeOnly_for_alarm2 :
    (Instr.a2Set 0 99 99 99).inputError = some .unsupportedAlarmVariant := by decide

/-- 60_exceptions.md R401: one value past the end of each plain operand domain. -/
theorem test_operands_past_their_domains :
    ([.bcdPack 100, .hourEnc 2 0, .hourEnc 0 24, .hourDisp 2 0, .hourDisp 0 24, .hourTo24 0 0,
      .hourTo24 13 0, .hourTo24 1 2, .stClr 0 4, .stClrf 4, .sqwCode 4, .sqwSet 4,
      .ctlBuild 2 0 0 0, .ctlBuild 0 2 0 0, .ctlWrite 0 0 2 0, .ctlWrite 0 0 0 4] : List Instr).all
      (fun i => i.inputError = some .outOfRange) = true := by decide

/-- 10_state.md R36: one value past each end of each CalendarTime field. -/
theorem test_calendar_fields_past_their_domains :
    ([{ sec := 60, min := 0, hour := 0, dow := 1, date := 1, month := 1, year := 0 },
      { sec := 0, min := 60, hour := 0, dow := 1, date := 1, month := 1, year := 0 },
      { sec := 0, min := 0, hour := 24, dow := 1, date := 1, month := 1, year := 0 },
      { sec := 0, min := 0, hour := 0, dow := 0, date := 1, month := 1, year := 0 },
      { sec := 0, min := 0, hour := 0, dow := 8, date := 1, month := 1, year := 0 }] ++
     [{ sec := 0, min := 0, hour := 0, dow := 1, date := 0, month := 1, year := 0 },
      { sec := 0, min := 0, hour := 0, dow := 1, date := 32, month := 1, year := 0 },
      { sec := 0, min := 0, hour := 0, dow := 1, date := 1, month := 0, year := 0 },
      { sec := 0, min := 0, hour := 0, dow := 1, date := 1, month := 13, year := 0 },
      { sec := 0, min := 0, hour := 0, dow := 1, date := 1, month := 1, year := 100 }] :
        List TimeBlock).all (fun t => !t.inDomain) = true := by decide

/-- 43_alarm.md R252, R253: dates 0 and 32 for DateMatch, days 0 and 8 for DayMatch. -/
theorem test_alarm_days_past_their_domains :
    ([(1, 0), (1, 32), (2, 0), (2, 8)] : List (Byte × Byte)).all
      (fun p => !alarmDayInDomain p.1 p.2) = true := by decide

/-! ## Decoding: words written out bit by bit from 30_encoding.md R105, the last operand byte first -/

theorem test_decode_bcdPack :
    decodeTableWord 16 0b00101010_00000001 =
      some (.bcdPack 0x2A) := by decide

theorem test_decode_bcdUnpack :
    decodeTableWord 16 0b00110111_00000010 =
      some (.bcdUnpack 0x37) := by decide

theorem test_decode_hourEnc :
    decodeTableWord 24 0b00001101_00000001_00010000 =
      some (.hourEnc 0x01 0x0D) := by decide

theorem test_decode_hourDec :
    decodeTableWord 16 0b10100011_00010001 =
      some (.hourDec 0xA3) := by decide

theorem test_decode_hourDisp :
    decodeTableWord 24 0b00010111_00000001_00010010 =
      some (.hourDisp 0x01 0x17) := by decide

theorem test_decode_hourTo24 :
    decodeTableWord 24 0b00000001_00001011_00010011 =
      some (.hourTo24 0x0B 0x01) := by decide

theorem test_decode_clkBuild :
    decodeTableWord 72 0b00000001_00011000_00000110_00001111_00000011_00001101_00101101_00011110_00100000 =
      some (.clkBuild { sec := 0x1E, min := 0x2D, hour := 0x0D, dow := 0x03, date := 0x0F, month := 0x06, year := 0x18 } 0x01) := by decide

theorem test_decode_clkParse :
    decodeTableWord 72 0b00100100_00000110_00010101_00000011_01100001_01000101_00110000_00000111_00100001 =
      some (.clkParse 0x07 0x30 0x45 0x61 0x03 0x15 0x06 0x24) := by decide

theorem test_decode_clkSet :
    decodeTableWord 72 0b00000001_00011000_00000110_00001111_00000011_00001101_00101101_00011110_00100010 =
      some (.clkSet { sec := 0x1E, min := 0x2D, hour := 0x0D, dow := 0x03, date := 0x0F, month := 0x06, year := 0x18 } 0x01) := by decide

theorem test_decode_clkRead :
    decodeTableWord 8 0b00100011 =
      some (.clkRead) := by decide

theorem test_decode_a1Enc :
    decodeTableWord 48 0b00000001_00010111_00011110_00111011_00000010_00110000 =
      some (.a1Enc 0x02 0x3B 0x1E 0x17 0x01) := by decide

theorem test_decode_a2Enc :
    decodeTableWord 48 0b00011001_00001100_00101101_01100011_00000001_00110001 =
      some (.a2Enc 0x01 0x2D 0x0C 0x19) := by decide

theorem test_decode_a1Dec :
    decodeTableWord 48 0b10000000_00000111_00110000_00000101_00000100_00110010 =
      some (.a1Dec 0x04 0x05 0x30 0x07 0x80) := by decide

theorem test_decode_a2Dec :
    decodeTableWord 40 0b01000111_00100011_01000101_00000011_00110011 =
      some (.a2Dec 0x03 0x45 0x23 0x47) := by decide

theorem test_decode_aOffset :
    decodeTableWord 72 0b00000101_00011000_00000010_00000001_00000011_00001010_00111011_00010100_00110100 =
      some (.aOffset { sec := 0x14, min := 0x3B, hour := 0x0A, dow := 0x03, date := 0x01, month := 0x02, year := 0x18 } 0x05) := by decide

theorem test_decode_a1Set :
    decodeTableWord 48 0b00001111_00000110_00011110_00000000_00000001_00110101 =
      some (.a1Set 0x01 0x00 0x1E 0x06 0x0F) := by decide

theorem test_decode_a1Read :
    decodeTableWord 8 0b00110110 =
      some (.a1Read) := by decide

theorem test_decode_a2Set :
    decodeTableWord 48 0b00000111_00010111_00101101_00000000_00000010_00110111 =
      some (.a2Set 0x02 0x2D 0x17 0x07) := by decide

theorem test_decode_a2Read :
    decodeTableWord 8 0b00111000 =
      some (.a2Read) := by decide

theorem test_decode_stDec :
    decodeTableWord 16 0b10000011_01000000 =
      some (.stDec 0x83) := by decide

theorem test_decode_stClr :
    decodeTableWord 24 0b00000001_11111111_01000001 =
      some (.stClr 0xFF 0x01) := by decide

theorem test_decode_ctlBuild :
    decodeTableWord 40 0b00000010_00000001_00000000_00000001_01000010 =
      some (.ctlBuild 0x01 0x00 0x01 0x02) := by decide

theorem test_decode_sqwCode :
    decodeTableWord 16 0b00000011_01000011 =
      some (.sqwCode 0x03) := by decide

theorem test_decode_ctlDec :
    decodeTableWord 16 0b00011100_01000100 =
      some (.ctlDec 0x1C) := by decide

theorem test_decode_stRead :
    decodeTableWord 8 0b01000101 =
      some (.stRead) := by decide

theorem test_decode_stClrf :
    decodeTableWord 16 0b00000010_01000110 =
      some (.stClrf 0x02) := by decide

theorem test_decode_sqwSet :
    decodeTableWord 16 0b00000011_01000111 =
      some (.sqwSet 0x03) := by decide

theorem test_decode_sqwOff :
    decodeTableWord 8 0b01001000 =
      some (.sqwOff) := by decide

theorem test_decode_ctlRead :
    decodeTableWord 8 0b01001001 =
      some (.ctlRead) := by decide

theorem test_decode_ctlWrite :
    decodeTableWord 40 0b00000011_00000000_00000001_00000001_01001010 =
      some (.ctlWrite 0x01 0x01 0x00 0x03) := by decide

theorem test_decode_tDec :
    decodeTableWord 24 0b01000000_00011001_01010000 =
      some (.tDec 0x19 0x40) := by decide

theorem test_decode_tRead :
    decodeTableWord 8 0b01010001 =
      some (.tRead) := by decide

/-! ## Commands: vectors of 95_test_vectors.md, response and requests -/

/-- V4: `BCD.PACK 42` -/
theorem test_bcdPack_V4 :
    outcome (running { op := 0x01, p1 := 0x2A } []) =
      some ({ q1 := 0x42 }, []) := by decide

/-- V7: `BCD.PACK 100` -/
theorem test_bcdPack_V7 :
    outcome (running { op := 0x01, p1 := 0x64 } []) =
      some ({ err := 0x01 }, []) := by decide

/-- V15: `BCD.UNPACK 0x0A` -/
theorem test_bcdUnpack_V15 :
    outcome (running { op := 0x02, p1 := 0x0A } []) =
      some ({ q1 := 0x0A }, []) := by decide

/-- V18: `BCD.UNPACK 0xFF` -/
theorem test_bcdUnpack_V18 :
    outcome (running { op := 0x02, p1 := 0xFF } []) =
      some ({ q1 := 0xA5 }, []) := by decide

/-- V24: `HOUR.ENC 1, 0` -/
theorem test_hourEnc_V24 :
    outcome (running { op := 0x10, p1 := 0x01 } []) =
      some ({ q1 := 0x52 }, []) := by decide

/-- V29: `HOUR.ENC 1, 23` -/
theorem test_hourEnc_V29 :
    outcome (running { op := 0x10, p1 := 0x01, p2 := 0x17 } []) =
      some ({ q1 := 0x71 }, []) := by decide

/-- V36: `HOUR.DEC 0x72` -/
theorem test_hourDec_V36 :
    outcome (running { op := 0x11, p1 := 0x72 } []) =
      some ({ q1 := 0x01, q2 := 0x0C, q3 := 0x01 }, []) := by decide

/-- V40: `HOUR.DEC 0xA3` -/
theorem test_hourDec_V40 :
    outcome (running { op := 0x11, p1 := 0xA3 } []) =
      some ({ q2 := 0x17, q3 := 0x01 }, []) := by decide

/-- V46: `HOUR.DISP 1, 23` -/
theorem test_hourDisp_V46 :
    outcome (running { op := 0x12, p1 := 0x01, p2 := 0x17 } []) =
      some ({ q1 := 0x0B, q2 := 0x01 }, []) := by decide

/-- V50: `HOUR.DISP 2, 0` -/
theorem test_hourDisp_V50 :
    outcome (running { op := 0x12, p1 := 0x02 } []) =
      some ({ err := 0x01 }, []) := by decide

/-- V51: `HOUR.TO24 12, 0` -/
theorem test_hourTo24_V51 :
    outcome (running { op := 0x13, p1 := 0x0C } []) =
      some ({}, []) := by decide

/-- V55: `HOUR.TO24 11, 1` -/
theorem test_hourTo24_V55 :
    outcome (running { op := 0x13, p1 := 0x0B, p2 := 0x01 } []) =
      some ({ q1 := 0x17 }, []) := by decide

/-- V59: `CLK.BUILD 30, 45, 13, 3, 15, 6, 24, 1` -/
theorem test_clkBuild_V59 :
    outcome (running { op := 0x20, p1 := 0x1E, p2 := 0x2D, p3 := 0x0D, p4 := 0x03, p5 := 0x0F, p6 := 0x06, p7 := 0x18, p8 := 0x01 } []) =
      some ({ q1 := 0x30, q2 := 0x45, q3 := 0x61, q4 := 0x03, q5 := 0x15, q6 := 0x06, q7 := 0x24 }, []) := by decide

/-- V70: `CLK.BUILD 0, 0, 0, 1, 1, 1, 0, 2` -/
theorem test_clkBuild_V70 :
    outcome (running { op := 0x20, p4 := 0x01, p5 := 0x01, p6 := 0x01, p8 := 0x02 } []) =
      some ({ err := 0x01 }, []) := by decide

/-- V71: `CLK.PARSE 7, 0x30, 0x45, 0x61, 0x03, 0x15, 0x06, 0x24` -/
theorem test_clkParse_V71 :
    outcome (running { op := 0x21, p1 := 0x07, p2 := 0x30, p3 := 0x45, p4 := 0x61, p5 := 0x03, p6 := 0x15, p7 := 0x06, p8 := 0x24 } []) =
      some ({ q1 := 0x1E, q2 := 0x2D, q3 := 0x0D, q4 := 0x03, q5 := 0x0F, q6 := 0x06, q7 := 0x18, q8 := 0x01, q9 := 0x01, q10 := 0x01 }, []) := by decide

/-- V76: `CLK.PARSE 6, 0x00, 0x00, 0x00, 0x01, 0x01, 0x01` -/
theorem test_clkParse_V76 :
    outcome (running { op := 0x21, p1 := 0x06, p5 := 0x01, p6 := 0x01, p7 := 0x01 } []) =
      some ({ err := 0x03 }, []) := by decide

/-- V79: `CLK.SET 30, 45, 13, 3, 15, 6, 24, 1` -/
theorem test_clkSet_V79 :
    outcome (running { op := 0x22, p1 := 0x1E, p2 := 0x2D, p3 := 0x0D, p4 := 0x03, p5 := 0x0F, p6 := 0x06, p7 := 0x18, p8 := 0x01 } [.ok []]) =
      some ({}, [.write .clock [0x30, 0x45, 0x61, 0x03, 0x15, 0x06, 0x24]]) := by decide

/-- V80: `CLK.SET 0, 60, 12, 1, 1, 1, 24, 0` -/
theorem test_clkSet_V80 :
    outcome (running { op := 0x22, p2 := 0x3C, p3 := 0x0C, p4 := 0x01, p5 := 0x01, p6 := 0x01, p7 := 0x18 } []) =
      some ({ err := 0x01 }, []) := by decide

/-- V83: `CLK.READ` -/
theorem test_clkRead_V83 :
    outcome (running { op := 0x23 } [.ok [0x00, 0x30, 0x69, 0x02, 0x11, 0x11, 0x26]]) =
      some ({ q2 := 0x1E, q3 := 0x15, q4 := 0x02, q5 := 0x0B, q6 := 0x0B, q7 := 0x1A, q8 := 0x01, q9 := 0x09, q10 := 0x01 }, [.read .clock]) := by decide

/-- V84: `CLK.READ` -/
theorem test_clkRead_V84 :
    outcome (running { op := 0x23 } [.ok [0x00, 0x00, 0x00, 0x01, 0x01, 0x01]]) =
      some ({ err := 0x03 }, [.read .clock]) := by decide

/-- V90: `A1.ENC 2, 0, 15, 8, 2` -/
theorem test_a1Enc_V90 :
    outcome (running { op := 0x30, p1 := 0x02, p3 := 0x0F, p4 := 0x08, p5 := 0x02 } []) =
      some ({ q2 := 0x15, q3 := 0x08, q4 := 0x42 }, []) := by decide

/-- V94: `A1.ENC 2, 0, 0, 0, 8` -/
theorem test_a1Enc_V94 :
    outcome (running { op := 0x30, p1 := 0x02, p5 := 0x08 } []) =
      some ({ err := 0x01 }, []) := by decide

/-- V101: `A2.ENC 1, 99, 0, 12, 25` -/
theorem test_a2Enc_V101 :
    outcome (running { op := 0x31, p1 := 0x01, p2 := 0x63, p4 := 0x0C, p5 := 0x19 } []) =
      some ({ q2 := 0x12, q3 := 0x25 }, []) := by decide

/-- V104: `A2.ENC 3, 0, 99, 99, 99` -/
theorem test_a2Enc_V104 :
    outcome (running { op := 0x31, p1 := 0x03, p3 := 0x63, p4 := 0x63, p5 := 0x63 } []) =
      some ({ err := 0x01 }, []) := by decide

/-- V111: `A1.DEC 4, 0x00, 0x00, 0x72, 0x01` -/
theorem test_a1Dec_V111 :
    outcome (running { op := 0x32, p1 := 0x04, p4 := 0x72, p5 := 0x01 } []) =
      some ({ q1 := 0x01, q4 := 0x0C, q5 := 0x01 }, []) := by decide

/-- V222: `A1.DEC 5, 0xFF, 0xFF, 0xFF, 0xFF` -/
theorem test_a1Dec_V222 :
    outcome (running { op := 0x32, p1 := 0x05, p2 := 0xFF, p3 := 0xFF, p4 := 0xFF, p5 := 0xFF } []) =
      some ({ err := 0x03 }, []) := by decide

/-- V117: `A2.DEC 3, 0x30, 0x07, 0x80` -/
theorem test_a2Dec_V117 :
    outcome (running { op := 0x33, p1 := 0x03, p2 := 0x30, p3 := 0x07, p4 := 0x80 } []) =
      some ({ q3 := 0x1E, q4 := 0x07 }, []) := by decide

/-- V118: `A2.DEC 3, 0x45, 0x23, 0x47` -/
theorem test_a2Dec_V118 :
    outcome (running { op := 0x33, p1 := 0x03, p2 := 0x45, p3 := 0x23, p4 := 0x47 } []) =
      some ({ q1 := 0x02, q3 := 0x2D, q4 := 0x17, q5 := 0x07 }, []) := by decide

/-- V123: `A.OFFSET 0, 58, 22, 1, 1, 1, 24, 59` -/
theorem test_aOffset_V123 :
    outcome (running { op := 0x34, p2 := 0x3A, p3 := 0x16, p4 := 0x01, p5 := 0x01, p6 := 0x01, p7 := 0x18, p8 := 0x3B } []) =
      some ({ q1 := 0x02, q3 := 0x39, q4 := 0x17, q5 := 0x01 }, []) := by decide

/-- V124: `A.OFFSET 0, 59, 23, 1, 1, 1, 24, 1` -/
theorem test_aOffset_V124 :
    outcome (running { op := 0x34, p2 := 0x3B, p3 := 0x17, p4 := 0x01, p5 := 0x01, p6 := 0x01, p7 := 0x18, p8 := 0x01 } []) =
      some ({ err := 0x01 }, []) := by decide

/-- V130: `A1.SET 1, 0, 30, 6, 15` -/
theorem test_a1Set_V130 :
    outcome (running { op := 0x35, p1 := 0x01, p3 := 0x1E, p4 := 0x06, p5 := 0x0F } [.ok []]) =
      some ({}, [.write .alarm1 [0x00, 0x30, 0x06, 0x15]]) := by decide

/-- V132: `A1.SET 2, 0, 30, 6, 1` -/
theorem test_a1Set_V132 :
    outcome (running { op := 0x35, p1 := 0x02, p3 := 0x1E, p4 := 0x06, p5 := 0x01 } [.fail]) =
      some ({ err := 0x04 }, [.write .alarm1 [0x00, 0x30, 0x06, 0x41]]) := by decide

/-- V134: `A1.READ` -/
theorem test_a1Read_V134 :
    outcome (running { op := 0x36 } [.ok [0x00, 0x30, 0x06, 0x15]]) =
      some ({ q1 := 0x01, q3 := 0x1E, q4 := 0x06, q5 := 0x0F }, [.read .alarm1]) := by decide

/-- V135: `A1.READ` -/
theorem test_a1Read_V135 :
    outcome (running { op := 0x36 } [.ok [0x00, 0x00, 0x00]]) =
      some ({ err := 0x03 }, [.read .alarm1]) := by decide

/-- V137: `A2.SET 2, 0, 45, 23, 7` -/
theorem test_a2Set_V137 :
    outcome (running { op := 0x37, p1 := 0x02, p3 := 0x2D, p4 := 0x17, p5 := 0x07 } [.ok []]) =
      some ({}, [.write .alarm2 [0x45, 0x23, 0x47]]) := by decide

/-- V138: `A2.SET 0, 0, 45, 23, 7` -/
theorem test_a2Set_V138 :
    outcome (running { op := 0x37, p3 := 0x2D, p4 := 0x17, p5 := 0x07 } []) =
      some ({ err := 0x02 }, []) := by decide

/-- V140: `A2.READ` -/
theorem test_a2Read_V140 :
    outcome (running { op := 0x38 } [.ok [0x45, 0x23, 0x47]]) =
      some ({ q1 := 0x02, q3 := 0x2D, q4 := 0x17, q5 := 0x07 }, [.read .alarm2]) := by decide

/-- V143: `A2.READ` -/
theorem test_a2Read_V143 :
    outcome (running { op := 0x38 } [.fail]) =
      some ({ err := 0x04 }, [.read .alarm2]) := by decide

/-- V145: `ST.DEC 0x83` -/
theorem test_stDec_V145 :
    outcome (running { op := 0x40, p1 := 0x83 } []) =
      some ({ q1 := 0x01, q2 := 0x01, q3 := 0x01, q4 := 0x83 }, []) := by decide

/-- V146: `ST.DEC 0x7C` -/
theorem test_stDec_V146 :
    outcome (running { op := 0x40, p1 := 0x7C } []) =
      some ({ q4 := 0x7C }, []) := by decide

/-- V152: `ST.CLR 0x80, 3` -/
theorem test_stClr_V152 :
    outcome (running { op := 0x41, p1 := 0x80, p2 := 0x03 } []) =
      some ({ q1 := 0x80 }, []) := by decide

/-- V154: `ST.CLR 0xFF, 4` -/
theorem test_stClr_V154 :
    outcome (running { op := 0x41, p1 := 0xFF, p2 := 0x04 } []) =
      some ({ err := 0x01 }, []) := by decide

/-- V159: `CTL.BUILD 1, 0, 1, 2` -/
theorem test_ctlBuild_V159 :
    outcome (running { op := 0x42, p1 := 0x01, p3 := 0x01, p4 := 0x02 } []) =
      some ({ q1 := 0x16 }, []) := by decide

/-- V160: `CTL.BUILD 2, 0, 0, 0` -/
theorem test_ctlBuild_V160 :
    outcome (running { op := 0x42, p1 := 0x02 } []) =
      some ({ err := 0x01 }, []) := by decide

/-- V165: `SQW.CODE 3` -/
theorem test_sqwCode_V165 :
    outcome (running { op := 0x43, p1 := 0x03 } []) =
      some ({ q1 := 0x03 }, []) := by decide

/-- V166: `SQW.CODE 4` -/
theorem test_sqwCode_V166 :
    outcome (running { op := 0x43, p1 := 0x04 } []) =
      some ({ err := 0x01 }, []) := by decide

/-- V169: `CTL.DEC 0xFF` -/
theorem test_ctlDec_V169 :
    outcome (running { op := 0x44, p1 := 0xFF } []) =
      some ({ q1 := 0x01, q2 := 0x01, q3 := 0x01, q4 := 0x03, q5 := 0xFF }, []) := by decide

/-- V170: `CTL.DEC 0x05` -/
theorem test_ctlDec_V170 :
    outcome (running { op := 0x44, p1 := 0x05 } []) =
      some ({ q1 := 0x01, q2 := 0x01, q5 := 0x05 }, []) := by decide

/-- V172: `ST.READ` -/
theorem test_stRead_V172 :
    outcome (running { op := 0x45 } [.ok [0x80]]) =
      some ({ q1 := 0x01, q4 := 0x80 }, [.read .status]) := by decide

/-- V173: `ST.READ` -/
theorem test_stRead_V173 :
    outcome (running { op := 0x45 } [.ok []]) =
      some ({ err := 0x03 }, [.read .status]) := by decide

/-- V176: `ST.CLRF 1` -/
theorem test_stClrf_V176 :
    outcome (running { op := 0x46, p1 := 0x01 } [.ok [0x83], .ok []]) =
      some ({ q1 := 0x82 }, [.read .status, .write .status [0x82]]) := by decide

/-- V178: `ST.CLRF 0` -/
theorem test_stClrf_V178 :
    outcome (running { op := 0x46 } [.ok [0x83]]) =
      some ({ q1 := 0x83 }, [.read .status]) := by decide

/-- V185: `SQW.SET 3` -/
theorem test_sqwSet_V185 :
    outcome (running { op := 0x47, p1 := 0x03 } [.ok [0x87], .ok []]) =
      some ({ q1 := 0x9B }, [.read .control, .write .control [0x9B]]) := by decide

/-- V187: `SQW.SET 2` -/
theorem test_sqwSet_V187 :
    outcome (running { op := 0x47, p1 := 0x02 } [.ok [0x07], .fail]) =
      some ({ err := 0x04 }, [.read .control, .write .control [0x13]]) := by decide

/-- V188: `SQW.OFF` -/
theorem test_sqwOff_V188 :
    outcome (running { op := 0x48 } [.ok [0x08], .ok []]) =
      some ({ q1 := 0x0C }, [.read .control, .write .control [0x0C]]) := by decide

/-- V190: `SQW.OFF` -/
theorem test_sqwOff_V190 :
    outcome (running { op := 0x48 } [.fail]) =
      some ({ err := 0x04 }, [.read .control]) := by decide

/-- V192: `CTL.READ` -/
theorem test_ctlRead_V192 :
    outcome (running { op := 0x49 } [.ok [0xB9]]) =
      some ({ q2 := 0x01, q4 := 0x03, q5 := 0xB9 }, [.read .control]) := by decide

/-- V193: `CTL.READ` -/
theorem test_ctlRead_V193 :
    outcome (running { op := 0x49 } [.ok [0x05, 0x00]]) =
      some ({ err := 0x03 }, [.read .control]) := by decide

/-- V196: `CTL.WRITE 0, 1, 1, 0` -/
theorem test_ctlWrite_V196 :
    outcome (running { op := 0x4A, p2 := 0x01, p3 := 0x01 } [.ok [0x80], .ok []]) =
      some ({ q1 := 0x83 }, [.read .control, .write .control [0x83]]) := by decide

/-- V198: `CTL.WRITE 1, 0, 0, 0` -/
theorem test_ctlWrite_V198 :
    outcome (running { op := 0x4A, p1 := 0x01 } [.fail]) =
      some ({ err := 0x04 }, [.read .control]) := by decide

/-- V205: `T.DEC 0xFF, 0x40` -/
theorem test_tDec_V205 :
    outcome (running { op := 0x50, p1 := 0xFF, p2 := 0x40 } []) =
      some ({ q1 := 0xFF, q2 := 0xFD }, []) := by decide

/-- V207: `T.DEC 0x80, 0x00` -/
theorem test_tDec_V207 :
    outcome (running { op := 0x50, p1 := 0x80 } []) =
      some ({ q1 := 0xFE }, []) := by decide

/-- V211: `T.READ` -/
theorem test_tRead_V211 :
    outcome (running { op := 0x51 } [.ok [0xF6, 0x80]]) =
      some ({ q1 := 0xFF, q2 := 0xDA }, [.read .temperature]) := by decide

/-- V212: `T.READ` -/
theorem test_tRead_V212 :
    outcome (running { op := 0x51 } [.ok [0x19]]) =
      some ({ err := 0x03 }, [.read .temperature]) := by decide
/-! ## The block -/

/-- 95_test_vectors.md, the opcodes next to the assigned ones. -/
theorem test_illegal_opcodes :
    ([0x00, 0x03, 0x14, 0x24, 0x39, 0x4B, 0x52, 0xFF] : List Byte).all
      (fun op => outcome (running { op } []) = some ({ err := 5 }, [])) = true := by decide

/-- V225. -/
theorem test_tRead_absent :
    outcome { running { op := 0x51 } [] with hasTemperature := false } = some ({ err := 5 }, []) := by
  decide

/-- 10_state.md R31: an offered frame is accepted, then it runs. -/
theorem test_offer_then_run :
    (after (after { State.reset with host := [.offer { op := 0x01, p1 := 0x2A }] })).rsp =
      { q1 := 0x42 } := by decide

/-- 30_encoding.md R118: a line of assembler is the frame of the command. -/
theorem test_assembleLine :
    assembleLine "A2.SET 2, 0, 0x2D, 23, 7" = some (encode (.a2Set 2 45 23 7)) := by decide

/-- 30_encoding.md R119: the pseudo-instruction that clears both alarm flags. -/
theorem test_pseudo_stClrAll : encode Pseudo.stClrAll.expand = { op := 0x46, p1 := 0x03 } := by
  decide

/-- 10_state.md R43: alarm registers return what was written, whatever was drawn. -/
theorem test_stable_read :
    (after { after (running { op := 0x35, p1 := 1, p3 := 30, p4 := 6, p5 := 15 } [.ok []]) with
        phase := .busy, cmd := { op := 0x36 }, answers := [.ok [0xFF, 0xFF, 0xFF, 0xFF]] }).rsp =
      { q1 := 1, q3 := 30, q4 := 6, q5 := 15 } := by decide

/-- 10_state.md R31, 70_reset_and_hazards.md R450, R451: a frame is accepted, its write is issued and not
answered, and the host resets the waiting block: the write's range is known no more, and no response
stands. The frame offered meanwhile is held. -/
theorem test_reset_abandons_issued_write :
    let s := after (after (after { State.reset with
      host := [.offer { op := 0x37, p1 := 1, p3 := 30, p4 := 6, p5 := 15 }, .offer { op := 0x23 },
               .pass .block, .reset],
      answers := [.silent], regs := [(0x0A, 0x80), (0x0B, 0x45), (0x0E, 0x1C)] }))
    s.phase = .idle ∧ s.inFlight = none ∧ s.rspValid = false ∧
      s.regs = [(0x0A, 0x80), (0x0E, 0x1C)] ∧ s.host = [.offer { op := 0x23 }] ∧
      s.requests = [.write .alarm2 [0x30, 0x06, 0x15]] := by decide

/-- 10_state.md R31: the response is taken while the block is Busy, and the frame offered is held. -/
theorem test_take_in_busy :
    (let s := after { running { op := 0x23 } [] with
        rspValid := true, host := [.offer { op := 0x45 }, .take] }
     (s.phase, s.rspValid, s.host)) = (.busy, false, [.offer { op := 0x45 }]) := by decide

/-- 10_state.md R30, 20_memory.md R63, R72: the transport answers the read of an SQW.OFF at once and its
write two moves later; then the command ends. -/
theorem test_late_answer :
    let s := after (after (after (running { op := 0x48 } [.ok [0x08], .silent, .silent, .ok []])))
    (s.phase, s.inFlight, s.rsp, s.regs, s.requests) =
      (.idle, none, { q1 := 0x0C }, [(0x0E, 0x0C)], [.read .control, .write .control [0x0C]]) := by
  decide

/-- 10_state.md R30, R43: the peer moves while the block waits; its volatile registers may change. -/
theorem test_peer_moves :
    let s := after { running { op := 0x23 } [] with
      inFlight := some (.read .clock), host := [.pass .peer],
      regs := [(0x00, 0x59), (0x07, 0x30), (0x0E, 0x1C), (0x0F, 0x80)] }
    (s.phase, s.inFlight, s.regs, s.host) =
      (.busy, some (.read .clock), [(0x07, 0x30), (0x0E, 0x1C)], []) := by decide

theorem test_withFetchWord_runs :
    outcome (State.reset.withFetchWord 16 0x2A01) = some ({ q1 := 0x42 }, []) ∧
    outcome ({ State.reset with host := [.offer { op := 0x23 }, .reset] }.withFetchWord 16 0x2A01) =
      some ({ q1 := 0x42 }, []) := by decide

/-! ## Witnesses: for each obligation with hypotheses, values that meet them

Where an obligation says what each opcode decodes to, a frame with the opcode is one with that byte.
For the clauses over operands the values stand at the ends of their ranges. -/

/-- An Idle block with the transport's coming answers. -/
def answering (answers : List Answer) : State := { State.reset with answers }

/-- A Busy block with CLK.READ as its frame, and what the host will do. -/
def busyWith (host : List HostAction) : State := { running { op := 0x23 } [] with host }

/-- With no host, the block moves while it has no request unanswered, and else the transport. -/
theorem turn_of_no_host {s : State} (h : s.host = []) :
    s.turnOf (if s.inFlight.isSome then .transport else .block) [] :=
  .inr ⟨⟨by simp [h], fun _ => h⟩, h.symm, rfl⟩

/-- An action past the frames that a Busy block holds back. -/
theorem busy_does {s : State} (held : List HostAction) (a : HostAction) (later : List HostAction)
    (hh : held.all HostAction.isOffer = true) (ha : a.isOffer = false)
    (hs : s.host = held ++ a :: later := by rfl) (hp : s.phase = .busy := by rfl) :
    s.hostDoes a (held ++ later) :=
  ⟨held, later, hs, rfl, by simpa using hh, fun h => (by rw [hp] at h; cases h), fun _ => ha⟩

theorem idle_does {s : State} (a : HostAction) (later : List HostAction) (hs : s.host = a :: later)
    (hp : s.phase = .idle) : s.hostDoes a later :=
  ⟨[], later, hs, rfl, (fun _ h => nomatch h), fun _ => rfl, fun h => (by rw [hp] at h; cases h)⟩

/-- While the block is Idle and no request is unanswered, the next step changes no stable and no mixed
register. -/
theorem idle_writesNothing {s : State} (hp : s.phase = .idle) (hf : s.inFlight = none) {a : Nat}
    (ha : classOf a ≠ .volatile) : ¬ s.mayWrite a := by
  rintro (⟨_, _, _, h, _⟩ | ⟨_, _, _, _, h, _⟩ | ⟨_, _, h⟩)
  · rw [hp] at h; cases h
  · rw [hf] at h; cases h
  · exact ha h

theorem classOf_alarm {a : Nat} (h1 : 0x07 ≤ a) (h2 : a ≤ 0x0D) : classOf a ≠ .volatile := by
  simp [classOf, h1, h2]

/-- A time at the upper, and one at the lower, end of every field's domain. -/
def lastTime : TimeBlock :=
  { sec := 59, min := 59, hour := 23, dow := 7, date := 31, month := 12, year := 99 }

def firstTime : TimeBlock :=
  { sec := 0, min := 0, hour := 0, dow := 1, date := 1, month := 1, year := 0 }

theorem witness_frame_of_opcode (op : Byte) : ∃ f : CmdFrame, f.op = op := ⟨{ op }, rfl⟩

theorem witness_DecodeOfEncode :
    Instr.tRead.wellFormed true = true ∧ (Instr.clkSet lastTime 255).wellFormed false = true := by
  decide

theorem witness_DecodedCommandExists : decode true { op := 0x51, p1 := 0xFF } = .ok .tRead := rfl

theorem witness_UnnamedOperandBytesAreIgnored :
    ∃ (f g : CmdFrame) (s : State), f ≠ g ∧ decode false f = .ok (.a2Enc 1 0 12 25) ∧ g.op = f.op ∧
      (∀ k ∈ (Instr.a2Enc 1 0 12 25).operandPositions, g.operand k = f.operand k) ∧
      s.hasTemperature = false :=
  ⟨{ op := 0x31, p1 := 1, p4 := 12, p5 := 25 },
   { op := 0x31, p1 := 1, p2 := 99, p4 := 12, p5 := 25, p8 := 7, p15 := 1 },
   { State.reset with hasTemperature := false }, by decide, rfl, rfl, by decide, rfl⟩

/-- Both ends of each range of R106, and the assigned opcodes next to them. -/
theorem witness_IllegalOpcodesRaiseIllegalCommand :
    (let s := { running { op := 0x50 } [] with hasTemperature := false }
     s.phase = .busy ∧ s.turnOf .block [] ∧ s.inFlight = none ∧
       illegalOpcode s.hasTemperature s.cmd.op.toNat = true) ∧
    ([0x00, 0x03, 0x0F, 0x14, 0x1F, 0x24, 0x2F, 0x39, 0x3F, 0x4B, 0x4F, 0x52, 0xFF].all
      (illegalOpcode true) = true) ∧
    ([0x01, 0x02, 0x10, 0x13, 0x20, 0x23, 0x30, 0x38, 0x40, 0x4A, 0x50, 0x51].all
      (fun op => !illegalOpcode true op) = true) :=
  ⟨⟨rfl, turn_of_no_host rfl, rfl, rfl⟩, by decide, by decide⟩

/-- The host does nothing; the host passes to the block, with a frame held back and a reset to come. -/
theorem witness_StepRunsTheDecodedCommand :
    (let s := running { op := 0x51 } []
     s.phase = .busy ∧ s.turnOf .block [] ∧ s.inFlight = none ∧
      decode s.hasTemperature s.cmd = .ok .tRead ∧ s.hasTemperature = true ∧
      decodeTableWord 8 0x51 = some .tRead) ∧
    (busyWith [.offer { op := 0x45 }, .pass .block, .reset]).turnOf .block
      [.offer { op := 0x45 }, .reset] :=
  ⟨⟨rfl, turn_of_no_host rfl, rfl, rfl, rfl, rfl⟩,
   .inl (busy_does [.offer { op := 0x45 }] _ [.reset] (by decide) rfl)⟩

theorem witness_IdleBlockServesTheHost :
    State.reset.phase = .idle ∧ State.reset.host = [] ∧
    ∃ s1 s2 s3 s4 : State, s1.phase = .idle ∧ s1.host = [.offer { op := 0x23 }] ∧
      s2.phase = .idle ∧ s2.host = [.take] ∧ s3.phase = .idle ∧
      s3.host = [.pass .transport] ∧ s4.phase = .idle ∧ s4.host = [.pass .peer] :=
  ⟨rfl, rfl, { State.reset with host := [.offer { op := 0x23 }] },
   { State.reset with host := [.take] },
   { State.reset with host := [.pass .transport] }, { State.reset with host := [.pass .peer] },
   rfl, rfl, rfl, rfl, rfl, rfl, rfl, rfl⟩

/-- A frame held back; a take past it, and a pass to the peer; and no reset. -/
theorem witness_BusyBlockAcceptsNoFrame :
    (let s := busyWith [.offer { op := 0x45 }, .take]
     s.phase = .busy ∧ (∃ t, step s = .next t) ∧ s.hostDoes .take [.offer { op := 0x45 }] ∧
       ∀ rest, ¬ s.hostDoes .reset rest) ∧
    (busyWith [.offer { op := 0x45 }, .pass .peer]).turnOf .peer [.offer { op := 0x45 }] :=
  ⟨⟨rfl, ⟨_, rfl⟩, busy_does [.offer { op := 0x45 }] _ [] (by decide) rfl,
    fun _ h => absurd h.due.1 (by decide)⟩,
   .inl (busy_does [.offer { op := 0x45 }] _ [] (by decide) rfl)⟩

/-- A reset in Idle, and one past a held frame while a request is unanswered. -/
theorem witness_ResetClearsTheBlock :
    { State.reset with host := [.reset, .take] }.hostDoes .reset [.take] ∧
    { busyWith [.offer { op := 0x45 }, .reset] with inFlight := some (.read .clock) }.hostDoes
      .reset [.offer { op := 0x45 }] :=
  ⟨idle_does _ _ rfl rfl, busy_does [.offer { op := 0x45 }] _ [] (by decide) rfl⟩

/-- A reset that abandons a one-byte write, with the ends of its range and the addresses beside it; one
that abandons a read; one that abandons nothing. -/
theorem witness_ResetIsNotATransaction :
    (∃ s : State, s.hostDoes .reset [] ∧ s.inFlight = some (.write .control [0x05]) ∧
      (Burst.control.base ≤ 0x0E ∧ 0x0E < Burst.control.base + Burst.control.count) ∧
      0x0D < Burst.control.base ∧ Burst.control.base + Burst.control.count ≤ 0x0F) ∧
    (∃ s : State, s.hostDoes .reset [] ∧ ∃ b, s.inFlight = some (.read b)) ∧
    ∃ s : State, s.hostDoes .reset [] ∧ s.inFlight = none :=
  ⟨⟨{ busyWith [.reset] with inFlight := some (.write .control [0x05]) },
    busy_does [] _ [] (by decide) rfl, rfl, by decide, by decide, by decide⟩,
   ⟨{ busyWith [.reset] with inFlight := some (.read .clock) },
    busy_does [] _ [] (by decide) rfl, .clock, rfl⟩,
   { State.reset with host := [.reset] }, idle_does _ _ rfl rfl, rfl⟩

theorem witness_ResetValues :
    ∀ b bytes, (running { op := 0x23 } []).inFlight ≠ some (.write b bytes) := by
  intro b bytes h; cases h

/-- A legal block that waits for the answer to its CLK.READ. -/
def waitingBlock (host : List HostAction) (answers : List Answer) : State :=
  { busyWith host with inFlight := some (.read .clock), rspValid := true, answers,
                       requests := [.read .clock] }

theorem waitingBlock_inv (host : List HostAction) (answers : List Answer) :
    (waitingBlock host answers).Inv :=
  ⟨show Memory.wf [] by decide, rfl, fun _ => rfl, (by rintro r ⟨⟩; rfl),
   (by rintro r ⟨⟩; exact ⟨.clkRead, rfl, rfl, .inl ⟨.clock, rfl, rfl⟩⟩),
   show ∀ r ∈ [Request.read .clock], r.legal = true by decide⟩

/-- A waiting block whose host takes the old response, and one whose transport is silent; the transport's
turn at a waiting block; answers without a silence; and an ST.CLRF whose write is answered late. -/
theorem witness_AnsweredCommandsComplete :
    (let s := waitingBlock [.take] [.ok []]
     s.phase = .busy ∧ s.inFlight = some (.read .clock) ∧ s.hostDoes .take [] ∧
       (∀ rest, ¬ s.hostDoes .reset rest) ∧ ∀ rest, ¬ s.turnOf .transport rest) ∧
    (let s := waitingBlock [] [.silent]
     nextAnswer s = .silent ∧ s.turnOf .transport [] ∧ ∀ rest, ¬ s.hostDoes .reset rest) ∧
    (let s := waitingBlock [] [.ok [1, 2, 3]]
     s.Inv ∧ s.inFlight = some (.read .clock) ∧ s.turnOf .transport [] ∧ .silent ∉ s.answers) ∧
    .silent ∉ (answering [.ok [0x00], .fail]).answers ∧
    ∃ s t u : State, decode s.hasTemperature s.cmd = .ok (.stClrf 1) ∧ s.inFlight = none ∧
      .silent ∉ [Answer.ok [0x83]] ∧ s.answers = [.ok [0x83]] ++ .silent :: [.ok []] ∧
      exec (.stClrf 1) s = .next t ∧ t.inFlight.isSome = true ∧ t.turnOf .transport [] ∧
      exec (.stClrf 1) { s with answers := [.ok [0x83]] ++ [.ok []] } = .next u :=
  ⟨⟨rfl, rfl, busy_does [] _ [] (by decide) rfl, fun _ h => absurd h.due.1 (by decide),
    fun rest h => h.elim (fun h => absurd h.due.1 (by decide))
      fun h => absurd (hostQuiet_iff.1 h.1) (by decide)⟩,
   ⟨rfl, turn_of_no_host rfl, fun _ h => absurd h.due.1 (by decide)⟩,
   ⟨waitingBlock_inv _ _, rfl, turn_of_no_host rfl, by decide⟩, by decide,
   running { op := 0x46, p1 := 1 } [.ok [0x83], .silent, .ok []], _, _, rfl, rfl, by decide, rfl, rfl,
   rfl, turn_of_no_host rfl, rfl⟩

/-- A legal state from which a step runs a read-modify-write. -/
theorem witness_StepKeepsTheInvariant :
    ∃ s t : State, s.Inv ∧ s.requests ≠ [] ∧ s.regs ≠ [] ∧ step s = .next t ∧ t.regs ≠ s.regs := by
  refine ⟨{ running { op := 0x46, p1 := 1 } [.ok [0x83], .ok []] with
      regs := [(0x07, 0x00), (0x0E, 0x1C)], requests := [.read .clock] }, _, ?_, by decide, by decide,
      rfl, by decide⟩
  exact ⟨by decide, rfl, by decide, (by intro r h; cases h), (by intro r h; cases h), by decide⟩

theorem witness_InputErrorsComeBeforeAnyAccess :
    (Instr.clkParse 6 0 0 0 0 0 0 0).inputError = some .malformedRegisterData ∧
    (Instr.a1Set 3 0 0 0 0).inputError = some .outOfRange ∧
    (Instr.a2Set 0 60 0 0).inputError = some .unsupportedAlarmVariant ∧
    (Instr.clkSet firstTime 2).inputError = some .outOfRange := by decide

theorem witness_GoodOperandsRaiseNoInputError :
    ∃ t : State, (Instr.a2Set 2 59 23 7).inputError = none ∧
      exec (.a2Set 2 59 23 7) (answering [.ok []]) = .next t ∧ t.phase = .idle :=
  ⟨_, by decide, rfl, rfl⟩

theorem witness_PureCommandsOnlyRespond : (Instr.tDec 0x80 0x00).isPure = true := by decide

theorem witness_CommandFrame :
    (∃ t : State, exec .tRead (answering [.ok [0x19, 0x40]]) = .next t ∧ t.phase = .idle) ∧
    ∃ t : State, exec .tRead (answering [.silent]) = .next t ∧ t.phase = .busy :=
  ⟨⟨_, rfl, rfl⟩, _, rfl, rfl⟩

/-- The addresses on both sides of the range that A2.SET writes, and a command that writes none. -/
theorem witness_RegistersOutsideTheWrittenRangeStay :
    (∃ t : State, exec (.a2Set 2 59 23 7) (answering [.ok []]) = .next t) ∧
    (Instr.a2Set 2 59 23 7).writesAt 0x0A = false ∧ (Instr.a2Set 2 59 23 7).writesAt 0x0E = false ∧
    Instr.a2Read.writesAt 0x0B = false := ⟨⟨_, rfl⟩, by decide, by decide, by decide⟩

/-- Two states that differ in the frame, the response, the host's actions and the history only. -/
theorem witness_ResultsDependOnlyOnCommandAndAnswers :
    ∃ s s' t t' : State, s ≠ s' ∧ s'.answers = s.answers ∧ s'.drawn = s.drawn ∧ s'.regs = s.regs ∧
      exec .stRead s = .next t ∧ exec .stRead s' = .next t' ∧ t.phase = .idle :=
  ⟨answering [.ok [0x80]],
   { answering [.ok [0x80]] with cmd := { op := 0x23 }, rsp := { err := 3 }, rspValid := true,
                                 host := [.take], requests := [.read .status] },
   _, _, by decide, rfl, rfl, rfl, rfl, rfl, rfl⟩

theorem witness_CommandsIssueTheirBurstsInOrder :
    ∃ t : State, exec (.stClrf 3) (answering [.ok [0x83], .ok []]) = .next t ∧ t.phase = .idle ∧
      t.rsp.err = 0 := ⟨_, rfl, rfl, rfl⟩

theorem witness_FailedReadRaisesTransportFailure :
    (Instr.sqwSet 3).inputError = none ∧
    (Instr.sqwSet 3).bursts.head? = some (Request.shape (.read .control)) ∧
    nextAnswer (answering [.fail]) = .fail := by decide

/-- One byte short, and one byte long. -/
theorem witness_WrongCountRaisesMalformedRegisterData :
    Instr.tRead.inputError = none ∧
    Instr.tRead.bursts.head? = some (Request.shape (.read .temperature)) ∧
    nextAnswer (answering [.ok [0x19]]) = .ok [0x19] ∧
    ([0x19] : List Byte).length ≠ Burst.temperature.count ∧
    nextAnswer (answering [.ok [0x19, 0x40, 0x00]]) = .ok [0x19, 0x40, 0x00] ∧
    ([0x19, 0x40, 0x00] : List Byte).length ≠ Burst.temperature.count := by decide

theorem witness_UnansweredRequestLeavesTheBlockWaiting :
    ((Instr.stClrf 1).inputError = none ∧
      (Instr.stClrf 1).bursts.head? = some (Request.shape (.read .status)) ∧
      (Instr.stClrf 1).bursts.map Prod.fst = [false, true] ∧
      nextAnswer (answering [.silent]) = .silent ∧
      nextAnswer (answering [.ok [0x83], .silent]) = .ok [0x83] ∧
      nextAnswer (requested (answering [.ok [0x83], .silent]) (.read .status)) = .silent) ∧
    (Instr.a2Set 2 59 23 7).inputError = none ∧
    (Instr.a2Set 2 59 23 7).setRequest = some (.write .alarm2 [0x59, 0x23, 0x47]) := by decide

/-- 44_status_control.md R291, R292, R293, R295: the bytes written back of 0x83 and of 0xE1. -/
theorem test_rewritten :
    (Instr.stClrf 1).rewritten 0x83 = 0x82 ∧ (Instr.sqwSet 3).rewritten 0xE5 = 0xF9 ∧
    Instr.sqwOff.rewritten 0xF9 = 0xFD ∧ (Instr.ctlWrite 1 0 1 2).rewritten 0xE1 = 0xF6 := by decide

theorem witness_FailedWriteBecomesDraws :
    ((Instr.a1Set 2 59 59 23 7).inputError = none ∧
      (Instr.a1Set 2 59 59 23 7).bursts.map Prod.fst = [true] ∧
      nextAnswer (answering [.fail]) = .fail ∧
      (∃ t, exec (.a1Set 2 59 59 23 7) (answering [.fail]) = .next t) ∧
      (Instr.a1Set 2 59 59 23 7).writesAt 0x07 = true ∧
      (Instr.a1Set 2 59 59 23 7).writesAt 0x0A = true) ∧
    (Instr.sqwOff.inputError = none ∧ Instr.sqwOff.bursts.map Prod.fst = [false, true] ∧
      Instr.sqwOff.bursts.head? = some (Request.shape (.read .control)) ∧
      nextAnswer (answering [.ok [0x1F], .fail]) = .ok [0x1F] ∧
      nextAnswer (requested (answering [.ok [0x1F], .fail]) (.read .control)) = .fail ∧
      (∃ t, exec .sqwOff (answering [.ok [0x1F], .fail]) = .next t) ∧
      Instr.sqwOff.writesAt 0x0E = true) :=
  ⟨⟨by decide, by decide, by decide, ⟨_, rfl⟩, by decide, by decide⟩,
   by decide, by decide, by decide, by decide, by decide, ⟨_, rfl⟩, by decide⟩

/-- The ends of each class, and an address with no byte. -/
theorem witness_ReadsFollowTheVolatilityClass :
    ((0x06 ≤ 0x06 ∨ 0x06 = 0x0F) ∧ (0x07 ≤ 0x07 ∧ 0x07 ≤ 0x0D) ∧ (0x07 ≤ 0x0D ∧ 0x0D ≤ 0x0D)) ∧
    Memory.byteAt [(0x07, 0x30)] 0x08 = none ∧
    peerByte (Memory.put [] 0x0D 0x41) 0x0D 0xFF = 0x41 ∧
    peerByte (Memory.put [] 0x0E 0x05) 0x0E 0xFF = 0xE5 ∧
    peerByte (Memory.put [] 0x0F 0x05) 0x0F 0xFF = 0xFF := by decide

theorem witness_StatusAndControlAreReadBeforeWritten :
    ∃ t : State, exec (.ctlWrite 1 1 0 0) (answering [.ok [0xF8], .fail]) = .next t ∧
      t.requests = (answering []).requests ++ [.read .control, .write .control [0xE5]] ∧
      .write .control [0xE5] ∈ [Request.read .control, Request.write .control [0xE5]] :=
  ⟨_, rfl, rfl, by decide⟩

theorem witness_BcdPackResult : (99 : Byte).toNat ≤ 99 ∧ 99 < (100 : Byte).toNat := by decide

theorem witness_BcdRoundTrip :
    ((99 : Byte).toNat ≤ 99 ∧ ∃ t, exec (.bcdPack 99) State.reset = .next t) ∧
    (∃ t, exec (.bcdUnpack 0x99) State.reset = .next t) ∧
    ∃ t, exec (.bcdUnpack 0x0A) State.reset = .next t :=
  ⟨⟨by decide, _, rfl⟩, ⟨_, rfl⟩, _, rfl⟩

theorem witness_HourEncodeResult :
    ((1 : Byte).toNat ≤ 1 ∧ (23 : Byte).toNat ≤ 23) ∧ 1 < (2 : Byte).toNat ∧
      23 < (24 : Byte).toNat := by decide

theorem witness_HourDisplayAndTo24Result :
    ((1 : Byte).toNat ≤ 1 ∧ (23 : Byte).toNat ≤ 23) ∧ 1 < (2 : Byte).toNat ∧
    23 < (24 : Byte).toNat ∧
    (1 ≤ (1 : Byte).toNat ∧ (12 : Byte).toNat ≤ 12 ∧ (1 : Byte).toNat ≤ 1) ∧
    (0 : Byte).toNat < 1 ∧ 12 < (13 : Byte).toNat := by decide

theorem witness_HourRoundTrip :
    ∃ t u v : State, (1 : Byte).toNat ≤ 1 ∧ (0 : Byte).toNat ≤ 23 ∧
      exec (.hourEnc 1 0) State.reset = .next t ∧ exec (.hourDec t.rsp.q1) t = .next u ∧
      exec (.hourDisp 1 0) u = .next v := ⟨_, _, _, by decide, by decide, rfl, rfl, rfl⟩

/-- Both ends of every field; a mode and a day past the end. -/
theorem witness_ClockBuildResult :
    (firstTime.inDomain = true ∧ lastTime.inDomain = true ∧ (1 : Byte).toNat ≤ 1) ∧
    { firstTime with dow := 0 }.inDomain = false ∧ 1 < (2 : Byte).toNat := by decide

theorem witness_ClockParseResult : ∃ c d : Byte, c = 7 ∧ d ≠ 7 := ⟨7, 6, rfl, by decide⟩

theorem witness_ClockSetResult :
    (lastTime.inDomain = true ∧ (1 : Byte).toNat ≤ 1) ∧
    ({ lastTime with date := 32 }.inDomain = false ∧ 1 < (2 : Byte).toNat) ∧
    nextAnswer (answering [.ok []]) = .ok [] ∧ nextAnswer (answering [.fail]) = .fail := by decide

theorem witness_ClockReadResult :
    nextAnswer (answering [.ok [0, 0, 0x52, 1, 1, 1, 0]]) = .ok [0, 0, 0x52, 1, 1, 1, 0] ∧
    nextAnswer (answering [.ok [0, 0, 0x52, 1, 1, 1]]) = .ok [0, 0, 0x52, 1, 1, 1] ∧
    ([0, 0, 0x52, 1, 1, 1] : List Byte).length ≠ 7 ∧
    nextAnswer (answering [.fail]) = .fail := by decide

theorem witness_ClockRoundTrip :
    ∃ u v : State, lastTime.inDomain = true ∧ (1 : Byte).toNat ≤ 1 ∧
      exec (.clkBuild lastTime 1) State.reset = .next u ∧
      exec (.clkParse 7 u.rsp.q1 u.rsp.q2 u.rsp.q3 u.rsp.q4 u.rsp.q5 u.rsp.q6 u.rsp.q7) u =
        .next v := ⟨_, _, by decide, by decide, rfl, rfl⟩

/-- The last date, the last day, a day that TimeOnly does not read; and one operand past each end. -/
theorem witness_Alarm1EncodeResult :
    ((2 : Byte).toNat ≤ 2 ∧ (59 : Byte).toNat ≤ 59 ∧ (23 : Byte).toNat ≤ 23 ∧
      alarmDayInDomain 1 31 = true ∧ alarmDayInDomain 2 7 = true ∧ alarmDayInDomain 0 255 = true) ∧
    2 < (3 : Byte).toNat ∧ 59 < (60 : Byte).toNat ∧ 23 < (24 : Byte).toNat ∧
    alarmDayInDomain 1 32 = false ∧ alarmDayInDomain 2 8 = false := by decide

/-- As for Alarm-1; the clauses for a zero variant and for a wrong operand do not meet. -/
theorem witness_Alarm2EncodeResult :
    (0 : Byte) = 0 ∧
    (1 ≤ (1 : Byte).toNat ∧ (2 : Byte).toNat ≤ 2 ∧ (59 : Byte).toNat ≤ 59 ∧
      (23 : Byte).toNat ≤ 23 ∧ alarmDayInDomain 1 31 = true ∧ alarmDayInDomain 2 1 = true) ∧
    ((3 : Byte) ≠ 0 ∧ 2 < (3 : Byte).toNat) ∧
    ((1 : Byte) ≠ 0 ∧ alarmDayInDomain 1 0 = false) := by decide

theorem witness_AlarmDecodeResult :
    ∃ a b c d : Byte, a = 4 ∧ b ≠ 4 ∧ c = 3 ∧ d ≠ 3 := ⟨4, 3, 3, 4, rfl, by decide, rfl, by decide⟩

/-- No carry at minute 59; a carry at minute 60, out of hour 22; a carry out of hour 23. -/
theorem witness_AlarmOffsetResult :
    (lastTime.inDomain = true ∧ (0 : Byte).toNat ≤ 59 ∧
      lastTime.min.toNat + (0 : Byte).toNat < 60) ∧
    ({ lastTime with hour := 22 }.inDomain = true ∧ (59 : Byte).toNat ≤ 59 ∧
      60 ≤ lastTime.min.toNat + (1 : Byte).toNat ∧ (22 : Byte).toNat < 23) ∧
    { lastTime with month := 13 }.inDomain = false ∧ 59 < (60 : Byte).toNat ∧
    (lastTime.hour.toNat = 23 ∧ 60 ≤ lastTime.min.toNat + (1 : Byte).toNat) := by decide

theorem witness_Alarm1SetResult :
    ((2 : Byte).toNat ≤ 2 ∧ (59 : Byte).toNat ≤ 59 ∧ (23 : Byte).toNat ≤ 23 ∧
      alarmDayInDomain 2 7 = true) ∧
    (2 < (3 : Byte).toNat ∧ 59 < (60 : Byte).toNat ∧ 23 < (24 : Byte).toNat ∧
      alarmDayInDomain 1 0 = false) ∧
    nextAnswer (answering [.ok []]) = .ok [] ∧ nextAnswer (answering [.fail]) = .fail := by decide

theorem witness_Alarm2SetResult :
    ((0 : Byte) = 0 ∧ (3 : Byte) ≠ 0 ∧ 2 < (3 : Byte).toNat) ∧
    (1 ≤ (1 : Byte).toNat ∧ (1 : Byte).toNat ≤ 2 ∧ (59 : Byte).toNat ≤ 59 ∧
      (23 : Byte).toNat ≤ 23 ∧ alarmDayInDomain 1 31 = true) ∧
    nextAnswer (answering [.ok []]) = .ok [] ∧ nextAnswer (answering [.fail]) = .fail := by decide

theorem witness_AlarmReadResult :
    nextAnswer (answering [.ok [0, 0, 7, 0x80]]) = .ok [0, 0, 7, 0x80] ∧
    nextAnswer (answering [.ok [0x45, 0x23, 0x47]]) = .ok [0x45, 0x23, 0x47] ∧
    ([0, 0, 7, 0x80] : List Byte).length ≠ 3 ∧ ([0x45, 0x23, 0x47] : List Byte).length ≠ 4 ∧
    nextAnswer (answering [.fail]) = .fail := by decide

/-- A TimeOnly alarm with a day-or-date it does not read, and a DayMatch alarm of Alarm-2. -/
theorem witness_AlarmRoundTrip :
    (∃ t u : State, exec (.a1Enc 0 59 59 23 255) State.reset = .next t ∧ t.rsp.err = 0 ∧
      exec (.a1Dec 4 t.rsp.q1 t.rsp.q2 t.rsp.q3 t.rsp.q4) t = .next u) ∧
    ∃ t u : State, exec (.a2Enc 2 59 23 7) State.reset = .next t ∧ t.rsp.err = 0 ∧
      exec (.a2Dec 3 t.rsp.q1 t.rsp.q2 t.rsp.q3) t = .next u :=
  ⟨⟨_, _, rfl, rfl, rfl⟩, _, _, rfl, rfl, rfl⟩

/-- A SET, then a step that takes the response, then a READ; and a register that no step can write. -/
theorem witness_AlarmSetThenReadReturnsIt :
    (∃ t u : State,
      exec (.a1Set 1 0 30 6 31) { answering [.ok [], .ok [1, 2, 3, 4]] with host := [.take] } = .next t ∧
      t.phase = .idle ∧ t.rsp.err = 0 ∧
      Reaches (fun x => ∀ a, 0x07 ≤ a → a ≤ 0x0A → ¬ x.mayWrite a) t u ∧ t ≠ u ∧
      nextAnswer u = .ok [1, 2, 3, 4]) ∧
    (∃ t : State, exec (.a2Set 2 45 23 7) (answering [.ok [], .ok [1, 2, 3]]) = .next t ∧
      t.phase = .idle ∧ t.rsp.err = 0 ∧ Reaches (fun x => ∀ a, 0x0B ≤ a → a ≤ 0x0D → ¬ x.mayWrite a) t t ∧
      nextAnswer t = .ok [1, 2, 3]) ∧
    ∃ t : State, step (answering []) = .next t ∧ ¬ (answering []).mayWrite 0x07 :=
  ⟨⟨_, _, rfl, rfl, rfl, 
    .step (fun _ h1 h2 => idle_writesNothing rfl rfl (classOf_alarm h1 (by omega))) rfl (.here _),
    by decide, rfl⟩,
   ⟨_, rfl, rfl, rfl, .here _, rfl⟩, _, rfl, idle_writesNothing rfl rfl (by decide)⟩

theorem witness_StatusByteResult : (3 : Byte).toNat ≤ 3 ∧ 3 < (4 : Byte).toNat := by decide

theorem witness_ControlBuildResult :
    controlInDomain 1 1 1 3 = true ∧ controlInDomain 2 0 0 0 = false ∧
    controlInDomain 0 0 0 4 = false := by decide

theorem witness_RateCodeAndControlDecodeResult : (3 : Byte).toNat ≤ 3 ∧ 3 < (4 : Byte).toNat := by
  decide

theorem witness_StatusAndControlReadResult :
    nextAnswer (answering [.ok [0x1C]]) = .ok [0x1C] ∧
    nextAnswer (answering [.ok []]) = .ok [] ∧ ([] : List Byte).length ≠ 1 ∧
    nextAnswer (answering [.fail]) = .fail := by decide

theorem witness_StatusClearFlagsResult :
    (3 < (4 : Byte).toNat ∧ (3 : Byte).toNat ≤ 3 ∧ (0 : Byte) = 0 ∧ (3 : Byte) ≠ 0) ∧
    nextAnswer (answering [.ok [0x83], .ok []]) = .ok [0x83] ∧
    nextAnswer (requested (answering [.ok [0x83], .ok []]) (.read .status)) = .ok [] ∧
    nextAnswer (requested (answering [.ok [0x83], .fail]) (.read .status)) = .fail ∧
    nextAnswer (answering [.ok [0x02, 0x00]]) = .ok [0x02, 0x00] ∧
    ([0x02, 0x00] : List Byte).length ≠ 1 ∧ nextAnswer (answering [.fail]) = .fail := by decide

theorem witness_SquareWaveSetResult :
    (3 < (4 : Byte).toNat ∧ (3 : Byte).toNat ≤ 3) ∧
    nextAnswer (answering [.ok [0x87], .ok []]) = .ok [0x87] ∧
    nextAnswer (requested (answering [.ok [0x87], .ok []]) (.read .control)) = .ok [] ∧
    nextAnswer (requested (answering [.ok [0x87], .fail]) (.read .control)) = .fail ∧
    nextAnswer (answering [.ok [0x05, 0x00]]) = .ok [0x05, 0x00] ∧
    ([0x05, 0x00] : List Byte).length ≠ 1 ∧ nextAnswer (answering [.fail]) = .fail := by decide

theorem witness_SquareWaveOffResult :
    nextAnswer (answering [.ok [0x08], .ok []]) = .ok [0x08] ∧
    nextAnswer (requested (answering [.ok [0x08], .ok []]) (.read .control)) = .ok [] ∧
    nextAnswer (requested (answering [.ok [0x08], .fail]) (.read .control)) = .fail ∧
    nextAnswer (answering [.ok []]) = .ok [] ∧ ([] : List Byte).length ≠ 1 ∧
    nextAnswer (answering [.fail]) = .fail := by decide

theorem witness_ControlWriteResult :
    (controlInDomain 1 1 1 3 = true ∧ controlInDomain 0 0 2 0 = false) ∧
    nextAnswer (answering [.ok [0xE0], .ok []]) = .ok [0xE0] ∧
    nextAnswer (requested (answering [.ok [0xE0], .ok []]) (.read .control)) = .ok [] ∧
    nextAnswer (requested (answering [.ok [0xE0], .fail]) (.read .control)) = .fail ∧
    nextAnswer (answering [.ok []]) = .ok [] ∧ ([] : List Byte).length ≠ 1 ∧
    nextAnswer (answering [.fail]) = .fail := by decide

theorem witness_ControlWriteThenReadReturnsIt :
    ∃ t u : State,
      exec (.ctlWrite 1 1 0 3)
        { answering [.ok [0xE0], .ok [], .ok [0x42]] with host := [.take] } = .next t ∧
      t.phase = .idle ∧ t.rsp.err = 0 ∧ Reaches (fun x => ¬ x.mayWrite 0x0E) t u ∧ t ≠ u ∧
      nextAnswer u = .ok [0x42] :=
  ⟨_, _, rfl, rfl, rfl, .step (idle_writesNothing rfl rfl (by decide)) rfl (.here _), by decide, rfl⟩

theorem witness_TemperatureReadResult :
    nextAnswer (answering [.ok [0xF6, 0x80]]) = .ok [0xF6, 0x80] ∧
    nextAnswer (answering [.ok [0x19]]) = .ok [0x19] ∧ ([0x19] : List Byte).length ≠ 2 ∧
    nextAnswer (answering [.fail]) = .fail := by decide

end Sys2Proof.Tests
end

section
/-! PROOFS. The peer's registers (10_state.md): what a read returns, by the volatility class. -/

namespace Sys2Proof.Machine

/-! ## The class of an address -/

/-- The registers of the table's volatile rows (10_state.md R43). -/
theorem classOf_volatile {a : Nat} (h : a ≤ 0x06 ∨ a = 0x0F ∨ a = 0x11 ∨ a = 0x12) :
    classOf a = .volatile := by
  have hs : ¬ (0x07 ≤ a ∧ a ≤ 0x0D) := by omega
  have hm : a ≠ 0x0E := by omega
  simp [classOf, hs, hm]

/-- The alarm registers (10_state.md R43). -/
theorem classOf_stable {a : Nat} (h : 0x07 ≤ a ∧ a ≤ 0x0D) : classOf a = .stable := by
  simp [classOf, h]

/-! ## A read after a write -/

/-- A written control register reads as its draw with bits [4:0] replaced by the written ones
(10_state.md R43), which is what CTL.WRITE does to the byte it has read. -/
theorem peerByte_put_control (m : Memory) (b d : Byte) :
    peerByte (m.put 0x0E b) 0x0E d = withControlBits (b &&& 0x1F) d := by
  rw [peerByte_mixed rfl (byteAt_put_self m 0x0E b), withControlBits, BitVec.or_comm]

/-- Replacing bits [4:0] of a byte, as a number. -/
theorem withControlBits_toNat {w : Byte} (hw : w.toNat < 32) (x : Byte) :
    (withControlBits w x).toNat = x.toNat / 32 * 32 + w.toNat := by
  have hx := x.isLt
  rw [withControlBits_eq hw, BitVec.toNat_ofNat]
  exact Nat.mod_eq_of_lt (by omega)

/-- Settles O26: one law of `peerByte` for each class, and the draw where no byte is known. -/
theorem readsFollowTheVolatilityClass : Obligations.ReadsFollowTheVolatilityClass := by
  intro m a b d
  refine ⟨fun h => ?volatile, fun h7 hD => ?stable, ?control, fun h => ?unwritten, ?forgotten⟩
  case volatile => exact peerByte_volatile (classOf_volatile h) m d
  case stable => exact peerByte_stable (classOf_stable ⟨h7, hD⟩) (byteAt_put_self m a b) d
  case control =>
    have hb : (b &&& 0x1F).toNat = b.toNat % 32 := toNat_and_1F b
    rw [peerByte_put_control, withControlBits_toNat (by omega), hb]
  case unwritten => exact peerByte_unknown h d
  case forgotten => exact peerByte_unknown (byteAt_forget_inside m ⟨le_rfl, by omega⟩) d

end Sys2Proof.Machine
end

section
/-! PROOFS. The frame (30_encoding.md R102, R103, R106): the decoder reads the opcode and the operands
that the command names, and a step reads the frame through the decoder only. -/

namespace Sys2Proof

/-! ## What the decoder reads -/

/-- The frame `f` carries the opcode of the command and, where its rule names them, its operands. -/
def Instr.CarriedBy (i : Instr) (f : CmdFrame) : Prop :=
  f.op = (encode i).op ∧ ∀ k ∈ i.operandPositions, f.operand k = (encode i).operand k

/-- A decoded command exists under the parameter, and its frame carries it. Cases 31 and 32 are the two
temperature opcodes, case 33 every opcode that is not assigned. -/
theorem decode_ok {h : Bool} {f : CmdFrame} {i : Instr} (hd : decode h f = .ok i) :
    i.wellFormed h = true ∧ i.CarriedBy f := by
  unfold decode at hd
  split at hd
  case h_33 => cases hd
  case h_31 hop | h_32 hop =>
    cases h with
    | false => cases hd
    | true =>
      cases hd
      refine ⟨rfl, BitVec.eq_of_toNat_eq hop, ?_⟩
      simp [Instr.operandPositions, encode, CmdFrame.operand]
  all_goals
    cases hd
    refine ⟨rfl, BitVec.eq_of_toNat_eq ‹_›, ?_⟩
    simp [Instr.operandPositions, encode, CmdFrame.ofTimeBlock, CmdFrame.timeBlock, CmdFrame.operand]

/-- A frame that carries a command decodes to it, whatever its other bytes are. -/
theorem decode_of_carriedBy {h : Bool} {f : CmdFrame} {i : Instr} (hw : i.wellFormed h = true)
    (hf : i.CarriedBy f) : decode h f = .ok i := by
  obtain ⟨hop, hk⟩ := hf
  cases i <;>
    simp_all [decode, encode, Instr.wellFormed, Instr.operandPositions, CmdFrame.operand,
      CmdFrame.ofTimeBlock, CmdFrame.timeBlock]

/-- The bytes that a command does not name do not count (30_encoding.md R103). -/
theorem decode_of_named_operands {h : Bool} {f g : CmdFrame} {i : Instr} (hd : decode h f = .ok i)
    (hop : g.op = f.op) (hk : ∀ k ∈ i.operandPositions, g.operand k = f.operand k) :
    decode h g = .ok i := by
  obtain ⟨hw, hfop, hfk⟩ := decode_ok hd
  exact decode_of_carriedBy hw ⟨hop.trans hfop, fun k hm => (hk k hm).trans (hfk k hm)⟩

/-! ## The illegal opcodes -/

/-- What the decoder refuses has an opcode of R106's list. The cases are those of `decode_ok`. -/
theorem illegalOpcode_of_error {h : Bool} {f : CmdFrame} {e : DecodeError}
    (hd : decode h f = .error e) : illegalOpcode h f.op.toNat = true := by
  unfold decode at hd
  split at hd
  case h_31 hop | h_32 hop =>
    cases h with
    | true => cases hd
    | false => simp [illegalOpcode, hop]
  case h_33 =>
    simp only [illegalOpcode, Bool.or_eq_true, Bool.and_eq_true, decide_eq_true_eq,
      imp_false] at *
    omega
  all_goals cases hd

/-- The opcode of a command that exists is in none of the ranges. -/
theorem illegalOpcode_encode {h : Bool} {i : Instr} (hw : i.wellFormed h = true) :
    illegalOpcode h (encode i).op.toNat = false := by
  cases i
  case tDec | tRead => cases hw; rfl
  all_goals cases h <;> rfl

theorem illegalOpcode_iff (h : Bool) (f : CmdFrame) :
    illegalOpcode h f.op.toNat = true ↔ ∃ e, decode h f = .error e := by
  refine ⟨fun hi => ?_, fun ⟨_, hd⟩ => illegalOpcode_of_error hd⟩
  cases hd : decode h f with
  | error e => exact ⟨e, rfl⟩
  | ok i =>
    obtain ⟨hw, hop, -⟩ := decode_ok hd
    rw [hop, illegalOpcode_encode hw] at hi
    cases hi

/-! ## What a step reads of the frame -/

namespace Machine

/-- What does not read the frame does the same with another one. -/
theorem IgnoresInputs.withCmd {k : State → State} (hk : IgnoresInputs k) (s : State) (g : CmdFrame) :
    k { s with cmd := g } = { k s with cmd := g } := by
  obtain ⟨-, hh, ht⟩ := hk.keeps s
  calc k { s with cmd := g }
      = { k s with cmd := g, host := s.host, hasTemperature := s.hasTemperature } := hk s g _ _
    _ = { k s with cmd := g } := by rw [← hh, ← ht]

/-- The block runs the decoded command, which does not read the frame. -/
theorem blockMoves_withCmd {s t : State} {g : CmdFrame} {i : Instr}
    (hd : decode s.hasTemperature s.cmd = .ok i) (hg : decode s.hasTemperature g = .ok i)
    (h : blockMoves s = .next t) : blockMoves { s with cmd := g } = .next { t with cmd := g } := by
  rcases blockMoves_cases h with ⟨hp | ⟨hp, hw⟩, rfl⟩ | ⟨hp, hw, j, hj, he⟩ | ⟨-, -, ⟨e, he⟩, -⟩
  · exact blockMoves_idle hp
  · exact blockMoves_waiting hp hw
  · obtain rfl : i = j := Except.ok.inj (hd.symm.trans hj)
    obtain ⟨k, hk, hi⟩ := exec_ignoresInputs i
    cases (hk s).symm.trans he
    rw [blockMoves_runs (s := { s with cmd := g }) hp hw hg, hk, hi.withCmd]
  · cases hd.symm.trans he

/-- A late answer goes on with the decoded command, which does not read the frame. -/
theorem transportMoves_withCmd {s : State} {g : CmdFrame} {i : Instr}
    (hd : decode s.hasTemperature s.cmd = .ok i) (hg : decode s.hasTemperature g = .ok i) :
    transportMoves { s with cmd := g } = { transportMoves s with cmd := g } := by
  simp only [transportMoves, hd, hg]
  split
  · rfl
  · rfl
  · exact (resume_ignoresInputs i _).withCmd { s with inFlight := none } g

/-- A step reads the frame only through the decoder: with another frame that decodes to the same command
it leaves the same state, but for the frame. -/
theorem step_withCmd {s t : State} {g : CmdFrame} {i : Instr}
    (hd : decode s.hasTemperature s.cmd = .ok i) (hg : decode s.hasTemperature g = .ok i)
    (h : step s = .next t) : ∃ c, step { s with cmd := g } = .next { t with cmd := c } := by
  rcases step_cases h with ⟨f, rest, hm, rfl⟩ | ⟨rest, hm, rfl⟩ | ⟨rest, hm, rfl⟩ | ⟨rest, hm, hb⟩ |
    ⟨rest, hm, rfl⟩ | ⟨rest, hm, rfl⟩
  · exact ⟨f, step_offer (s := { s with cmd := g }) hm⟩
  · exact ⟨g, step_take (s := { s with cmd := g }) hm⟩
  · exact ⟨{}, step_reset (s := { s with cmd := g }) hm⟩
  · exact ⟨g, (step_block (s := { s with cmd := g }) hm).trans
      (blockMoves_withCmd (s := { s with host := rest }) hd hg hb)⟩
  · exact ⟨g, (step_transport (s := { s with cmd := g }) hm).trans
      (congrArg _ (transportMoves_withCmd (s := { s with host := rest }) hd hg))⟩
  · exact ⟨g, step_peer (s := { s with cmd := g }) hm⟩

/-! ## The obligations -/

/-- Settles O3: the decoder reads the named bytes only, and a step reads the frame through it. -/
theorem unnamedOperandBytesAreIgnored : Obligations.UnnamedOperandBytesAreIgnored := by
  intro h f g i hf hop hk
  have hg : decode h g = .ok i := decode_of_named_operands hf hop hk
  refine ⟨hg, ?_⟩
  rintro s rfl
  obtain ⟨t, ht⟩ := step_next { s with cmd := f }
  obtain ⟨c, hu⟩ := step_withCmd (s := { s with cmd := f }) hf hg ht
  exact ⟨t, _, ht, hu, rfl⟩

/-- Settles O5: the decoder's errors are the listed opcodes, and the block's move on an error. -/
theorem illegalOpcodesRaiseIllegalCommand : Obligations.IllegalOpcodesRaiseIllegalCommand := by
  refine ⟨illegalOpcode_iff, fun s rest hp ht hw hi => ?_⟩
  obtain ⟨e, hd⟩ := (illegalOpcode_iff _ _).1 hi
  exact (step_block ht).trans (blockMoves_illegal (s := { s with host := rest }) hp hw hd)

end Machine
end Sys2Proof
end

section
/-! PROOFS. The BCD commands (40_bcd.md): the codec's formulas as responses. -/

namespace Sys2Proof.Machine

/-- A command with one result byte answers it in Q1, and 0x00 in the other result bytes
(30_encoding.md R104). -/
theorem complete_singleton (q : Byte) (s : State) : complete [q] s = answered s { q1 := q } := rfl

/-! ## The functions -/

theorem bcdPack_eq_ok {v : Byte} (h : v.toNat ≤ 99) : bcdPack v = .ok [packed v.toNat] := by
  rw [bcdPack, if_neg (Nat.not_lt.2 h), bcd_eq_packed h]

theorem bcdPack_eq_error {v : Byte} (h : 99 < v.toNat) : bcdPack v = .error .outOfRange :=
  if_pos h

/-- Two nibbles of 15 unpack to 165, so that no byte loses a bit in Q1 (40_bcd.md R201). -/
theorem digits_toNat_le (b : Byte) : digits b.toNat ≤ 165 := by
  have := b.isLt
  rw [digits]
  omega

/-! ## The commands -/

theorem exec_bcdPack (v : Byte) (s : State) : exec (.bcdPack v) s = .next (respond (bcdPack v) s) :=
  rfl

theorem exec_bcdUnpack (b : Byte) (s : State) :
    exec (.bcdUnpack b) s = .next (answered s { q1 := byteOf (digits b.toNat) }) := by
  rw [← unBCD_eq_digits]
  rfl

/-- Settles O28: the value's bound decides between the packed digits and the error. -/
theorem bcdPackResult : Obligations.BcdPackResult := by
  refine ⟨fun h f hop => ?decodes, fun v s => ⟨fun hv => ?packs, fun hv => ?rejects⟩⟩
  case decodes => exact decode_of_carriedBy rfl ⟨hop, List.forall_mem_singleton.2 rfl⟩
  case packs => rw [exec_bcdPack, bcdPack_eq_ok hv, respond_ok, complete_singleton]
  case rejects =>
    rw [exec_bcdPack, bcdPack_eq_error hv, respond_error, raise_eq_rejected]
    rfl

/-- Settles O29: the nibbles' decimal value, for well-formed and malformed bytes alike. -/
theorem bcdUnpackResult : Obligations.BcdUnpackResult := by
  refine ⟨fun h f hop => ?decodes, fun b s => ⟨exec_bcdUnpack b s, digits_toNat_le b⟩⟩
  case decodes => exact decode_of_carriedBy rfl ⟨hop, List.forall_mem_singleton.2 rfl⟩

end Sys2Proof.Machine
end

section
/-! PROOFS. The hour commands (41_hour.md): the codec's formulas as responses, over the mode operand. -/

namespace Sys2Proof.Machine

/-! ## What the commands share -/

/-- A frame of a command with the two operands P1, P2. -/
theorem decode_of_p1_p2 {h : Bool} {f : CmdFrame} {i : Instr} (hw : i.wellFormed h = true)
    (hi : i.operandPositions = [1, 2]) (hop : f.op = (encode i).op) (h1 : f.p1 = (encode i).p1)
    (h2 : f.p2 = (encode i).p2) : decode h f = .ok i := by
  refine decode_of_carriedBy hw ⟨hop, ?_⟩
  rw [hi]
  exact List.forall_mem_cons.2 ⟨h1, List.forall_mem_singleton.2 h2⟩

theorem respond_outOfRange (s : State) : respond (.error .outOfRange) s = rejected s 1 :=
  raise_eq_rejected .outOfRange s

/-! ## HOUR.ENC -/

theorem exec_hourEnc (m hr : Byte) (s : State) :
    exec (.hourEnc m hr) s = .next (respond (hourEnc m hr) s) := rfl

/-- 41_hour.md R214: the hour byte in the mode that the operand names. -/
theorem hourEnc_eq_ok {m hr : Byte} (hm : m.toNat ≤ 1) (hh : hr.toNat ≤ 23) :
    hourEnc m hr = .ok [hourByte (m.toNat = 1) hr.toNat] := by
  simp only [hourEnc, modeOperand_some hm]
  rw [if_neg (Nat.not_lt.2 hh), encodeHour_eq_hourByte hh]
  by_cases h1 : m.toNat = 1 <;> simp [h1]

/-- Settles O31: the operands' domains decide between the hour byte and the error. -/
theorem hourEncodeResult : Obligations.HourEncodeResult := by
  refine ⟨fun h f hop => decode_of_p1_p2 rfl rfl hop rfl rfl,
    fun m hr s => ⟨fun hm hh => ?encodes, fun hd => ?rejects⟩⟩
  case encodes => rw [exec_hourEnc, hourEnc_eq_ok hm hh, respond_ok, complete_singleton]
  case rejects => rw [exec_hourEnc, (hourEnc_checks m hr).1 hd, respond_outOfRange]

/-! ## HOUR.DEC -/

/-- 30_encoding.md R108: a mode bit and the code of its mode. -/
theorem code_of_modeBit (twelve : Bool) :
    (if twelve then HourMode.twelveHour else .twentyFourHour).code = flagByte twelve := by
  cases twelve <;> rfl

/-- 41_hour.md R215: the mode bit, the hour shown and the AM/PM reading. -/
theorem hourDec_eq (b : Byte) :
    hourDec b =
      [flagByte (inTwelveHourForm b), byteOf (shownHour b), flagByte (afterNoon b)] := by
  rw [hourDec, decodeHour_eq, code_of_modeBit]
  rfl

theorem exec_hourDec (b : Byte) (s : State) :
    exec (.hourDec b) s = .next (complete (hourDec b) s) := rfl

/-- Settles O32: the reading of the hour byte, for every byte. -/
theorem hourDecodeResult : Obligations.HourDecodeResult := by
  refine ⟨fun h f hop => ?decodes, fun b s => ?reads⟩
  case decodes => exact decode_of_carriedBy rfl ⟨hop, List.forall_mem_singleton.2 rfl⟩
  case reads =>
    rw [exec_hourDec, hourDec_eq, complete_eq_answered]
    rfl

/-! ## HOUR.DISP -/

theorem exec_hourDisp (m hr : Byte) (s : State) :
    exec (.hourDisp m hr) s = .next (respond (hourDisp m hr) s) := rfl

/-- 41_hour.md R216: in 24-hour form the display hour is the operand itself. -/
theorem hourDisp_eq_ok {m hr : Byte} (hm : m.toNat ≤ 1) (hh : hr.toNat ≤ 23) :
    hourDisp m hr =
      .ok [if m.toNat = 1 then byteOf (hour12 hr.toNat) else hr, flagByte (hr.toNat ≥ 12)] := by
  simp only [hourDisp, modeOperand_some hm]
  rw [if_neg (Nat.not_lt.2 hh)]
  have hq : byteOf hr.toNat = hr := by rw [byteOf, BitVec.ofNat_toNat, BitVec.setWidth_eq]
  split
  case isTrue => rfl
  case isFalse => rw [displayHour, hq]; rfl

/-! ## HOUR.TO24 -/

theorem exec_hourTo24 (hr pm : Byte) (s : State) :
    exec (.hourTo24 hr pm) s = .next (respond (hourTo24 hr pm) s) := rfl

/-- 41_hour.md R217. -/
theorem hourTo24_eq_ok {hr pm : Byte} (h1 : 1 ≤ hr.toNat) (h12 : hr.toNat ≤ 12)
    (hp : pm.toNat ≤ 1) : hourTo24 hr pm = .ok [byteOf (hour24Of hr.toNat (pm.toNat = 1))] := by
  have hd : ¬ ((decide (hr.toNat < 1) || decide (hr.toNat > 12)) = true) := by
    simp only [Bool.or_eq_true, decide_eq_true_eq]
    omega
  rw [hourTo24, if_neg hd, boolOperand_some hp]
  rfl

/-- Out of the domains of R217 the command has an input error, which `hourTo24_checks` says it raises. -/
theorem hourTo24_eq_error {hr pm : Byte} (hd : hr.toNat < 1 ∨ 12 < hr.toNat ∨ 1 < pm.toNat) :
    hourTo24 hr pm = .error .outOfRange := by
  have hi : (Instr.hourTo24 hr pm).inputError = some .outOfRange := by
    rw [inputError_of_plain rfl rfl rfl, if_pos]
    simpa [Instr.operandOutOfDomain, or_assoc] using hd
  rcases hourTo24_checks hr pm with ⟨-, he⟩ | ⟨hn, -⟩
  · exact he
  · cases hi.symm.trans hn

/-- Settles O33: the display hour and the mapping back, each in its domain and out of it. -/
theorem hourDisplayAndTo24Result : Obligations.HourDisplayAndTo24Result := by
  refine ⟨fun h f hop => decode_of_p1_p2 rfl rfl hop rfl rfl,
    fun h f hop => decode_of_p1_p2 rfl rfl hop rfl rfl,
    fun m hr s => ⟨fun hm hh => ?displays, fun hd => ?rejectsDisp⟩,
    fun hr pm s => ⟨fun h1 h12 hp => ?converts, fun hd => ?rejectsTo24⟩⟩
  case displays =>
    rw [exec_hourDisp, hourDisp_eq_ok hm hh, respond_ok, complete_eq_answered]
    rfl
  case rejectsDisp => rw [exec_hourDisp, (hourDisp_checks m hr).1 hd, respond_outOfRange]
  case converts =>
    rw [exec_hourTo24, hourTo24_eq_ok h1 h12 hp, respond_ok, complete_singleton]
    rfl
  case rejectsTo24 => rw [exec_hourTo24, hourTo24_eq_error hd, respond_outOfRange]

end Sys2Proof.Machine
end

section
/-! PROOFS. The clock commands (42_clock.md): the seven-byte block built, parsed, and read in one burst. -/

namespace Sys2Proof

/-! ## Frames of eight operands -/

/-- The operands are the bytes of a CalendarTime block and P8 (30_encoding.md R108). -/
theorem CmdFrame.operand_congr {f g : CmdFrame} (ht : f.timeBlock = g.timeBlock)
    (h8 : f.p8 = g.p8) (k : Nat) : f.operand k = g.operand k := by
  cases f
  cases g
  cases ht
  cases h8
  rfl

/-- A frame of a command with the operands P1..P8. -/
theorem decode_of_timeBlock_p8 {h : Bool} {f : CmdFrame} {i : Instr} (hw : i.wellFormed h = true)
    (hop : f.op = (encode i).op) (ht : f.timeBlock = (encode i).timeBlock)
    (h8 : f.p8 = (encode i).p8) : decode h f = .ok i :=
  decode_of_carriedBy hw ⟨hop, fun k _ => CmdFrame.operand_congr ht h8 k⟩

namespace Machine

/-! ## CLK.BUILD -/

theorem exec_clkBuild (t : TimeBlock) (m : Byte) (s : State) :
    exec (.clkBuild t m) s = .next (respond (clkBuild t m) s) := rfl

/-- Settles O36: the operands' domains decide between the seven register bytes and the error. -/
theorem clockBuildResult : Obligations.ClockBuildResult := by
  refine ⟨fun h f hop => decode_of_timeBlock_p8 rfl hop rfl rfl,
    fun t m s => ⟨fun ht hm => ?builds, fun hd => ?rejects⟩⟩
  case builds =>
    rw [exec_clkBuild, clkBuild_ok ht hm, respond_ok, complete_eq_answered]
    rfl
  case rejects => rw [exec_clkBuild, clkBuild_error hd, respond_outOfRange]

/-! ## CLK.PARSE -/

theorem exec_clkParse (c b0 b1 b2 b3 b4 b5 b6 : Byte) (s : State) :
    exec (.clkParse c b0 b1 b2 b3 b4 b5 b6) s =
      .next (respond (clkParse c.toNat [b0, b1, b2, b3, b4, b5, b6]) s) := rfl

/-- 42_clock.md R231: a wrong count fails before any byte is read. -/
theorem clkParse_badCount {c : Nat} (h : c ≠ 7) (bs : List Byte) :
    clkParse c bs = .error .malformedRegisterData := by
  rw [clkParse, parseClockRead, if_pos h]

/-- The response that CLK.PARSE and CLK.READ share (42_clock.md R233, R235). -/
theorem respond_clkParse (b0 b1 b2 b3 b4 b5 b6 : Byte) (s : State) :
    respond (clkParse 7 [b0, b1, b2, b3, b4, b5, b6]) s =
      answered s (clockReport b0 b1 b2 b3 b4 b5 b6) := by
  obtain ⟨qs, hq, hr⟩ := clkParse_ok b0 b1 b2 b3 b4 b5 b6
  rw [hq, respond_ok, complete_eq_answered, hr]

/-- Settles O37: the count alone decides between the report of the bytes and the error. -/
theorem clockParseResult : Obligations.ClockParseResult := by
  refine ⟨fun h f hop => decode_of_timeBlock_p8 rfl hop rfl rfl,
    fun c b0 b1 b2 b3 b4 b5 b6 s => ⟨fun hc => ?parses, fun hc => ?rejects⟩⟩
  case parses =>
    subst hc
    exact congrArg _ (respond_clkParse b0 b1 b2 b3 b4 b5 b6 s)
  case rejects =>
    have hn : c.toNat ≠ 7 := fun e => hc (BitVec.eq_of_toNat_eq e)
    rw [exec_clkParse, clkParse_badCount hn, respond_error, raise_eq_rejected]
    rfl

/-! ## CLK.READ -/

theorem exec_clkRead (s : State) : exec .clkRead s = .next (memRead .clock s afterClkRead) := rfl

/-- 10_state.md R43: the clock burst lies in volatile registers, so it reads as its draws. -/
theorem peerBytes_clock (m : Memory) {ds : List Byte} (h : ds.length = 7) :
    peerBytes m Burst.clock.base ds = ds := by
  refine peerBytes_volatile ds m _ fun i hi => classOf_volatile (.inl ?_)
  change 0x00 + i ≤ 0x06
  omega

/-- Settles O39: the answered ends of a read, with CLK.PARSE's report of the delivered draws. -/
theorem clockReadResult : Obligations.ClockReadResult := by
  refine ⟨fun h f hop => decode_of_carriedBy rfl ⟨hop, List.forall_mem_nil _⟩,
    fun s => ⟨fun b0 b1 b2 b3 b4 b5 b6 ha => ?reads, fun ds ha hc => ?badCount, fun ha => ?fails⟩⟩
  case reads =>
    rw [exec_clkRead, memRead_ok _ ha rfl, peerBytes_clock _ rfl]
    exact congrArg _ (respond_clkParse b0 b1 b2 b3 b4 b5 b6 _)
  case badCount => exact congrArg _ (memRead_badCount (b := .clock) afterClkRead ha hc)
  case fails => exact congrArg _ (memRead_fail afterClkRead ha)

end Machine
end Sys2Proof
end

section
/-! PROOFS. The alarm commands (43_alarm.md): the register bytes built and parsed, the alarm at an
offset, and the alarm registers written in one burst. -/

namespace Sys2Proof

/-- A frame with a command's opcode and, at the positions its rule names, its operands
(30_encoding.md R103). -/
theorem decode_of_operands {h : Bool} {f : CmdFrame} {i : Instr} (hw : i.wellFormed h = true)
    (hop : f.op = (encode i).op)
    (hk : i.operandPositions.map f.operand = i.operandPositions.map (encode i).operand) :
    decode h f = .ok i :=
  decode_of_carriedBy hw ⟨hop, List.map_inj_left.1 hk⟩

namespace Machine

/-! ## A1.ENC -/

theorem exec_a1Enc (v sec min hour dd : Byte) (s : State) :
    exec (.a1Enc v sec min hour dd) s = .next (respond (a1Enc v sec min hour dd) s) := rfl

/-- Settles O41: the operands' domains decide between the four register bytes and the error. -/
theorem alarm1EncodeResult : Obligations.Alarm1EncodeResult := by
  refine ⟨fun h f hop => decode_of_operands rfl hop rfl,
    fun v sec min hour dd s => ⟨fun hv hs hm hh hd => ?encodes, fun hd => ?rejects⟩⟩
  case encodes =>
    rw [exec_a1Enc, a1Enc_ok hv hs hm hh hd, respond_ok, complete_eq_answered]
    rfl
  case rejects => rw [exec_a1Enc, a1Enc_error hd, respond_outOfRange]

/-! ## A2.ENC -/

theorem exec_a2Enc (v min hour dd : Byte) (s : State) :
    exec (.a2Enc v min hour dd) s = .next (respond (a2Enc v min hour dd) s) := rfl

/-- A variant code of 1 or more is not TimeOnly's. -/
theorem variant_ne_zero {v : Byte} (h : 1 ≤ v.toNat) : v ≠ 0 := by
  rintro rfl
  exact absurd h (by decide)

/-- Settles O42: the variant, and then the operands' domains, decide between the three register bytes
and the two errors. -/
theorem alarm2EncodeResult : Obligations.Alarm2EncodeResult := by
  refine ⟨fun h f hop => decode_of_operands rfl hop rfl,
    fun v min hour dd s => ⟨fun h0 => ?timeOnly, fun h1 hv hm hh hd => ?encodes,
      fun h0 hd => ?rejects⟩⟩
  case timeOnly =>
    rw [h0, exec_a2Enc, a2Enc_timeOnly, respond_error, raise_eq_rejected]
    rfl
  case encodes =>
    rw [exec_a2Enc, a2Enc_ok (variant_ne_zero h1) hv hm hh hd, respond_ok, complete_eq_answered]
    rfl
  case rejects => rw [exec_a2Enc, a2Enc_error h0 hd, respond_outOfRange]

/-! ## A1.DEC and A2.DEC -/

theorem exec_a1Dec (c b0 b1 b2 b3 : Byte) (s : State) :
    exec (.a1Dec c b0 b1 b2 b3) s =
      .next (respond (alarmResults (decodeAlarm1 c.toNat [b0, b1, b2, b3])) s) := rfl

theorem exec_a2Dec (c b0 b1 b2 : Byte) (s : State) :
    exec (.a2Dec c b0 b1 b2) s =
      .next (respond (alarmResults (decodeAlarm2 c.toNat [b0, b1, b2])) s) := rfl

/-- 43_alarm.md R255: a wrong count fails before any byte is read. -/
theorem decodeAlarm1_badCount {c : Nat} (h : c ≠ 4) (bs : List Byte) :
    decodeAlarm1 c bs = .error .malformedRegisterData := if_pos h

/-- 43_alarm.md R256: a wrong count fails before any byte is read. -/
theorem decodeAlarm2_badCount {c : Nat} (h : c ≠ 3) (bs : List Byte) :
    decodeAlarm2 c bs = .error .malformedRegisterData := if_pos h

theorem respond_malformed (s : State) : respond (.error .malformedRegisterData) s = rejected s 3 :=
  raise_eq_rejected .malformedRegisterData s

/-- The response that A1.DEC and A1.READ share (43_alarm.md R262, R266). -/
theorem respond_decodeAlarm1 (b0 b1 b2 b3 : Byte) (s : State) :
    respond (alarmResults (decodeAlarm1 4 [b0, b1, b2, b3])) s =
      answered s (alarm1Report b0 b1 b2 b3) := by
  obtain ⟨qs, hq, hr⟩ := decodeAlarm1_ok b0 b1 b2 b3
  rw [hq, respond_ok, complete_eq_answered, hr]

/-- The response that A2.DEC and A2.READ share (43_alarm.md R263, R268). -/
theorem respond_decodeAlarm2 (b0 b1 b2 : Byte) (s : State) :
    respond (alarmResults (decodeAlarm2 3 [b0, b1, b2])) s = answered s (alarm2Report b0 b1 b2) := by
  obtain ⟨qs, hq, hr⟩ := decodeAlarm2_ok b0 b1 b2
  rw [hq, respond_ok, complete_eq_answered, hr]

/-- Settles O43: the count alone decides between the report of the bytes and the error. -/
theorem alarmDecodeResult : Obligations.AlarmDecodeResult := by
  refine ⟨fun h f hop => decode_of_operands rfl hop rfl,
    fun h f hop => decode_of_operands rfl hop rfl,
    fun c b0 b1 b2 b3 s => ⟨fun hc => ?decodes1, fun hc => ?rejects1, fun hc => ?decodes2,
      fun hc => ?rejects2⟩⟩
  case decodes1 =>
    subst hc
    exact congrArg _ (respond_decodeAlarm1 b0 b1 b2 b3 s)
  case decodes2 =>
    subst hc
    exact congrArg _ (respond_decodeAlarm2 b0 b1 b2 s)
  case rejects1 =>
    have hn : c.toNat ≠ 4 := fun e => hc (BitVec.eq_of_toNat_eq e)
    rw [exec_a1Dec, decodeAlarm1_badCount hn, alarmResults, respond_malformed]
  case rejects2 =>
    have hn : c.toNat ≠ 3 := fun e => hc (BitVec.eq_of_toNat_eq e)
    rw [exec_a2Dec, decodeAlarm2_badCount hn, alarmResults, respond_malformed]

/-! ## A.OFFSET -/

theorem exec_aOffset (t : TimeBlock) (off : Byte) (s : State) :
    exec (.aOffset t off) s =
      .next (respond (alarmResults (buildAlarmAtOffset (calendarTime t) off.toNat)) s) := rfl

theorem byteOf_toNat (b : Byte) : byteOf b.toNat = b := by
  rw [byteOf, BitVec.ofNat_toNat, BitVec.setWidth_eq]

/-- 43_alarm.md R264: the response of an alarm that was built. -/
theorem respond_alarmResults_ok (a : AlarmSpec) (s : State) :
    respond (alarmResults (.ok a)) s =
      answered s { q1 := a.variant.code, q2 := byteOf a.sec, q3 := byteOf a.min,
                   q4 := byteOf a.hour, q5 := byteOf a.dd } := rfl

/-! The fields of a base that A.OFFSET reads (30_encoding.md R108). -/

@[simp] theorem calendarTime_sec (t : TimeBlock) : (calendarTime t).sec = t.sec.toNat := rfl

@[simp] theorem calendarTime_min (t : TimeBlock) : (calendarTime t).min = t.min.toNat := rfl

@[simp] theorem calendarTime_hour (t : TimeBlock) : (calendarTime t).hour = t.hour.toNat := rfl

@[simp] theorem calendarTime_dow (t : TimeBlock) : (calendarTime t).dow = t.dow.toNat := rfl

/-- 43_alarm.md R257: below minute 60 the hour stays. -/
theorem buildAlarmAtOffset_sameHour {t : TimeBlock} {off : Nat} (ht : t.inDomain = true)
    (ho : off ≤ 59) (hm : t.min.toNat + off < 60) :
    buildAlarmAtOffset (calendarTime t) off =
      .ok { variant := .dayMatch, sec := t.sec.toNat, min := t.min.toNat + off,
            hour := t.hour.toNat, dd := t.dow.toNat } := by
  obtain ⟨-, -, hh, -⟩ := (inDomain_iff t).1 ht
  have h24 : t.hour.toNat ≠ 24 := by omega
  simp [buildAlarmAtOffset, calendarTime_inRange, ht, Nat.not_lt.2 ho, Nat.not_le.2 hm, h24]

/-- 43_alarm.md R257: from minute 60 on the minutes wrap, with a carry into the hour. -/
theorem buildAlarmAtOffset_nextHour {t : TimeBlock} {off : Nat} (ht : t.inDomain = true)
    (ho : off ≤ 59) (hm : 60 ≤ t.min.toNat + off) (hh : t.hour.toNat < 23) :
    buildAlarmAtOffset (calendarTime t) off =
      .ok { variant := .dayMatch, sec := t.sec.toNat, min := t.min.toNat + off - 60,
            hour := t.hour.toNat + 1, dd := t.dow.toNat } := by
  have h23 : t.hour.toNat ≠ 23 := Nat.ne_of_lt hh
  simp [buildAlarmAtOffset, calendarTime_inRange, ht, Nat.not_lt.2 ho, hm, h23]

/-- Operands with an input error fail the checks, and every such error is OutOfRange. -/
theorem Checks.eq_error {α : Type} {i : Instr} {r : Except ErrorKind α} {e : ErrorKind}
    (h : Checks i r) (hi : i.inputError = some e) : r = .error .outOfRange := by
  rcases h with ⟨-, hr⟩ | ⟨hn, -⟩
  · exact hr
  · cases hi.symm.trans hn

/-- Out of the domains of R257 the command has an input error, which `aOffset_checks` says it raises. -/
theorem aOffset_eq_error {t : TimeBlock} {off : Byte}
    (hd : t.inDomain = false ∨ 59 < off.toNat ∨
      (t.hour.toNat = 23 ∧ 60 ≤ t.min.toNat + off.toNat)) :
    alarmResults (buildAlarmAtOffset (calendarTime t) off.toNat) = .error .outOfRange := by
  have hi : (Instr.aOffset t off).inputError = some .outOfRange := by
    rw [inputError_of_plain rfl rfl rfl, if_pos]
    simpa [Instr.operandOutOfDomain, or_assoc] using hd
  exact (aOffset_checks t off).eq_error hi

/-- Settles O44: the sum of the minutes decides whether the hour carries, and the domains and the last
hour of the day whether there is such an alarm. -/
theorem alarmOffsetResult : Obligations.AlarmOffsetResult := by
  refine ⟨fun h f hop => decode_of_timeBlock_p8 rfl hop rfl rfl,
    fun t off s => ⟨fun ht ho hm => ?sameHour, fun ht ho hm hh => ?nextHour, fun hd => ?rejects⟩⟩
  case sameHour =>
    rw [exec_aOffset, buildAlarmAtOffset_sameHour ht ho hm, respond_alarmResults_ok]
    simp only [byteOf_toNat]
    rfl
  case nextHour =>
    rw [exec_aOffset, buildAlarmAtOffset_nextHour ht ho hm hh, respond_alarmResults_ok]
    simp only [byteOf_toNat]
    rfl
  case rejects => rw [exec_aOffset, aOffset_eq_error hd, respond_outOfRange]

/-! ## A1.SET and A2.SET -/

/-- A SET command whose write is answered with `ok` (20_memory.md R64): no results, and the registers
have received the bytes. -/
theorem memWrite_complete_ok {b : Burst} {bytes ds : List Byte} {s : State}
    (ha : nextAnswer s = .ok ds) :
    memWrite b bytes s (complete []) =
      answered { requested s (.write b bytes) with regs := s.regs.putBytes b.base bytes } {} :=
  memWrite_ok _ ha

theorem exec_a1Set (v sec min hour dd : Byte) (s : State) :
    exec (.a1Set v sec min hour dd) s =
      .next (withResult (a1Enc v sec min hour dd) s fun bytes =>
        memWrite .alarm1 bytes s (complete [])) := rfl

theorem exec_a2Set (v min hour dd : Byte) (s : State) :
    exec (.a2Set v min hour dd) s =
      .next (withResult (a2Enc v min hour dd) s fun bytes =>
        memWrite .alarm2 bytes s (complete [])) := rfl

theorem withResult_outOfRange {α : Type} (s : State) (k : α → State) :
    withResult (.error .outOfRange) s k = rejected s 1 := raise_eq_rejected .outOfRange s

/-- Settles O45: A1.ENC's checks, and the answered ends of the write of its bytes. -/
theorem alarm1SetResult : Obligations.Alarm1SetResult := by
  refine ⟨fun h f hop => decode_of_operands rfl hop rfl,
    fun v sec min hour dd s => ⟨fun hd => ?rejects,
      fun hv hs hm hh hd => ⟨fun ds ha => ?writes, fun ha => ?fails⟩⟩⟩
  case rejects => rw [exec_a1Set, a1Enc_error hd, withResult_outOfRange]
  case writes =>
    rw [exec_a1Set, a1Enc_ok hv hs hm hh hd, withResult_ok, memWrite_complete_ok ha]
    rfl
  case fails =>
    rw [exec_a1Set, a1Enc_ok hv hs hm hh hd, withResult_ok, memWrite_fail _ ha]
    rfl

/-- Settles O46: A2.ENC's checks, and the answered ends of the write of its bytes. -/
theorem alarm2SetResult : Obligations.Alarm2SetResult := by
  refine ⟨fun h f hop => decode_of_operands rfl hop rfl,
    fun v min hour dd s => ⟨fun h0 => ?timeOnly, fun h0 hd => ?rejects,
      fun h1 hv hm hh hd => ⟨fun ds ha => ?writes, fun ha => ?fails⟩⟩⟩
  case timeOnly =>
    rw [h0, exec_a2Set, a2Enc_timeOnly, withResult_error, raise_eq_rejected]
    rfl
  case rejects => rw [exec_a2Set, a2Enc_error h0 hd, withResult_outOfRange]
  case writes =>
    rw [exec_a2Set, a2Enc_ok (variant_ne_zero h1) hv hm hh hd, withResult_ok,
      memWrite_complete_ok ha]
    rfl
  case fails =>
    rw [exec_a2Set, a2Enc_ok (variant_ne_zero h1) hv hm hh hd, withResult_ok, memWrite_fail _ ha]
    rfl

end Machine
end Sys2Proof
end

section
/-! PROOFS. The status and control commands on operands (44_status_control.md): the flags of a status
byte, and the control byte packed, unpacked and its rate coded. -/

namespace Sys2Proof.Machine

/-! ## ST.DEC and ST.CLR -/

theorem exec_stDec (b : Byte) (s : State) :
    exec (.stDec b) s = .next (complete (statusResults b) s) := rfl

theorem exec_stClr (b sel : Byte) (s : State) :
    exec (.stClr b sel) s =
      .next (withResult (checkedSelect sel) s fun sel => complete [clearFlags b sel] s) := rfl

/-- 44_status_control.md R281: a bit is kept exactly when it is not selected. -/
theorem clearFlags_getLsbD (b sel : Byte) {k : Nat} (hk : k < 8) :
    (clearFlags b sel).getLsbD k = (b.getLsbD k && !(sel.getLsbD k)) := by
  rw [clearFlags, BitVec.getLsbD_and, BitVec.getLsbD_not, decide_eq_true hk, Bool.true_and]

/-- Settles O50: the report of a status byte, and the select operand's domain deciding between the byte
with the selected bits cleared and the error. -/
theorem statusByteResult : Obligations.StatusByteResult := by
  refine ⟨fun h f hop => decode_of_operands rfl hop rfl,
    fun h f hop => decode_of_p1_p2 rfl rfl hop rfl rfl,
    fun b sel s => ⟨?reports,
      fun hs => ⟨clearFlags b sel, ?clears, fun _ => clearFlags_getLsbD b sel⟩,
      fun hs => ?rejects⟩⟩
  case reports => rw [exec_stDec, complete_eq_answered, statusResults_response]
  case clears => rw [exec_stClr, checkedSelect_ok hs, withResult_ok, complete_singleton]
  case rejects => rw [exec_stClr, checkedSelect_error hs, withResult_outOfRange]

/-! ## CTL.BUILD -/

theorem exec_ctlBuild (intcn a1e a2e rate : Byte) (s : State) :
    exec (.ctlBuild intcn a1e a2e rate) s =
      .next (withResult (checkedControlByte intcn a1e a2e rate) s fun w => complete [w] s) := rfl

/-- Settles O51: the operands' domains decide between the packed byte and the error. -/
theorem controlBuildResult : Obligations.ControlBuildResult := by
  refine ⟨fun h f hop => decode_of_operands rfl hop rfl,
    fun intcn a1e a2e rate s => ⟨fun hd => ?builds, fun hd => ?rejects⟩⟩
  case builds => rw [exec_ctlBuild, checkedControlByte_ok hd, withResult_ok, complete_singleton]
  case rejects => rw [exec_ctlBuild, checkedControlByte_error hd, withResult_outOfRange]

/-! ## SQW.CODE and CTL.DEC -/

theorem exec_sqwCode (rate : Byte) (s : State) :
    exec (.sqwCode rate) s =
      .next (withResult (checkedRate rate) s fun r => complete [squareWaveRateBits r] s) := rfl

theorem exec_ctlDec (b : Byte) (s : State) :
    exec (.ctlDec b) s = .next (complete (controlResults b) s) := rfl

/-- Settles O52: the rate operand's domain decides between its code, which is the operand, and the error;
and the report of a control byte. -/
theorem rateCodeAndControlDecodeResult : Obligations.RateCodeAndControlDecodeResult := by
  refine ⟨fun h f hop => decode_of_operands rfl hop rfl,
    fun h f hop => decode_of_operands rfl hop rfl,
    fun x s => ⟨fun hx => ?codes, fun hx => ?rejects, ?reports⟩⟩
  case codes =>
    obtain ⟨r, hr, hbits⟩ := checkedRate_ok hx
    rw [exec_sqwCode, hr, withResult_ok, hbits, complete_singleton]
  case rejects => rw [exec_sqwCode, checkedRate_error hx, withResult_outOfRange]
  case reports => rw [exec_ctlDec, complete_eq_answered, controlResults_response]

end Sys2Proof.Machine
end

section
/-! PROOFS. The temperature commands (45_temperature.md): their opcodes under the parameter, the quarter
degrees as two result bytes, and the temperature registers read in one burst. -/

namespace Sys2Proof

/-! ## The opcodes -/

/-- 30_encoding.md R106: the decoder's error names the opcode that it refuses. The cases are those of
`decode_ok`. -/
theorem decode_error_eq {h : Bool} {f : CmdFrame} {e : DecodeError}
    (hd : decode h f = .error e) : e = .illegalOpcode f.op := by
  unfold decode at hd
  split at hd
  case h_31 | h_32 =>
    cases h with
    | true => cases hd
    | false => cases hd; rfl
  case h_33 => cases hd; rfl
  all_goals cases hd

theorem decode_of_illegalOpcode {h : Bool} {f : CmdFrame} (hi : illegalOpcode h f.op.toNat = true) :
    decode h f = .error (.illegalOpcode f.op) := by
  obtain ⟨e, hd⟩ := (illegalOpcode_iff h f).1 hi
  rw [hd, decode_error_eq hd]

/-- 00_scope.md R12: an opcode that the parameter takes away. -/
theorem decode_false_of_op {f : CmdFrame} {op : Byte} (hop : f.op = op)
    (hi : illegalOpcode false op.toNat = true) : decode false f = .error (.illegalOpcode op) := by
  subst hop
  exact decode_of_illegalOpcode hi

namespace Machine

/-! ## T.DEC -/

/-- 30_encoding.md R109: the two bytes of a 16-bit number, high byte first. -/
theorem ofNat_div_append_ofNat_mod (u : Nat) :
    BitVec.ofNat 8 (u / 256) ++ BitVec.ofNat 8 (u % 256) = BitVec.ofNat 16 u := by
  have hlow : u % 256 % 2 ^ 8 < 2 ^ 8 := Nat.mod_lt _ (by decide)
  refine BitVec.eq_of_toNat_eq ?_
  rw [BitVec.toNat_append, BitVec.toNat_ofNat, BitVec.toNat_ofNat, BitVec.toNat_ofNat,
    ← Nat.shiftLeft_add_eq_or_of_lt hlow, Nat.shiftLeft_eq]
  omega

/-- 45_temperature.md R311: the response's number is the temperature in quarter degrees. The cases are
the sign of the high byte. -/
theorem temperatureReport_toInt (msb lsb : Byte) :
    ((temperatureReport msb lsb).q1 ++ (temperatureReport msb lsb).q2).toInt =
      msb.toInt * 4 + (lsb.toNat / 64 : Nat) := by
  have hm := msb.isLt
  have hl := lsb.isLt
  rw [temperatureReport, ofNat_div_append_ofNat_mod, BitVec.toInt_eq_toNat_cond,
    BitVec.toInt_eq_toNat_cond, BitVec.toNat_ofNat]
  by_cases hneg : msb.toNat ≥ 128
  · rw [if_pos hneg, if_neg (by omega), if_neg (by omega)]
    omega
  · rw [if_neg hneg, if_pos (by omega), if_pos (by omega)]
    omega

theorem exec_tDec (msb lsb : Byte) (s : State) :
    exec (.tDec msb lsb) s = .next (complete (temperatureResults msb lsb) s) := rfl

/-- The response that T.DEC and T.READ share (45_temperature.md R311, R312). -/
theorem complete_temperatureResults (msb lsb : Byte) (s : State) :
    complete (temperatureResults msb lsb) s = answered s (temperatureReport msb lsb) := by
  rw [complete_eq_answered, temperatureResults_response]

/-- Settles O59: the parameter decides whether the command exists, and the report of any two bytes is
their signed number of quarter degrees. -/
theorem temperatureDecodeResult : Obligations.TemperatureDecodeResult := by
  refine ⟨fun f hop => decode_of_p1_p2 rfl rfl hop rfl rfl, fun f hop => decode_false_of_op hop rfl,
    fun msb lsb s => ⟨?reports, temperatureReport_toInt msb lsb⟩⟩
  case reports => rw [exec_tDec, complete_temperatureResults]

/-! ## T.READ -/

theorem exec_tRead (s : State) : exec .tRead s = .next (memRead .temperature s afterTRead) := rfl

theorem afterTRead_pair (msb lsb : Byte) (s : State) :
    afterTRead [msb, lsb] s = complete (temperatureResults msb lsb) s := rfl

/-- 10_state.md R43: the temperature burst lies in volatile registers, so it reads as its draws. -/
theorem peerBytes_temperature (m : Memory) {ds : List Byte} (h : ds.length = 2) :
    peerBytes m Burst.temperature.base ds = ds := by
  refine peerBytes_volatile ds m _ fun i hi => classOf_volatile (.inr (.inr ?_))
  change 0x11 + i = 0x11 ∨ 0x11 + i = 0x12
  omega

/-- Settles O60: the parameter decides whether the command exists; the answered ends of its read, with
T.DEC's report of the delivered draws. -/
theorem temperatureReadResult : Obligations.TemperatureReadResult := by
  refine ⟨fun f hop => decode_of_operands rfl hop rfl, fun f hop => decode_false_of_op hop rfl,
    fun s => ⟨fun msb lsb ha => ?reads, fun ds ha hc => ?badCount, fun ha => ?fails⟩⟩
  case reads =>
    rw [exec_tRead, memRead_ok _ ha rfl, peerBytes_temperature _ rfl, afterTRead_pair,
      complete_temperatureResults]
  case badCount => exact congrArg _ (memRead_badCount (b := .temperature) afterTRead ha hc)
  case fails => exact congrArg _ (memRead_fail afterTRead ha)

end Machine
end Sys2Proof
end

section
/-! PROOFS. The error that the operands give (60_exceptions.md R407): it alone is where the command
ends, before any access. -/

namespace Sys2Proof.Machine

/-- 60_exceptions.md R401 to R403, R406: every end but the `input` end, which leaves only the error
response, asks for operands without an error. -/
theorem Ends.eq_rejected {i : Instr} {s t : State} {e : ErrorKind} (ht : Ends i s t)
    (he : i.inputError = some e) : t = rejected s (codeOf e) := by
  cases ht with
  | input e' he' =>
    cases he.symm.trans he'
    rfl
  | _ => cases he.symm.trans ‹i.inputError = none›

/-- Settles O15: the command ends (`exec_next`), and of the ends it can come to (`exec_ends`) the
operands' error leaves one. -/
theorem inputErrorsComeBeforeAnyAccess : Obligations.InputErrorsComeBeforeAnyAccess := by
  intro i s e he
  obtain ⟨t, ht⟩ := exec_next i s
  rw [ht, (exec_ends ht).eq_rejected he]

end Sys2Proof.Machine
end

section
/-! PROOFS. A reset (70_reset_and_hazards.md R450, R451): the cleared block, and what the abandoned
request leaves of the peer's registers. -/

namespace Sys2Proof.Machine

/-- A reset that abandons a write leaves its range unknown (70_reset_and_hazards.md R451). -/
theorem regsAfterReset_write (b : Burst) (bytes : List Byte) (m : Memory) :
    regsAfterReset (some (.write b bytes)) m = m.forget b.base b.count := rfl

/-- A reset that abandons a read, or nothing, leaves the registers (70_reset_and_hazards.md R451). -/
theorem regsAfterReset_of_not_write {r : Option Request} (h : r = none ∨ ∃ b, r = some (.read b))
    (m : Memory) : regsAfterReset r m = m := by
  rcases h with rfl | ⟨b, rfl⟩ <;> rfl

/-- The state that a reset leaves, field by field: those not named stay, the history of requests and the
coming answers among them. -/
theorem step_reset_fields {s : State} {rest : List HostAction} (h : s.hostDoes .reset rest) :
    step s = .next { s with phase := .idle, cmd := {}, rsp := {}, rspValid := false,
                            inFlight := none, host := rest,
                            regs := regsAfterReset s.inFlight s.regs } :=
  step_reset h

/-- Settles O9: the registers are those that `regsAfterReset` leaves. -/
theorem resetClearsTheBlock : Obligations.ResetClearsTheBlock :=
  fun _ _ h => ⟨_, step_reset_fields h⟩

/-- Settles O10: an abandoned write's range is forgotten, and only a write's is. -/
theorem resetIsNotATransaction : Obligations.ResetIsNotATransaction := by
  refine ⟨fun s rest b bytes h hw => ⟨s.regs.forget b.base b.count, ?abandonsWrite,
    fun a hlo hhi d => ?inside, fun a ha => ?outside⟩, fun s rest h hr => ?keepsRegs⟩
  case abandonsWrite => rw [step_reset_fields h, hw, regsAfterReset_write]
  case inside => exact peerByte_unknown (byteAt_forget_inside s.regs ⟨hlo, hhi⟩) d
  case outside => exact byteAt_forget_outside s.regs ha
  case keepsRegs => rw [step_reset_fields h, regsAfterReset_of_not_write hr]

end Sys2Proof.Machine
end

section
/-! PROOFS. Whole commands and their frames (30_encoding.md R102, R105), and what one step does whichever
agent moves (10_state.md R30, R31, R48). -/

namespace Sys2Proof

/-! ## Frames -/

/-- Settles O1: the encoded frame carries the command, whose operand bytes are all that the decoder
reads. -/
theorem decodeOfEncode : Obligations.DecodeOfEncode :=
  fun _ _ hw => decode_of_carriedBy hw ⟨rfl, fun _ _ => rfl⟩

/-- Settles O2: a decoded command exists and its frame carries it. -/
theorem decodedCommandExists : Obligations.DecodedCommandExists := by
  intro h f i hd
  obtain ⟨hw, hop, -⟩ := decode_ok hd
  exact ⟨hw, hop.symm⟩

/-- Settles O4: the decoder evaluated on the seven words. -/
theorem sampleFramesDecode : Obligations.SampleFramesDecode :=
  ⟨by decide, by decide, by decide, by decide, by decide, by decide, by decide⟩

namespace Machine

/-! ## Loading a command -/

theorem decode_of_decodeTableWord {nbits w : Nat} {i : Instr} (h : decodeTableWord nbits w = some i) :
    decode true (frameOfWord nbits w) = .ok i := by
  unfold decodeTableWord at h
  split at h
  · rename_i hd
    cases h
    exact hd
  · cases h

/-- With a frame loaded it is the block's turn: by the pass put before what the host does, or because the
host can do nothing but offer frames (log entry 1). -/
theorem turnOf_withFetchWord (s : State) (nbits w : Nat) :
    (s.withFetchWord nbits w).turnOf .block s.host := by
  by_cases hs : s.host.any (servedIn .busy) = true
  · exact .inl ⟨[], s.host, if_pos hs, rfl, List.forall_mem_nil _, fun _ => rfl, fun _ => rfl⟩
  · have hh : (s.withFetchWord nbits w).host = s.host := if_neg hs
    refine .inr ⟨⟨fun x hx => ?_, fun hp => nomatch hp⟩, hh.symm, rfl⟩
    rw [hh] at hx
    have hx' : servedIn .busy x = false := by
      simpa using fun hb => hs (List.any_eq_true.2 ⟨x, hx, hb⟩)
    exact (servedIn_eq_false.1 hx').2

/-- Settles O6: the block's move, on its turn by a pass or a quiet host, and after a frame is loaded. -/
theorem stepRunsTheDecodedCommand : Obligations.StepRunsTheDecodedCommand := by
  refine ⟨fun s rest i hp ht hw hd => ?_, fun s nbits w i hT hd => ?_⟩
  · exact (step_block ht).trans (blockMoves_runs (s := { s with host := rest }) hp hw hd)
  · rw [step_block (turnOf_withFetchWord s nbits w)]
    refine blockMoves_runs rfl rfl ?_
    change decode s.hasTemperature (frameOfWord nbits w) = .ok i
    rw [hT, decode_of_decodeTableWord hd]

/-! ## The Idle block -/

/-- An Idle block holds nothing back: the host's first action is its next. -/
theorem hostDoes_of_idle {s : State} {a : HostAction} {rest : List HostAction}
    (hp : s.phase = .idle) (h : s.host = a :: rest) : s.hostDoes a rest := by
  refine ⟨[], rest, h, rfl, List.forall_mem_nil _, fun _ => rfl, fun hb => ?_⟩
  rw [hp] at hb
  cases hb

/-- The block and the transport do nothing in Idle (log entry 10). -/
theorem step_idle_of_turn {s : State} {a : Agent} {rest : List HostAction} (hp : s.phase = .idle)
    (h : s.turnOf a rest) (ha : a ≠ .peer) : step s = .next { s with host := rest } := by
  rw [step_turn h]
  cases a with
  | block => exact blockMoves_idle (s := { s with host := rest }) hp
  | transport => exact congrArg Host.Outcome.next (transportMoves_idle (s := { s with host := rest }) hp)
  | peer => exact absurd rfl ha

/-- The peer changes its registers alone, and no byte that a read gives for its draw (10_state.md R43). -/
theorem step_of_peer_turn {s : State} {rest : List HostAction} (h : s.turnOf .peer rest) :
    ∃ m, step s = .next { s with host := rest, regs := m } ∧
      ∀ a d, peerByte m a d = peerByte s.regs a d :=
  ⟨_, step_peer h, peerByte_peerMoves s⟩

/-- Settles O7: the move of each action that can be the host's first, and of a host without one. -/
theorem idleBlockServesTheHost : Obligations.IdleBlockServesTheHost := by
  refine fun s hp => ⟨fun f rest h => ?offer, fun rest h => ?take, fun rest h => ?pass,
    fun h => ?quiet, fun rest h => ?peer⟩
  case offer => exact step_offer (hostDoes_of_idle hp h)
  case take => exact step_take (hostDoes_of_idle hp h)
  case pass =>
    rcases h with h | h
    · exact step_idle_of_turn hp (.inl (hostDoes_of_idle hp h)) (by decide)
    · exact step_idle_of_turn hp (.inl (hostDoes_of_idle hp h)) (by decide)
  case quiet =>
    have hq : s.hostQuiet := ⟨by simp [h], fun _ => h⟩
    refine step_idle_of_turn hp (.inr ⟨hq, rfl, rfl⟩) ?_
    split <;> decide
  case peer => exact step_of_peer_turn (.inl (hostDoes_of_idle hp h))

/-! ## The Busy block -/

theorem State.turnOf.offers {s : State} {a : Agent} {rest : List HostAction} (h : s.turnOf a rest)
    (hp : s.phase = .busy) : rest.filter HostAction.isOffer = s.host.filter HostAction.isOffer := by
  rcases h with h | ⟨-, rfl, -⟩
  · exact h.offers hp
  · rfl

/-- A Busy block accepts no frame (10_state.md R31). -/
theorem not_offer_of_busy {s : State} {f : CmdFrame} {rest : List HostAction} (hp : s.phase = .busy) :
    ¬ s.hostDoes (.offer f) rest := by
  rintro ⟨-, -, -, -, -, -, hb⟩
  cases hb hp

/-- No command changes its frame, the host's actions or the parameter. -/
theorem exec_keeps {i : Instr} {s t : State} (h : exec i s = .next t) :
    t.cmd = s.cmd ∧ t.host = s.host ∧ t.hasTemperature = s.hasTemperature := by
  obtain ⟨f, hf, hi⟩ := exec_ignoresInputs i
  cases (hf s).symm.trans h
  exact hi.keeps s

theorem blockMoves_keeps {s t : State} (h : blockMoves s = .next t) :
    t.cmd = s.cmd ∧ t.host = s.host ∧ t.hasTemperature = s.hasTemperature := by
  rcases blockMoves_cases h with ⟨-, rfl⟩ | ⟨-, -, i, -, he⟩ | ⟨-, -, -, rfl⟩
  · exact ⟨rfl, rfl, rfl⟩
  · exact exec_keeps he
  · exact ⟨rfl, rfl, rfl⟩

theorem transportMoves_keeps (s : State) :
    (transportMoves s).cmd = s.cmd ∧ (transportMoves s).host = s.host ∧
      (transportMoves s).hasTemperature = s.hasTemperature := by
  rcases transportMoves_cases s with h | ⟨i, r, -, -, -, h⟩
  · rw [h]
    exact ⟨rfl, rfl, rfl⟩
  · rw [h]
    exact (resume_ignoresInputs i r).keeps { s with inFlight := none }

/-- What a step of a Busy block leaves of the frames and the parameter, whichever agent moves. -/
theorem step_keeps_of_busy {s t : State} (hp : s.phase = .busy) (h : step s = .next t) :
    t.host.filter HostAction.isOffer = s.host.filter HostAction.isOffer ∧
      t.hasTemperature = s.hasTemperature ∧
      ((∀ rest, ¬ s.hostDoes .reset rest) → t.cmd = s.cmd) := by
  rcases step_cases h with ⟨f, rest, hm, rfl⟩ | ⟨rest, hm, rfl⟩ | ⟨rest, hm, rfl⟩ | ⟨rest, hm, hb⟩ |
    ⟨rest, hm, rfl⟩ | ⟨rest, hm, rfl⟩
  · exact absurd hm (not_offer_of_busy hp)
  · exact ⟨hm.offers hp, rfl, fun _ => rfl⟩
  · exact ⟨hm.offers hp, rfl, fun hr => absurd hm (hr rest)⟩
  · obtain ⟨hc, hh, hT⟩ := blockMoves_keeps hb
    exact ⟨by rw [hh]; exact hm.offers hp, hT, fun _ => hc⟩
  · obtain ⟨hc, hh, hT⟩ := transportMoves_keeps { s with host := rest }
    exact ⟨by rw [hh]; exact hm.offers hp, hT, fun _ => hc⟩
  · exact ⟨hm.offers hp, rfl, fun _ => rfl⟩

/-- Settles O8: what every move keeps, and the host's take and the peer's move as whole states. -/
theorem busyBlockAcceptsNoFrame : Obligations.BusyBlockAcceptsNoFrame :=
  fun _ hp => ⟨fun _ h => step_keeps_of_busy hp h, fun _ h => step_take h,
    fun _ h => step_of_peer_turn h⟩

/-! ## Reset -/

/-- Settles O11: the fields of the reset state, whose empty registers are unknown; and a reset forgets
only what a write has left unanswered. -/
theorem resetValues : Obligations.ResetValues := by
  refine ⟨rfl, rfl, rfl, rfl, rfl, fun a d => peerByte_unknown rfl d, fun s h => ?_⟩
  have hr : s.inFlight = none ∨ ∃ b, s.inFlight = some (.read b) := by
    cases hw : s.inFlight with
    | none => exact .inl rfl
    | some r =>
      cases r with
      | read b => exact .inr ⟨b, rfl⟩
      | write b bytes => exact absurd hw (h b bytes)
  rw [blockReset_regs, regsAfterReset_of_not_write hr]

end Machine
end Sys2Proof
end

section
/-! PROOFS. What every command does (60_exceptions.md, 20_memory.md), read off the ends that a command can
come to (`exec_ends`): how it ends, the requests it issues, and the registers it changes. -/

namespace Sys2Proof.Machine

/-! ## The end of a command -/

@[simp] theorem answered_rsp (s : State) (f : RspFrame) : (answered s f).rsp = f := rfl

/-- 60_exceptions.md R400: only a command without error answers code 0x00. -/
theorem codeOf_ne_zero (e : ErrorKind) : codeOf e ≠ 0 := by cases e <;> decide

/-- A command ends with a response, or waits for a request that met a silence. -/
theorem Ends.ended_or_waiting {i : Instr} {s t : State} (h : Ends i s t) :
    (t.phase = .idle ∧ t.inFlight = s.inFlight ∧ t.rspValid = true) ∨
    (t.phase = .busy ∧ t.rsp = s.rsp ∧ t.rspValid = s.rspValid ∧ (∃ r, t.inFlight = some r) ∧
      .silent ∈ s.answers) := by
  cases h with
  | readSilent b _ _ _ ha => exact .inr ⟨rfl, rfl, rfl, ⟨_, rfl⟩, nextAnswer_silent ha⟩
  | writeSilent b bytes _ _ _ _ ha => exact .inr ⟨rfl, rfl, rfl, ⟨_, rfl⟩, nextAnswer_silent ha⟩
  | modifySilent b d w _ _ _ _ _ ha2 =>
    exact .inr ⟨rfl, rfl, rfl, ⟨_, rfl⟩, List.mem_of_mem_tail (nextAnswer_silent ha2)⟩
  | _ => exact .inl ⟨rfl, rfl, rfl⟩

/-- Settles O18: a command keeps what it does not read, and ends or waits. -/
theorem commandFrame : Obligations.CommandFrame := by
  intro i s t h
  obtain ⟨hc, hh, hT⟩ := exec_keeps h
  refine ⟨hc, hh, hT, (exec_ends h).ended_or_waiting.imp_right ?_⟩
  rintro ⟨hp, hr, hv, hw, -⟩
  exact ⟨hp, hr, hv, hw⟩

/-- Settles O17: of the ends, a pure command has the input error's and its own response. -/
theorem pureCommandsOnlyRespond : Obligations.PureCommandsOnlyRespond := by
  intro i s hp
  obtain ⟨t, ht⟩ := exec_next i s
  suffices h : ∃ f, t = answered s f by
    obtain ⟨f, rfl⟩ := h
    exact ⟨f, ht⟩
  cases exec_ends ht with
  | input e => exact ⟨_, rfl⟩
  | pure f => exact ⟨f, rfl⟩
  | _ => cases hp.symm.trans ‹i.isPure = false›

/-- Settles O16: each end that is Idle, by its code. -/
theorem goodOperandsRaiseNoInputError : Obligations.GoodOperandsRaiseNoInputError := by
  intro i s t hn h hp
  cases exec_ends h with
  | input e he => cases hn.symm.trans he
  | pure f _ _ hf => exact .inl hf
  | readDone b ds f _ _ _ _ _ hf => exact .inl hf
  | writeDone | modifyDone => exact .inl rfl
  | readBadCount b ds _ hq => exact .inr ⟨hq, .inl rfl⟩
  | readFail b _ hq => exact .inr ⟨hq, .inr rfl⟩
  | writeFail b bytes _ hq => exact .inr ⟨hq, .inr rfl⟩
  | modifyFail b d w _ hq => exact .inr ⟨hq, .inr rfl⟩
  | readSilent | writeSilent | modifySilent => cases hp

/-! ## The requests of a command -/

/-- A pure command has no bursts (20_memory.md R66). -/
theorem bursts_of_pure {i : Instr} (h : i.isPure = true) : i.bursts = [] := by
  cases i with
  | clkSet | clkRead | a1Set | a1Read | a2Set | a2Read | stRead | stClrf | sqwSet | sqwOff | ctlRead |
    ctlWrite | tRead => cases h
  | _ => rfl

/-- The requests that a command has issued when it comes to `t`: none, its one request, or the two of a
read-modify-write, the byte written being tied to the byte that was delivered. -/
inductive Issued (i : Instr) (s : State) : List Request → Prop where
  | none : Issued i s []
  | read (b : Burst) (hb : i.bursts.head? = some (Request.shape (.read b))) : Issued i s [.read b]
  | set (b : Burst) (bytes : List Byte) (hb : i.bursts = [Request.shape (.write b bytes)])
    (hs : i.setRequest = some (.write b bytes)) : Issued i s [.write b bytes]
  | modify (b : Burst) (d w : Byte)
    (hb : i.bursts = [Request.shape (.read b), Request.shape (.write b [w])])
    (ha : nextAnswer s = .ok [d]) (hw : Preserves b d w) : Issued i s [.read b, .write b [w]]

theorem Issued.inOrder {i : Instr} {s : State} {rs : List Request} (h : Issued i s rs) :
    rs.map Request.shape <+: i.bursts := by
  cases h with
  | none => exact ⟨i.bursts, rfl⟩
  | read b hb => obtain ⟨l, hl⟩ := List.head?_eq_some_iff.1 hb; exact ⟨l, hl.symm⟩
  | set b bytes hb => rw [hb]; exact ⟨[], rfl⟩
  | modify b d w hb => rw [hb]; exact ⟨[], rfl⟩

/-- What a command adds to the history, and all of its bursts when it ends without error. -/
theorem Ends.issued {i : Instr} {s t : State} (h : Ends i s t) :
    ∃ rs, t.requests = s.requests ++ rs ∧ Issued i s rs ∧
      (t.phase = .idle → t.rsp.err = 0 → rs.map Request.shape = i.bursts) := by
  have four : (4 : Byte) ≠ 0 := by decide
  have two {r q : Request} : s.requests ++ [r] ++ [q] = s.requests ++ [r, q] := List.append_assoc ..
  cases h with
  | input e => exact ⟨[], (List.append_nil _).symm, .none, fun _ he => absurd he (codeOf_ne_zero e)⟩
  | pure f _ hp => exact ⟨[], (List.append_nil _).symm, .none, fun _ _ => (bursts_of_pure hp).symm⟩
  | readSilent b _ _ hb => exact ⟨_, rfl, .read b hb, fun hp => nomatch hp⟩
  | readFail b _ _ hb => exact ⟨_, rfl, .read b hb, fun _ he => absurd he four⟩
  | readBadCount b ds _ _ hb =>
    exact ⟨_, rfl, .read b hb, fun _ he => absurd he (by decide : (3 : Byte) ≠ 0)⟩
  | readDone b ds f _ _ hb => exact ⟨_, rfl, .read b (by rw [hb]; rfl), fun _ _ => hb.symm⟩
  | writeSilent b bytes _ _ hb _ _ hs => exact ⟨_, rfl, .set b bytes hb hs, fun hp => nomatch hp⟩
  | writeFail b bytes _ _ hb _ _ hs => exact ⟨_, rfl, .set b bytes hb hs, fun _ he => absurd he four⟩
  | writeDone b bytes ds _ _ hb _ _ hs => exact ⟨_, rfl, .set b bytes hb hs, fun _ _ => hb.symm⟩
  | modifySilent b d w _ _ hb hw ha => exact ⟨_, two, .modify b d w hb ha hw, fun hp => nomatch hp⟩
  | modifyFail b d w _ _ hb hw ha => exact ⟨_, two, .modify b d w hb ha hw, fun _ he => absurd he four⟩
  | modifyDone b d w ds _ _ hb hw ha => exact ⟨_, two, .modify b d w hb ha hw, fun _ _ => hb.symm⟩

/-- Settles O21: the requests added are `Issued`. -/
theorem commandsIssueTheirBurstsInOrder : Obligations.CommandsIssueTheirBurstsInOrder := by
  intro i s t h
  obtain ⟨rs, hrs, hi, hall⟩ := (exec_ends h).issued
  exact ⟨rs, hrs, hi.inOrder, hall⟩

/-- The write of a SET command: a whole burst of the clock or of an alarm (20_memory.md R66). -/
theorem setRequest_cases {i : Instr} {r : Request} (h : i.setRequest = some r) :
    ∃ b bytes, r = .write b bytes ∧ i.bursts = [Request.shape (.write b bytes)] ∧
      bytes.length = b.count ∧ b ≠ .status ∧ b ≠ .control := by
  cases i with
  | clkSet | a1Set | a2Set =>
    cases h
    exact ⟨_, _, rfl, rfl, rfl, Burst.noConfusion, Burst.noConfusion⟩
  | _ => cases h

/-- Settles O27: the only write of either register that a command issues is a read-modify-write's. -/
theorem statusAndControlAreReadBeforeWritten : Obligations.StatusAndControlAreReadBeforeWritten := by
  intro i s t rs b bytes h hrs hmem hb
  obtain ⟨rs', hrs', hi, -⟩ := (exec_ends h).issued
  obtain rfl : rs = rs' := List.append_cancel_left (hrs.symm.trans hrs')
  cases hi with
  | none => cases hmem
  | read c => simp at hmem
  | set c bytes' _ hs =>
    obtain ⟨rfl, rfl⟩ : b = c ∧ bytes = bytes' := by simpa using hmem
    obtain ⟨_, _, hr, -, -, hst, hct⟩ := setRequest_cases hs
    cases hr
    exact absurd hb (by simp [hst, hct])
  | modify c d w _ ha hw =>
    obtain ⟨rfl, rfl⟩ : b = c ∧ bytes = [w] := by simpa using hmem
    refine ⟨w, d, rfl, rfl, ha, ?_⟩
    rcases hw with ⟨rfl, h6, hsub⟩ | ⟨rfl, h5⟩
    · exact ⟨fun _ => ⟨h6, hsub⟩, Burst.noConfusion⟩
    · exact ⟨Burst.noConfusion, fun _ => h5⟩

/-! ## A command whose first request is answered, or is not -/

/-- Settles O22: the command is its read, which fails. -/
theorem failedReadRaisesTransportFailure : Obligations.FailedReadRaisesTransportFailure := by
  intro i s b hn hb ha
  rw [exec_read s hn hb, memRead_fail _ ha]

/-- Settles O23: the command is its read, which delivers another count. -/
theorem wrongCountRaisesMalformedRegisterData : Obligations.WrongCountRaisesMalformedRegisterData := by
  intro i s b ds hn hb ha hc
  rw [exec_read s hn hb, memRead_badCount _ ha hc]

/-- A read-modify-write whose read is answered is its write, of the byte made from the byte read. -/
theorem exec_modify {i : Instr} {s : State} {b : Burst} {d : Byte} (hn : i.inputError = none)
    (hb : i.bursts.head? = some (Request.shape (.read b)))
    (hm : i.bursts.map Prod.fst = [false, true]) (ha : nextAnswer s = .ok [d]) :
    b.count = 1 ∧ exec i s = .next (memWrite b [i.rewritten (peerByte s.regs b.base d)]
      (requested s (.read b)) (afterWrite i [i.rewritten (peerByte s.regs b.base d)])) := by
  have hc : b.count = 1 := by
    rcases bursts_of_read hb with h1 | ⟨hc, -⟩
    · rw [h1] at hm
      cases hm
    · exact hc
  refine ⟨hc, ?_⟩
  rw [exec_read s hn hb, memRead_ok _ ha hc.symm]
  exact congrArg Host.Outcome.next (afterRead_writes hn hb hm _ _)

/-- Settles O24: the first request of the command, or the write after its read, meets a silence. -/
theorem unansweredRequestLeavesTheBlockWaiting :
    Obligations.UnansweredRequestLeavesTheBlockWaiting := by
  refine fun i s hn => ⟨fun b hb => ⟨fun ha => ?read, fun hm d ha ha2 => ?modify⟩, fun r hr ha => ?set⟩
  case read => rw [exec_read s hn hb, memRead_silent _ ha]
  case modify => rw [(exec_modify hn hb hm ha).2, memWrite_silent _ ha2]
  case set =>
    obtain ⟨b, bytes, rfl, -⟩ := setRequest_cases hr
    rw [exec_write s hn hr, memWrite_silent _ ha]

/-! ## The registers that a command writes -/

theorem writesAt_of_write {i : Instr} {b : Burst} {bytes : List Byte}
    (hb : i.bursts = [Request.shape (.write b bytes)]) (a : Nat) :
    i.writesAt a = true ↔ b.base ≤ a ∧ a < b.base + bytes.length := by
  simp [Instr.writesAt, hb, Request.shape]

theorem writesAt_of_modify {i : Instr} {b : Burst} {bytes : List Byte}
    (hb : i.bursts = [Request.shape (.read b), Request.shape (.write b bytes)]) (a : Nat) :
    i.writesAt a = true ↔ b.base ≤ a ∧ a < b.base + bytes.length := by
  simp [Instr.writesAt, hb, Request.shape]

/-- A command that only writes is a SET command. -/
theorem setRequest_of_bursts {i : Instr} (h : i.bursts.map Prod.fst = [true]) :
    ∃ b bytes, i.setRequest = some (.write b bytes) := by
  cases i with
  | clkSet | a1Set | a2Set => exact ⟨_, _, rfl⟩
  | stClrf select => rw [Instr.bursts] at h; split at h <;> cases h
  | _ => cases h

/-- Settles O25: both failed writes forget the range that the command writes. -/
theorem failedWriteBecomesDraws : Obligations.FailedWriteBecomesDraws := by
  refine ⟨fun i s t hn hm ha h => ?set, fun i s t b x hn hm hb ha ha2 h => ?modify⟩
  case set =>
    obtain ⟨b, bytes, hs⟩ := setRequest_of_bursts hm
    obtain ⟨_, _, hr, hbs, hl, -⟩ := setRequest_cases hs
    cases hr
    rw [exec_write s hn hs, memWrite_fail _ ha] at h
    cases h
    refine ⟨rfl, fun a hw d => peerByte_unknown (byteAt_forget_inside s.regs ?_) d⟩
    rw [← hl]
    exact (writesAt_of_write hbs a).1 hw
  case modify =>
    obtain ⟨hc, he⟩ := exec_modify hn hb hm ha
    rw [he, memWrite_fail _ ha2] at h
    cases h
    refine ⟨rfl, fun a hw d => peerByte_unknown (byteAt_forget_inside s.regs ?_) d⟩
    rcases bursts_of_read hb with h1 | ⟨-, h2⟩
    · rw [h1] at hm
      cases hm
    · rw [hc]
      exact (writesAt_of_modify (h2 0) a).1 hw

/-- What the answer of a write of `bytes` to the burst `b` makes of the registers (20_memory.md R64, R77):
they are draws, or have received the bytes. -/
def Rewrites (b : Burst) (bytes : List Byte) (m m' : Memory) : Prop :=
  m' = m.forget b.base b.count ∨ m' = m.putBytes b.base bytes

theorem Rewrites.outside {b : Burst} {bytes : List Byte} {m m' : Memory} (h : Rewrites b bytes m m')
    {a : Nat} (ha : ¬ (b.base ≤ a ∧ a < b.base + max b.count bytes.length)) :
    m'.byteAt a = m.byteAt a := by
  rcases h with rfl | rfl
  · exact byteAt_forget_outside m (by omega)
  · exact byteAt_putBytes_outside bytes m (by omega)

theorem length_of_legal {b : Burst} {bytes : List Byte} (h : (Request.write b bytes).legal = true) :
    bytes.length = b.count := by
  cases b with
  | temperature => cases h
  | _ => exact of_decide_eq_true h

/-- The registers that a command can write end below the temperature's (20_memory.md R66). -/
theorem base_add_length_of_legal {b : Burst} {bytes : List Byte}
    (h : (Request.write b bytes).legal = true) : b.base + bytes.length ≤ 0x10 := by
  rw [length_of_legal h]
  cases b with
  | temperature => cases h
  | _ => decide

theorem Rewrites.wf {b : Burst} {bytes : List Byte} {m m' : Memory} (h : Rewrites b bytes m m')
    (hl : (Request.write b bytes).legal = true) (hm : m.wf) : m'.wf := by
  rcases h with rfl | rfl
  · exact wf_forget hm _ _
  · exact wf_putBytes bytes hm (base_add_length_of_legal hl)

theorem Preserves.legal {b : Burst} {d w : Byte} (h : Preserves b d w) :
    (Request.write b [w]).legal = true := by
  rcases h with ⟨rfl, -⟩ | ⟨rfl, -⟩ <;> rfl

/-- The registers after a command: as they were, or written in the one range that the command writes. -/
theorem Ends.regs {i : Instr} {s t : State} (h : Ends i s t) :
    t.regs = s.regs ∨ ∃ b bytes, i.inputError = none ∧ (Request.write b bytes).legal = true ∧
      (∀ a, i.writesAt a = true ↔ b.base ≤ a ∧ a < b.base + bytes.length) ∧
      Rewrites b bytes s.regs t.regs := by
  cases h with
  | writeFail b bytes hn _ hb hl => exact .inr ⟨b, bytes, hn, hl, writesAt_of_write hb, .inl rfl⟩
  | writeDone b bytes ds hn _ hb hl => exact .inr ⟨b, bytes, hn, hl, writesAt_of_write hb, .inr rfl⟩
  | modifyFail b d w hn _ hb hw =>
    have hc : 1 = b.count := length_of_legal hw.legal
    exact .inr ⟨b, [w], hn, hw.legal, writesAt_of_modify hb, .inl (by rw [← hc]; rfl)⟩
  | modifyDone b d w ds hn _ hb hw =>
    exact .inr ⟨b, [w], hn, hw.legal, writesAt_of_modify hb, .inr rfl⟩
  | _ => exact .inl rfl

/-- A command changes no register unless its operands are in their domains and it writes the register. -/
theorem Ends.byteAt {i : Instr} {s t : State} (h : Ends i s t) {a : Nat}
    (ha : ¬ (i.inputError = none ∧ i.writesAt a = true)) : t.regs.byteAt a = s.regs.byteAt a := by
  rcases h.regs with hr | ⟨b, bytes, hn, hl, hw, hr⟩
  · rw [hr]
  · refine hr.outside fun hin => ha ⟨hn, (hw a).2 ?_⟩
    rwa [← length_of_legal hl, Nat.max_self] at hin

/-- Settles O19: `Ends.byteAt` for an address that the command does not write. -/
theorem registersOutsideTheWrittenRangeStay : Obligations.RegistersOutsideTheWrittenRangeStay := by
  intro i s t h a ha
  refine (exec_ends h).byteAt fun hw => ?_
  cases ha.symm.trans hw.2

end Sys2Proof.Machine
end

section
/-! PROOFS. The invariant (10_state.md section 2): it holds at reset, each named update of the state keeps
it, and so does every step, whichever agent moves. -/

namespace Sys2Proof.Machine

/-! ## The updates keep the invariant -/

/-- The invariant says nothing of the host, the coming answers or whether the response was taken. -/
theorem State.Inv.withSurroundings {s : State} (h : s.Inv) (rest : List HostAction) (v : Bool)
    (l : List Answer) (n : Nat) :
    State.Inv { s with host := rest, rspValid := v, answers := l, drawn := n } :=
  ⟨h.regs_wf, h.rsp_legal, h.waits_busy, h.waits_legal, h.waits_command, h.requests_legal⟩

theorem State.Inv.withHost {s : State} (h : s.Inv) (rest : List HostAction) :
    State.Inv { s with host := rest } := h.withSurroundings rest s.rspValid s.answers s.drawn

theorem State.Inv.hear {s : State} (h : s.Inv) : (hear s).Inv :=
  h.withSurroundings s.host s.rspValid s.answers.tail (s.drawn + 1)

theorem State.Inv.withRegs {s : State} (h : s.Inv) {m : Memory} (hm : m.wf) :
    State.Inv { s with regs := m } :=
  ⟨hm, h.rsp_legal, h.waits_busy, h.waits_legal, h.waits_command, h.requests_legal⟩

theorem State.Inv.issue {s : State} (h : s.Inv) {r : Request} (hr : r.legal = true) :
    (issue r s).Inv := by
  refine ⟨h.regs_wf, h.rsp_legal, h.waits_busy, h.waits_legal, h.waits_command, fun q hq => ?_⟩
  rcases List.mem_append.1 hq with hq | hq
  · exact h.requests_legal q hq
  · rw [List.mem_singleton.1 hq]
    exact hr

theorem State.Inv.requested {s : State} (h : s.Inv) {r : Request} (hr : r.legal = true) :
    (requested s r).Inv := (h.issue hr).hear

/-- A state without an unanswered request waits for nothing. -/
theorem inv_of_notWaiting {s : State} (hm : s.regs.wf) (hf : s.rsp.legal = true)
    (hw : s.inFlight = none) (hq : ∀ r ∈ s.requests, r.legal = true) : s.Inv := by
  refine ⟨hm, hf, fun h => ?_, fun r h => ?_, fun r h => ?_, hq⟩ <;>
  · rw [hw] at h
    cases h

theorem State.Inv.notWaiting {s : State} (h : s.Inv) : State.Inv { s with inFlight := none } :=
  inv_of_notWaiting h.regs_wf h.rsp_legal rfl h.requests_legal

/-- A command that waits for a request of its own (10_state.md R31). -/
theorem State.Inv.wait {s : State} (h : s.Inv) {i : Instr} {r : Request}
    (hd : decode s.hasTemperature s.cmd = .ok i) (hi : i.issues r) : (wait r s).Inv := by
  refine ⟨h.regs_wf, h.rsp_legal, fun _ => rfl, fun q hq => ?legal, fun q hq => ?command,
    h.requests_legal⟩
  case legal =>
    cases hq
    exact legal_of_issues hi
  case command =>
    cases hq
    exact ⟨i, hd, hi⟩

theorem State.Inv.waitingFor {s : State} (h : s.Inv) {i : Instr} {r : Request}
    (hd : decode s.hasTemperature s.cmd = .ok i) (hi : i.issues r) : (waitingFor s r).Inv :=
  State.Inv.wait (s := Machine.issue r s) (h.issue (legal_of_issues hi)) hd hi

theorem State.Inv.answered {s : State} (h : s.Inv) (hw : s.inFlight = none) {f : RspFrame}
    (hf : f.legal = true) : (answered s f).Inv :=
  inv_of_notWaiting h.regs_wf hf hw h.requests_legal

/-- 60_exceptions.md R400, R406: an error response has no result bytes. -/
theorem legal_of_code {c : Byte} (h : c.toNat ≤ 5) : RspFrame.legal { err := c } = true := by
  simp [RspFrame.legal, h]

theorem legal_of_noError {f : RspFrame} (h : f.err = 0) : f.legal = true := by
  simp [RspFrame.legal, h]

theorem codeOf_le (e : ErrorKind) : (codeOf e).toNat ≤ 5 := by cases e <;> decide

theorem State.Inv.rejected {s : State} (h : s.Inv) (hw : s.inFlight = none) {c : Byte}
    (hc : c.toNat ≤ 5) : (rejected s c).Inv := h.answered hw (legal_of_code hc)

/-! ## A command keeps the invariant -/

/-- The command in the frame, run from a legal state with no request unanswered. -/
theorem Ends.inv {i : Instr} {s t : State} (ht : Ends i s t) (h : s.Inv) (hw : s.inFlight = none)
    (hd : decode s.hasTemperature s.cmd = .ok i) : t.Inv := by
  have hread {b : Burst} : (requested s (.read b)).Inv := h.requested rfl
  cases ht with
  | input e => exact h.rejected hw (codeOf_le e)
  | pure f _ _ hf => exact h.answered hw (legal_of_noError hf)
  | readSilent b hn _ hb => exact h.waitingFor hd ⟨hn, .inl ⟨b, rfl, hb⟩⟩
  | readFail | readBadCount => exact hread.rejected hw (by decide)
  | readDone b ds f _ _ _ _ _ hf => exact hread.answered hw (legal_of_noError hf)
  | writeSilent b bytes hn _ _ _ _ hs => exact h.waitingFor hd ⟨hn, .inr (.inl hs)⟩
  | writeFail b bytes _ _ _ hl =>
    exact ((h.requested hl).withRegs (wf_forget h.regs_wf _ _)).rejected hw (by decide)
  | writeDone b bytes ds _ _ _ hl =>
    exact ((h.requested hl).withRegs (Rewrites.wf (.inr rfl) hl h.regs_wf)).answered hw rfl
  | modifySilent b d w hn _ hb _ _ _ hr =>
    subst hr
    exact hread.waitingFor hd ⟨hn, .inr (.inr ⟨b, _, rfl, hb⟩)⟩
  | modifyFail b d w _ _ _ hp =>
    exact ((hread.requested hp.legal).withRegs (wf_forget h.regs_wf _ _)).rejected hw (by decide)
  | modifyDone b d w ds _ _ _ hp =>
    exact ((hread.requested hp.legal).withRegs
      (Rewrites.wf (bytes := [w]) (.inr rfl) hp.legal h.regs_wf)).answered hw (legal_of_noError rfl)

/-- The command in the frame, going on with the answer of a request of its own. -/
theorem Resumes.inv {i : Instr} {s t : State} {r : Request} (ht : Resumes i s r t) (h : s.Inv)
    (hw : s.inFlight = none) (hd : decode s.hasTemperature s.cmd = .ok i) (hi : i.issues r) :
    t.Inv := by
  induction ht with
  | silent s r => exact h.wait hd hi
  | readFail | readBadCount => exact h.hear.rejected hw (by decide)
  | readDone s b ds f _ _ _ hf => exact h.hear.answered hw (legal_of_noError hf)
  | modifies s u b d w _ _ hi' _ ih => exact ih (h.hear.issue (legal_of_issues hi')) hw hd hi'
  | writeFail s b bytes =>
    exact (h.hear.withRegs (wf_forget h.regs_wf _ _)).rejected hw (by decide)
  | writeDone s b bytes ds f _ hf =>
    exact (h.hear.withRegs (Rewrites.wf (.inr rfl) (legal_of_issues hi) h.regs_wf)).answered hw
      (legal_of_noError hf)

/-! ## A step keeps the invariant -/

theorem State.Inv.acceptFrame {s : State} (h : s.Inv) (hp : s.phase = .idle) (f : CmdFrame) :
    (acceptFrame f s).Inv := by
  have hw : s.inFlight = none := by
    cases hw : s.inFlight with
    | none => rfl
    | some r => cases hp.symm.trans (h.waits_busy (by rw [hw]; rfl))
  exact inv_of_notWaiting h.regs_wf h.rsp_legal hw h.requests_legal

theorem State.Inv.blockReset {s : State} (h : s.Inv) : (blockReset s).Inv :=
  inv_of_notWaiting (wf_regsAfterReset h.regs_wf _) rfl rfl h.requests_legal

theorem State.Inv.blockMoves {s t : State} (h : s.Inv) (hb : blockMoves s = .next t) : t.Inv := by
  rcases blockMoves_cases hb with ⟨-, rfl⟩ | ⟨-, hw, i, hd, he⟩ | ⟨-, hw, -, rfl⟩
  · exact h
  · exact (exec_ends he).inv h hw hd
  · exact h.rejected hw (by decide)

theorem State.Inv.transportMoves {s : State} (h : s.Inv) : (transportMoves s).Inv := by
  rcases transportMoves_cases s with ht | ⟨i, r, -, hw, hd, ht⟩
  · rw [ht]
    exact h
  · obtain ⟨j, hj, hi⟩ := h.waits_command r hw
    obtain rfl : j = i := Except.ok.inj (hj.symm.trans hd)
    rw [ht]
    exact (resume_resumes hi _).inv h.notWaiting rfl hd hi

/-- An offered frame is accepted in Idle only (10_state.md R31). -/
theorem idle_of_offer {s : State} {f : CmdFrame} {rest : List HostAction}
    (h : s.hostDoes (.offer f) rest) : s.phase = .idle := by
  cases hp : s.phase with
  | idle => rfl
  | busy => exact absurd h (not_offer_of_busy hp)

/-- Settles O13: nothing is known or issued at reset, and nothing waits. -/
theorem resetIsLegal : Obligations.ResetIsLegal :=
  inv_of_notWaiting wf_nil rfl rfl (List.forall_mem_nil _)

/-- Settles O14: the move of each agent keeps the invariant. -/
theorem stepKeepsTheInvariant : Obligations.StepKeepsTheInvariant := by
  intro s t h hs
  rcases step_cases hs with ⟨f, rest, hm, rfl⟩ | ⟨rest, -, rfl⟩ | ⟨rest, -, rfl⟩ | ⟨rest, -, hb⟩ |
    ⟨rest, -, rfl⟩ | ⟨rest, -, rfl⟩
  · exact (h.withHost rest).acceptFrame (idle_of_offer (s := s) hm) f
  · exact h.withSurroundings rest false s.answers s.drawn
  · exact (h.withHost rest).blockReset
  · exact (h.withHost rest).blockMoves hb
  · exact (h.withHost rest).transportMoves
  · exact (h.withHost rest).withRegs (wf_peerMoves (h.withHost rest).regs_wf)

end Sys2Proof.Machine
end

section
/-! PROOFS. Waiting for the transport (10_state.md R30, R47; 70_reset_and_hazards.md R467): a silence
changes nothing, an answer ends the command, and a late answer leaves what a prompt one does. -/

namespace Sys2Proof.Machine

/-! ## A silence -/

theorem resume_silent (i : Instr) (r : Request) {s : State} (h : nextAnswer s = .silent) :
    resume i r s = wait r s := by
  cases r with
  | read b => simp only [resume, awaitRead, h]
  | write b bytes => simp only [resume, awaitWrite, h]

/-- A transport that stays silent uses up its silence, or nothing when the frame is no command. -/
theorem transportMoves_silent {s : State} (hp : s.phase = .busy) (ha : nextAnswer s = .silent) :
    ∃ l, transportMoves s = { s with answers := l } ∧ (l = s.answers ∨ l = s.answers.tail) := by
  rcases transportMoves_cases s with h | ⟨i, q, -, hq, -, h⟩
  · exact ⟨s.answers, h, .inl rfl⟩
  · refine ⟨s.answers.tail, ?_, .inr rfl⟩
    rw [h, resume_silent i q (s := { s with inFlight := none }) ha, wait, ← hp, ← hq]

/-- A block whose request is unanswered stays so while the host does not reset it and the transport does
not answer. -/
theorem step_of_waiting {s : State} {r : Request} (hp : s.phase = .busy) (hw : s.inFlight = some r)
    (hreset : ∀ rest, ¬ s.hostDoes .reset rest)
    (ha : nextAnswer s = .silent ∨ ∀ rest, ¬ s.turnOf .transport rest) :
    ∃ rest v l m, step s = .next { s with host := rest, rspValid := v, answers := l, regs := m } ∧
      (v = s.rspValid ∨ s.hostDoes .take rest ∧ v = false) ∧
      (l = s.answers ∨ s.turnOf .transport rest ∧ l = s.answers.tail) ∧
      ∀ a d, peerByte m a d = peerByte s.regs a d := by
  rcases moves s with ⟨f, rest, hm⟩ | ⟨rest, hm⟩ | ⟨rest, hm⟩ | ⟨a, rest, hm⟩
  · exact absurd hm (not_offer_of_busy hp)
  · exact ⟨rest, _, _, _, step_take hm, .inr ⟨hm, rfl⟩, .inl rfl, fun _ _ => rfl⟩
  · exact absurd hm (hreset rest)
  · cases a with
    | block =>
      refine ⟨rest, _, _, _, ?_, .inl rfl, .inl rfl, fun _ _ => rfl⟩
      rw [step_block hm]
      exact blockMoves_waiting (s := { s with host := rest }) hp (by rw [hw]; rfl)
    | transport =>
      have hs : nextAnswer s = .silent := ha.resolve_right fun h => h rest hm
      obtain ⟨l, ht, hl⟩ := transportMoves_silent (s := { s with host := rest }) hp hs
      refine ⟨rest, _, l, _, ?_, .inl rfl, hl.imp_right fun h => ⟨hm, h⟩, fun _ _ => rfl⟩
      rw [step_transport hm, ht]
    | peer =>
      obtain ⟨m, ht, hd⟩ := step_of_peer_turn hm
      exact ⟨rest, _, _, m, ht, .inl rfl, .inl rfl, hd⟩

/-! ## An answer -/

theorem Resumes.completes {i : Instr} {s t : State} {r : Request} (h : Resumes i s r t)
    (hs : .silent ∉ s.answers) : t.phase = .idle ∧ t.rspValid = true ∧ t.inFlight = s.inFlight := by
  induction h with
  | silent s r ha => exact absurd (nextAnswer_silent ha) hs
  | modifies s u b d w _ _ _ _ ih => exact ih fun hm => hs (List.mem_of_mem_tail hm)
  | _ => exact ⟨rfl, rfl, rfl⟩

/-- The transport's turn ends the command of a legal waiting state, when no answer is silent. -/
theorem step_completes {s : State} {r : Request} {rest : List HostAction} (h : s.Inv)
    (hw : s.inFlight = some r) (ht : s.turnOf .transport rest) (hs : .silent ∉ s.answers) :
    ∃ t, step s = .next t ∧ t.phase = .idle ∧ t.rspValid = true ∧ t.inFlight = none := by
  obtain ⟨i, hd, hi⟩ := h.waits_command r hw
  have hp : s.phase = .busy := h.waits_busy (by rw [hw]; rfl)
  refine ⟨_, step_transport ht, ?_⟩
  rw [transportMoves_resumes (s := { s with host := rest }) hp hw hd]
  exact (resume_resumes hi _).completes hs

/-! ## A late answer -/

/-- The answers before the first silence are used up when the next one is silent. -/
theorem eq_nil_of_nextAnswer_silent {s : State} {before late : List Answer} (hs : .silent ∉ before)
    (ha : s.answers = before ++ .silent :: late) (h : nextAnswer s = .silent) : before = [] := by
  cases before with
  | nil => rfl
  | cons a l =>
    rw [nextAnswer_scripted ha] at h
    exact absurd (h ▸ List.mem_cons_self) hs

/-- A command that meets a silence waits, in `u`, for a request `r` of its own; without the silence it
goes on in `u` with the answer of `r`. -/
theorem exec_without_silence {i : Instr} {s t : State} {before late : List Answer}
    (hs : .silent ∉ before) (ha : s.answers = before ++ .silent :: late)
    (h : exec i s = .next t) (hw : s.inFlight = none) (ht : t.inFlight.isSome = true) :
    ∃ r u, i.issues r ∧ t = wait r u ∧ u.answers = .silent :: late ∧ u.cmd = s.cmd ∧
      u.hasTemperature = s.hasTemperature ∧ u.inFlight = none ∧
      exec i { s with answers := before ++ late } = .next (resume i r { u with answers := late }) := by
  cases exec_ends h with
  | readSilent b hn _ hb ha1 =>
    obtain rfl := eq_nil_of_nextAnswer_silent hs ha ha1
    exact ⟨.read b, issue (.read b) s, ⟨hn, .inl ⟨b, rfl, hb⟩⟩, rfl, ha, rfl, rfl, hw, exec_read _ hn hb⟩
  | writeSilent b bytes hn _ _ _ ha1 hset =>
    obtain rfl := eq_nil_of_nextAnswer_silent hs ha ha1
    exact ⟨.write b bytes, issue (.write b bytes) s, ⟨hn, .inr (.inl hset)⟩, rfl, ha, rfl, rfl, hw,
      exec_write _ hn hset⟩
  | modifySilent b d w hn _ hb _ ha1 ha2 hr =>
    subst hr
    cases before with
    | nil => cases (nextAnswer_scripted ha).symm.trans ha1
    | cons a l =>
      obtain rfl : a = .ok [d] := (nextAnswer_scripted ha).symm.trans ha1
      have htail : (requested s (.read b)).answers = l ++ .silent :: late := congrArg List.tail ha
      obtain rfl := eq_nil_of_nextAnswer_silent (fun hm => hs (List.mem_cons_of_mem _ hm)) htail ha2
      exact ⟨.write b [i.rewritten (peerByte s.regs b.base d)],
        issue (.write b [i.rewritten (peerByte s.regs b.base d)]) (requested s (.read b)),
        ⟨hn, .inr (.inr ⟨b, _, rfl, hb⟩)⟩, rfl, htail, rfl, rfl, hw,
        (exec_modify (s := { s with answers := .ok [d] :: late }) hn (by rw [hb]; rfl)
          (by rw [hb]; rfl) rfl).2⟩
  | _ => cases (congrArg Option.isSome hw).symm.trans ht

/-- What does not read the host's actions does the same with others. -/
theorem IgnoresInputs.withHost {k : State → State} (hk : IgnoresInputs k) (s : State)
    (l : List HostAction) : k { s with host := l } = { k s with host := l } := by
  obtain ⟨hc, -, hT⟩ := hk.keeps s
  calc k { s with host := l }
      = { k s with cmd := s.cmd, host := l, hasTemperature := s.hasTemperature } := hk s _ l _
    _ = { k s with host := l } := by rw [← hc, ← hT]

/-- Answering late leaves what answering at once leaves: the transport's move goes on from the state in
which the command met the silence, but for the phase, which the answer sets. -/
theorem step_of_late_answer {i : Instr} {r : Request} {u : State} {late : List Answer}
    {rest : List HostAction} (hi : i.issues r) (hd : decode u.hasTemperature u.cmd = .ok i)
    (ha : u.answers = .silent :: late) (hw : u.inFlight = none)
    (ht : (wait r u).turnOf .transport rest) :
    step (wait r u) = .next { resume i r { u with answers := late } with host := rest } := by
  have hu : { wait r u with host := rest, inFlight := none } =
      { u with answers := late, phase := .busy, host := rest } := by
    rw [wait, ha, ← hw]
    rfl
  calc step (wait r u)
      = .next (transportMoves { wait r u with host := rest }) := step_transport ht
    _ = .next (resume i r { wait r u with host := rest, inFlight := none }) := by
        rw [transportMoves_resumes (s := { wait r u with host := rest }) rfl rfl hd]
    _ = .next { resume i r { u with answers := late, phase := .busy } with host := rest } := by
        rw [hu, ← (resume_ignoresInputs i r).withHost { u with answers := late, phase := .busy }]
    _ = .next { resume i r { u with answers := late } with host := rest } := by
        rw [← resume_phase hi { u with answers := late } .busy]

/-- Settles O12: waiting persists, the transport's turn ends it, every command ends without silences, and
a late answer is as good as a prompt one. -/
theorem answeredCommandsComplete : Obligations.AnsweredCommandsComplete := by
  refine ⟨fun s r hp hw hreset ha => step_of_waiting hp hw hreset ha,
    fun s r rest h hw ht hs => step_completes h hw ht hs, fun i s hs => ?ends,
    fun i s t u before late rest hd hw hs ha h hsome ht hu => ?late⟩
  case ends =>
    obtain ⟨t, ht⟩ := exec_next i s
    rcases (exec_ends ht).ended_or_waiting with ⟨hp, hw, hv⟩ | ⟨-, -, -, -, hm⟩
    · exact ⟨t, ht, hp, hv, hw⟩
    · exact absurd hm hs
  case late =>
    obtain ⟨r, v, hi, rfl, hav, hc, hT, hwv, he⟩ := exec_without_silence hs ha h hw hsome
    cases he.symm.trans hu
    exact step_of_late_answer hi (by rw [hc, hT]; exact hd) hav hwv ht

end Sys2Proof.Machine
end

section
/-! PROOFS. What the result of a command depends on (10_state.md R32): beside its operands, the
transport's answers and the peer's registers. -/

namespace Sys2Proof.Machine

/-- Two states with the same coming answers of the transport and the same peer. -/
def AgreeOnAnswers (s s' : State) : Prop :=
  s'.answers = s.answers ∧ s'.drawn = s.drawn ∧ s'.regs = s.regs

/-- Two ends of a command that no agent can tell apart by the phase, the peer, the coming answers or, when
the command has ended, the response. -/
def SameEnd (t t' : State) : Prop :=
  t'.phase = t.phase ∧ t'.regs = t.regs ∧ t'.answers = t.answers ∧ (t.phase = .idle → t'.rsp = t.rsp)

/-- A part of a command whose end depends on nothing else. -/
def DependsOnAnswers (f : State → State) : Prop :=
  ∀ s s', AgreeOnAnswers s s' → SameEnd (f s) (f s')

theorem AgreeOnAnswers.nextAnswer {s s' : State} (h : AgreeOnAnswers s s') :
    nextAnswer s' = nextAnswer s := nextAnswer_congr h.1 h.2.1

theorem AgreeOnAnswers.requested {s s' : State} (h : AgreeOnAnswers s s') (r : Request) :
    AgreeOnAnswers (requested s r) (requested s' r) := by
  obtain ⟨ha, hd, hm⟩ := h
  exact ⟨congrArg List.tail ha, congrArg (· + 1) hd, hm⟩

theorem AgreeOnAnswers.withRegs {s s' : State} (h : AgreeOnAnswers s s') (m : Memory) :
    AgreeOnAnswers { s with regs := m } { s' with regs := m } := ⟨h.1, h.2.1, rfl⟩

theorem AgreeOnAnswers.answered {s s' : State} (h : AgreeOnAnswers s s') (f : RspFrame) :
    SameEnd (answered s f) (answered s' f) := by
  obtain ⟨ha, -, hm⟩ := h
  exact ⟨rfl, hm, ha, fun _ => rfl⟩

theorem AgreeOnAnswers.waitingFor {s s' : State} (h : AgreeOnAnswers s s') (r : Request) :
    SameEnd (waitingFor s r) (waitingFor s' r) := by
  obtain ⟨ha, -, hm⟩ := h
  exact ⟨rfl, hm, congrArg List.tail ha, fun hp => nomatch hp⟩

theorem dependsOnAnswers_complete (qs : List Byte) : DependsOnAnswers (complete qs) :=
  fun _ _ h => h.answered _

theorem dependsOnAnswers_withResult {α : Type} (r : Except ErrorKind α) {k : α → State → State}
    (hk : ∀ a, DependsOnAnswers (k a)) : DependsOnAnswers fun s => withResult r s fun a => k a s := by
  intro s s' h
  cases r with
  | error e => exact h.answered _
  | ok a => exact hk a s s' h

theorem dependsOnAnswers_memRead (b : Burst) {k : List Byte → State → State}
    (hk : ∀ bs, DependsOnAnswers (k bs)) : DependsOnAnswers fun s => memRead b s k := by
  intro s s' h
  have ha' := h.nextAnswer
  refine memRead_elim (P := (SameEnd · (memRead b s' k))) (fun ha => ?_) (fun ha => ?_)
    (fun ds ha hc => ?_) fun ds ha hc => ?_ <;> rw [ha] at ha'
  · rw [memRead_silent k ha']
    exact h.waitingFor _
  · rw [memRead_fail k ha']
    exact (h.requested _).answered _
  · rw [memRead_badCount k ha' hc]
    exact (h.requested _).answered _
  · rw [memRead_ok k ha' hc, h.2.2]
    exact hk _ _ _ (h.requested _)

theorem dependsOnAnswers_memWrite (b : Burst) (bytes : List Byte) {k : State → State}
    (hk : DependsOnAnswers k) : DependsOnAnswers fun s => memWrite b bytes s k := by
  intro s s' h
  have ha' := h.nextAnswer
  refine memWrite_elim (P := (SameEnd · (memWrite b bytes s' k))) (fun ha => ?_) (fun ha => ?_)
    fun ds ha => ?_ <;> rw [ha] at ha'
  · rw [memWrite_silent k ha']
    exact h.waitingFor _
  · rw [memWrite_fail k ha', h.2.2]
    exact ((h.requested _).withRegs _).answered _
  · rw [memWrite_ok k ha', h.2.2]
    exact hk _ _ ((h.requested _).withRegs _)

theorem dependsOnAnswers_writeBack (b : Burst) (f : Byte → Byte) (bs : List Byte) :
    DependsOnAnswers (writeBack b f bs) := dependsOnAnswers_memWrite b _ (dependsOnAnswers_complete _)

theorem dependsOnAnswers_readModifyWrite (b : Burst) (f : Byte → Byte) :
    DependsOnAnswers (readModifyWrite b f) :=
  dependsOnAnswers_memRead b (dependsOnAnswers_writeBack b f)

theorem dependsOnAnswers_afterStClrfRead (sel : Byte) (bs : List Byte) :
    DependsOnAnswers (afterStClrfRead sel bs) := by
  intro s s' h
  simp only [afterStClrfRead]
  split
  · exact dependsOnAnswers_complete _ s s' h
  · exact dependsOnAnswers_writeBack _ _ _ s s' h

/-- Every command, by the operations that it is put together from. -/
theorem exec_dependsOnAnswers (i : Instr) :
    ∃ f, (∀ s, exec i s = .next (f s)) ∧ DependsOnAnswers f := by
  cases i <;> refine ⟨_, fun s => rfl, ?_⟩
  case stClrf =>
    exact dependsOnAnswers_withResult _ fun sel =>
      dependsOnAnswers_memRead _ (dependsOnAnswers_afterStClrfRead sel)
  case sqwOff => exact dependsOnAnswers_readModifyWrite _ _
  case sqwSet | ctlWrite =>
    exact dependsOnAnswers_withResult _ fun _ => dependsOnAnswers_readModifyWrite _ _
  case clkSet | a1Set | a2Set =>
    exact dependsOnAnswers_withResult _ fun l =>
      dependsOnAnswers_memWrite _ l (dependsOnAnswers_complete _)
  case clkRead | a1Read | a2Read =>
    exact dependsOnAnswers_memRead _ fun _ => dependsOnAnswers_withResult _ dependsOnAnswers_complete
  case stRead | ctlRead | tRead =>
    exact dependsOnAnswers_memRead _ fun _ => dependsOnAnswers_complete _
  case bcdUnpack | hourDec | stDec | ctlDec | tDec => exact dependsOnAnswers_complete _
  all_goals exact dependsOnAnswers_withResult _ fun _ => dependsOnAnswers_complete _

/-- Settles O20: both runs are the same function of the state, which depends on the answers only. -/
theorem resultsDependOnlyOnCommandAndAnswers : Obligations.ResultsDependOnlyOnCommandAndAnswers := by
  intro i s s' t t' ha hd hm h h'
  obtain ⟨f, hf, hdep⟩ := exec_dependsOnAnswers i
  cases (hf s).symm.trans h
  cases (hf s').symm.trans h'
  exact hdep s s' ⟨ha, hd, hm⟩

end Sys2Proof.Machine
end

section
/-! PROOFS. The round trips of the codecs (40_bcd.md R204, 41_hour.md R218, R219, 42_clock.md R236,
43_alarm.md R269): what was encoded is decoded again, formula by formula and then through the commands. -/

namespace Sys2Proof.Machine

/-! ## BCD -/

/-- A byte is the BCD of the value it unpacks to exactly when both nibbles are digits. -/
theorem packed_digits_iff (b : Byte) :
    digits b.toNat ≤ 99 ∧ packed (digits b.toNat) = b ↔ b.toNat / 16 ≤ 9 ∧ b.toNat % 16 ≤ 9 := by
  have hb := b.isLt
  have he {h : digits b.toNat ≤ 99} : packed (digits b.toNat) = b ↔
      16 * (digits b.toNat / 10) + digits b.toNat % 10 = b.toNat := by
    rw [← packed_toNat h]
    exact ⟨congrArg _, BitVec.eq_of_toNat_eq⟩
  refine ⟨fun ⟨hle, hp⟩ => ?_, fun hd => ?_⟩
  · have hn := (he (h := hle)).1 hp
    simp only [digits] at hle hn
    omega
  · have hle : digits b.toNat ≤ 99 := by
      rw [digits]
      omega
    refine ⟨hle, (he (h := hle)).2 ?_⟩
    rw [digits]
    omega

theorem byteOf_toNat_of_lt {n : Nat} (h : n < 256) : (byteOf n).toNat = n :=
  (BitVec.toNat_ofNat n 8).trans (Nat.mod_eq_of_lt h)

theorem answered_inj {s : State} {f g : RspFrame} : answered s f = answered s g ↔ f = g :=
  ⟨fun h => congrArg State.rsp h, fun h => by rw [h]⟩

/-- Packing what a byte unpacks to gives the byte, when there is such a packing. -/
theorem exec_bcdPack_digits (b : Byte) (s : State) :
    exec (.bcdPack (byteOf (digits b.toNat))) s = .next (answered s { q1 := b }) ↔
      digits b.toNat ≤ 99 ∧ packed (digits b.toNat) = b := by
  have hx : (byteOf (digits b.toNat)).toNat = digits b.toNat :=
    byteOf_toNat_of_lt (Nat.lt_of_le_of_lt (digits_toNat_le b) (by decide))
  rw [exec_bcdPack]
  by_cases hle : digits b.toNat ≤ 99
  · rw [bcdPack_eq_ok (hx.symm ▸ hle), respond_ok, complete_singleton, hx, Host.Outcome.next.injEq,
      answered_inj, RspFrame.mk.injEq]
    simp [hle]
  · rw [bcdPack_eq_error (hx.symm ▸ Nat.lt_of_not_le hle), respond_outOfRange, rejected,
      Host.Outcome.next.injEq, answered_inj, RspFrame.mk.injEq]
    simp [hle]

/-- Settles O30: the digits of a packed value are the value, and the converse where there are digits. -/
theorem bcdRoundTrip : Obligations.BcdRoundTrip := by
  refine ⟨fun v s t hv h => ?packed, fun b s t h => ?unpacked⟩
  case packed =>
    rw [exec_bcdPack, bcdPack_eq_ok hv, respond_ok, complete_singleton] at h
    cases h
    rw [exec_bcdUnpack]
    simp only [answered_rsp, digits_packed hv, byteOf_toNat]
  case unpacked =>
    rw [exec_bcdUnpack] at h
    cases h
    exact (exec_bcdPack_digits b _).trans (packed_digits_iff b)

/-! ## Hours -/

/-- 41_hour.md R210, R211: the three readings of an encoded hour. -/
theorem readings_hourByte (twelve : Bool) {h : Nat} (hh : h ≤ 23) :
    inTwelveHourForm (hourByte twelve h) = twelve ∧
      shownHour (hourByte twelve h) = (if twelve then hour12 h else h) ∧
      afterNoon (hourByte twelve h) = decide (h ≥ 12) := by
  have : ∀ h < 24, ∀ twelve, inTwelveHourForm (hourByte twelve h) = twelve ∧
      shownHour (hourByte twelve h) = (if twelve then hour12 h else h) ∧
      afterNoon (hourByte twelve h) = decide (h ≥ 12) := by decide
  exact this h (Nat.lt_succ_of_le hh) twelve

/-- 41_hour.md R212: a clock face shows 1 to 12. -/
theorem hour12_bounds {h : Nat} (hh : h ≤ 23) : 1 ≤ hour12 h ∧ hour12 h ≤ 12 := by
  unfold hour12
  split
  · decide
  · split <;> omega

/-- 41_hour.md R212, R213: the inverse mapping. -/
theorem hour24Of_hour12 {h : Nat} (hh : h ≤ 23) : hour24Of (hour12 h) (decide (h ≥ 12)) = h := by
  have : ∀ h < 24, hour24Of (hour12 h) (decide (h ≥ 12)) = h := by decide
  exact this h (Nat.lt_succ_of_le hh)

theorem clockHour_hourByte (twelve : Bool) {h : Nat} (hh : h ≤ 23) :
    clockHour (hourByte twelve h) = h := by
  obtain ⟨hm, hs, ha⟩ := readings_hourByte twelve hh
  rw [clockHour, hm, hs, ha]
  cases twelve with
  | true => exact hour24Of_hour12 hh
  | false => rfl

/-- 30_encoding.md R108: a boolean operand is reported as it was given. -/
theorem flagByte_toNat_eq_one {p : Byte} (h : p.toNat ≤ 1) : flagByte (decide (p.toNat = 1)) = p := by
  refine BitVec.eq_of_toNat_eq ?_
  rcases Nat.le_one_iff_eq_zero_or_eq_one.1 h with h | h <;> rw [h] <;> rfl

theorem flagByte_toNat_le (c : Bool) : (flagByte c).toNat ≤ 1 := by cases c <;> decide

theorem flagByte_toNat (c : Bool) : decide ((flagByte c).toNat = 1) = c := by cases c <;> rfl

/-- HOUR.TO24 of what a clock face shows. -/
theorem exec_hourTo24_hour12 {hour : Byte} (hh : hour.toNat ≤ 23) (s : State) :
    exec (.hourTo24 (byteOf (hour12 hour.toNat)) (flagByte (decide (hour.toNat ≥ 12)))) s =
      .next (answered s { q1 := hour }) := by
  obtain ⟨h1, h12⟩ := hour12_bounds hh
  have hx : (byteOf (hour12 hour.toNat)).toNat = hour12 hour.toNat := byteOf_toNat_of_lt (by omega)
  rw [exec_hourTo24, hourTo24_eq_ok (by rwa [hx]) (by rwa [hx]) (flagByte_toNat_le _), hx,
    flagByte_toNat, hour24Of_hour12 hh, byteOf_toNat, respond_ok, complete_singleton]

/-- Settles O34: the readings of the encoded hour are what HOUR.DISP reports, which HOUR.TO24 maps
back. -/
theorem hourRoundTrip : Obligations.HourRoundTrip := by
  intro mode hour s t u v hm hh ht hu hv
  obtain ⟨hmode, hshown, hpm⟩ := readings_hourByte (decide (mode.toNat = 1)) hh
  rw [exec_hourEnc, hourEnc_eq_ok hm hh, respond_ok, complete_singleton] at ht
  cases ht
  rw [exec_hourDec, hourDec_eq, answered_rsp, hmode, hshown, hpm, flagByte_toNat_eq_one hm,
    complete_eq_answered] at hu
  cases hu
  rw [exec_hourDisp, hourDisp_eq_ok hm hh, respond_ok, complete_eq_answered] at hv
  cases hv
  refine ⟨?_, ?_⟩
  · by_cases h1 : mode.toNat = 1
    · simp [responseOf, h1]
    · simp [responseOf, h1, byteOf_toNat]
  · rintro rfl
    exact exec_hourTo24_hour12 hh _

/-- 41_hour.md R211: the mask keeps all bits but bit 7, and bit 7 is not read. -/
theorem decodeHour_and_7F (b : Byte) : decodeHour (b &&& 0x7F) = decodeHour b := by
  have h6 : bitOf (b &&& 0x7F) 6 = bitOf b 6 := by simp [bitOf]
  have h5 : bitOf (b &&& 0x7F) 5 = bitOf b 5 := by simp [bitOf]
  have hF (m : Byte) (hm : 0x7F &&& m = m) : b &&& 0x7F &&& m = b &&& m := by
    rw [BitVec.and_assoc, hm]
  rw [decodeHour, h6, h5, hF 0x1F rfl, hF 0x3F rfl, decodeHour]

theorem xor_80_and_7F (b : Byte) : (b ^^^ 0x80) &&& 0x7F = b &&& 0x7F := by
  revert b
  exact byte_halves (by decide)

/-- Settles O35: the two bytes are one under the mask. -/
theorem hourBitSevenIsIgnored : Obligations.HourBitSevenIsIgnored := by
  intro b s
  have h : decodeHour (b ^^^ 0x80) = decodeHour b := by
    rw [← decodeHour_and_7F, xor_80_and_7F, decodeHour_and_7F]
  rw [exec_hourDec, exec_hourDec, hourDec, hourDec, h]

/-! ## Clock -/

/-- 42_clock.md R230, R233: the report of the bytes of a valid time. -/
theorem clockReport_image {t : TimeBlock} {mode : Byte} (ht : t.inDomain = true) (hm : mode.toNat ≤ 1) :
    clockReport (packed t.sec.toNat) (packed t.min.toNat) (hourByte (mode.toNat = 1) t.hour.toNat)
        (packed t.dow.toNat) (packed t.date.toNat) (packed t.month.toNat) (packed t.year.toNat) =
      { q1 := t.sec, q2 := t.min, q3 := t.hour, q4 := t.dow, q5 := t.date, q6 := t.month, q7 := t.year,
        q8 := mode,
        q9 := byteOf (if mode.toNat = 1 then hour12 t.hour.toNat else t.hour.toNat),
        q10 := flagByte (decide (t.hour.toNat ≥ 12)) } := by
  obtain ⟨hsec, hmin, hhour, ⟨-, hdow⟩, ⟨-, hdate⟩, ⟨-, hmonth⟩, hyear⟩ := (inDomain_iff t).1 ht
  have back {b : Byte} (h : b.toNat ≤ 99) : BitVec.ofNat 8 (digits (packed b.toNat).toNat) = b := by
    rw [digits_packed h]
    exact byteOf_toNat b
  obtain ⟨hmode, hshown, hpm⟩ := readings_hourByte (decide (mode.toNat = 1)) hhour
  rw [clockReport, back (by omega), back (by omega), back (by omega), back (by omega), back (by omega),
    back hyear, clockHour_hourByte _ hhour, hmode, hshown, hpm, flagByte_toNat_eq_one hm]
  simp [byteOf]

/-- Settles O40: CLK.PARSE reports the bytes that CLK.BUILD gave. -/
theorem clockRoundTrip : Obligations.ClockRoundTrip := by
  intro t mode s u v ht hm hu hv
  rw [exec_clkBuild, clkBuild_ok ht hm, respond_ok, complete_eq_answered] at hu
  cases hu
  have hr := respond_clkParse (packed t.sec.toNat) (packed t.min.toNat)
    (hourByte (mode.toNat = 1) t.hour.toNat) (packed t.dow.toNat) (packed t.date.toNat)
    (packed t.month.toNat) (packed t.year.toNat) (answered s (responseOf (clockImage t (mode.toNat = 1))))
  cases (congrArg Host.Outcome.next hr).symm.trans hv
  rw [clockReport_image ht hm]
  exact ⟨rfl, rfl, rfl, rfl, rfl, rfl, rfl, rfl, rfl⟩

/-! ## Alarms -/

/-- 43_alarm.md R250, R255: the match-mask bit of an encoded value is 0. -/
theorem digits_packed_mod {v : Nat} (h : v ≤ 59) : digits ((packed v).toNat % 128) = v := by
  have hp : (packed v).toNat < 128 := by
    rw [packed_toNat (by omega)]
    omega
  rw [Nat.mod_eq_of_lt hp, digits_packed (by omega)]

theorem clockHour_packed {h : Nat} (hh : h ≤ 23) : clockHour (packed h) = h :=
  clockHour_hourByte false hh

/-- 43_alarm.md R251, R254, R255: the variant and the day or date of an encoded day/date byte. -/
theorem readings_alarmDayByte {v dd : Byte} (hv : v.toNat ≤ 2) (hd : alarmDayInDomain v dd = true) :
    variantCode (alarmDayByte v dd) = v ∧
      alarmDay (alarmDayByte v dd) = if v = 0 then 0 else dd.toNat := by
  rcases variant_cases hv with rfl | rfl | rfl
  · exact ⟨rfl, rfl⟩
  · have hdd : dd.toNat ≤ 31 := (by simpa [alarmDayInDomain] using hd : _ ∧ _).2
    have hb : (alarmDayByte 1 dd).toNat = 16 * (dd.toNat / 10) + dd.toNat % 10 :=
      packed_toNat (by omega)
    rw [variantCode, alarmDay, hb, if_neg (by omega), if_neg (by omega), if_neg (by omega), digits]
    refine ⟨rfl, ?_⟩
    rw [if_neg (by decide)]
    omega
  · have hdd : dd.toNat ≤ 7 := (by simpa [alarmDayInDomain] using hd : _ ∧ _).2
    have hb : (alarmDayByte 2 dd).toNat = 64 + 16 * (dd.toNat / 10) + dd.toNat % 10 :=
      (BitVec.toNat_ofNat _ 8).trans (Nat.mod_eq_of_lt (by omega))
    rw [variantCode, alarmDay, hb, if_neg (by omega), if_pos (by omega), if_neg (by omega), digits]
    refine ⟨rfl, ?_⟩
    rw [if_neg (by decide)]
    omega

/-- 43_alarm.md R262 of the bytes of R260. -/
theorem alarm1Report_image {v sec min hour dd : Byte} (hv : v.toNat ≤ 2) (hs : sec.toNat ≤ 59)
    (hm : min.toNat ≤ 59) (hh : hour.toNat ≤ 23) (hd : alarmDayInDomain v dd = true) :
    alarm1Report (packed sec.toNat) (packed min.toNat) (packed hour.toNat) (alarmDayByte v dd) =
      { q1 := v, q2 := sec, q3 := min, q4 := hour, q5 := if v = 0 then 0 else dd } := by
  obtain ⟨hvar, hday⟩ := readings_alarmDayByte hv hd
  rw [alarm1Report, hvar, hday, digits_packed_mod hs, digits_packed_mod hm, clockHour_packed hh]
  by_cases h0 : v = 0
  · simp [h0]
  · simp only [if_neg h0]
    simp

/-- 43_alarm.md R263 of the bytes of R261. -/
theorem alarm2Report_image {v min hour dd : Byte} (h0 : v ≠ 0) (hv : v.toNat ≤ 2)
    (hm : min.toNat ≤ 59) (hh : hour.toNat ≤ 23) (hd : alarmDayInDomain v dd = true) :
    alarm2Report (packed min.toNat) (packed hour.toNat) (alarmDayByte v dd) =
      { q1 := v, q3 := min, q4 := hour, q5 := dd } := by
  obtain ⟨hvar, hday⟩ := readings_alarmDayByte hv hd
  rw [alarm2Report, hvar, hday, if_neg h0, digits_packed_mod hm, clockHour_packed hh]
  simp

/-- An encoder that raises an error answers its code. -/
theorem respond_error_err (e : ErrorKind) (s : State) : (respond (.error e) s).rsp.err ≠ 0 := by
  rw [respond_error, raise_eq_rejected]
  exact codeOf_ne_zero e

/-- Settles O48: the decoders report the bytes that the encoders gave. -/
theorem alarmRoundTrip : Obligations.AlarmRoundTrip := by
  refine fun v sec min hour dd s t u => ⟨fun ht he hu => ?alarm1, fun ht he hu => ?alarm2⟩
  case alarm1 =>
    rw [exec_a1Enc] at ht
    cases ht
    rcases a1Enc_cases v sec min hour dd with ⟨hr, -⟩ | ⟨hr, hv, hs, hm, hh, hd⟩ <;> rw [hr] at he hu
    · exact absurd he (respond_error_err _ s)
    · cases (congrArg Host.Outcome.next (respond_decodeAlarm1 (packed sec.toNat) (packed min.toNat)
        (packed hour.toNat) (alarmDayByte v dd) _)).symm.trans hu
      exact alarm1Report_image hv hs hm hh hd
  case alarm2 =>
    rw [exec_a2Enc] at ht
    cases ht
    rcases a2Enc_cases v min hour dd with ⟨hr, -⟩ | ⟨hr, -, -⟩ | ⟨hr, h0, hv, hm, hh, hd⟩ <;>
      rw [hr] at he hu
    · exact absurd he (respond_error_err _ s)
    · exact absurd he (respond_error_err _ s)
    · cases (congrArg Host.Outcome.next (respond_decodeAlarm2 (packed min.toNat) (packed hour.toNat)
        (alarmDayByte v dd) _)).symm.trans hu
      exact alarm2Report_image h0 hv hm hh hd

end Sys2Proof.Machine
end

section
/-! PROOFS. The transactions (42_clock.md to 44_status_control.md): a SET command, the reads of the alarms,
the status and the control register, and the read-modify-writes, by the answers of their requests. -/

namespace Sys2Proof.Machine

/-! ## CLK.SET -/

theorem exec_clkSet (t : TimeBlock) (mode : Byte) (s : State) :
    exec (.clkSet t mode) s =
      .next (withResult (clkBuild t mode) s fun bytes => memWrite .clock bytes s (complete [])) := rfl

/-- Settles O38: CLK.BUILD's checks, and the answered ends of the write of its bytes. -/
theorem clockSetResult : Obligations.ClockSetResult := by
  refine ⟨fun h f hop => decode_of_timeBlock_p8 rfl hop rfl rfl,
    fun t mode s => ⟨fun hd => ?rejects, fun ht hm => ⟨fun ds ha => ?writes, fun ha => ?fails⟩⟩⟩
  case rejects => rw [exec_clkSet, clkBuild_error hd, withResult_outOfRange]
  case writes =>
    rw [exec_clkSet, clkBuild_ok ht hm, withResult_ok, memWrite_complete_ok ha]
    rfl
  case fails =>
    rw [exec_clkSet, clkBuild_ok ht hm, withResult_ok, memWrite_fail _ ha]
    rfl

/-! ## A1.READ and A2.READ -/

theorem exec_a1Read_ok {s : State} {d0 d1 d2 d3 : Byte} (ha : nextAnswer s = .ok [d0, d1, d2, d3]) :
    exec .a1Read s =
      .next (answered (requested s (.read .alarm1))
        (alarm1Report (peerByte s.regs 0x07 d0) (peerByte s.regs 0x08 d1)
          (peerByte s.regs 0x09 d2) (peerByte s.regs 0x0A d3))) := by
  rw [exec_read (b := .alarm1) s rfl rfl, memRead_ok _ ha rfl]
  exact congrArg Host.Outcome.next (respond_decodeAlarm1 _ _ _ _ _)

theorem exec_a2Read_ok {s : State} {d0 d1 d2 : Byte} (ha : nextAnswer s = .ok [d0, d1, d2]) :
    exec .a2Read s =
      .next (answered (requested s (.read .alarm2))
        (alarm2Report (peerByte s.regs 0x0B d0) (peerByte s.regs 0x0C d1)
          (peerByte s.regs 0x0D d2))) := by
  rw [exec_read (b := .alarm2) s rfl rfl, memRead_ok _ ha rfl]
  exact congrArg Host.Outcome.next (respond_decodeAlarm2 _ _ _ _)

/-- Settles O47: the answered ends of a read, with the decoder's report of what the registers return. -/
theorem alarmReadResult : Obligations.AlarmReadResult :=
  ⟨fun _ _ hop => decode_of_operands rfl hop rfl, fun _ _ hop => decode_of_operands rfl hop rfl,
    fun s => ⟨fun _ _ _ _ ha => exec_a1Read_ok ha, fun _ _ _ ha => exec_a2Read_ok ha,
      fun ds ha hc => wrongCountRaisesMalformedRegisterData .a1Read s .alarm1 ds rfl rfl ha hc,
      fun ds ha hc => wrongCountRaisesMalformedRegisterData .a2Read s .alarm2 ds rfl rfl ha hc,
      fun ha => ⟨failedReadRaisesTransportFailure .a1Read s .alarm1 rfl rfl ha,
        failedReadRaisesTransportFailure .a2Read s .alarm2 rfl rfl ha⟩⟩⟩

/-! ## ST.READ and CTL.READ -/

/-- 10_state.md R43: the status register is volatile, and reads as its draw. -/
theorem peerBytes_status (m : Memory) (d : Byte) : peerBytes m Burst.status.base [d] = [d] :=
  congrArg (· :: []) (peerByte_volatile rfl m d)

theorem exec_stRead_ok {s : State} {d : Byte} (ha : nextAnswer s = .ok [d]) :
    exec .stRead s = .next (answered (requested s (.read .status)) (statusReport d)) := by
  rw [exec_read (b := .status) s rfl rfl, memRead_ok _ ha rfl,
    peerBytes_status, afterRead, afterStRead, complete_eq_answered,
    statusResults_response]
  rfl

theorem exec_ctlRead_ok {s : State} {d : Byte} (ha : nextAnswer s = .ok [d]) :
    exec .ctlRead s =
      .next (answered (requested s (.read .control)) (controlReport (peerByte s.regs 0x0E d))) := by
  rw [exec_read (b := .control) s rfl rfl, memRead_ok _ ha rfl, afterRead, afterCtlRead,
    complete_eq_answered, controlResults_response]
  rfl

/-- Settles O53: the answered ends of a read, with the report of what the register returns. -/
theorem statusAndControlReadResult : Obligations.StatusAndControlReadResult :=
  ⟨fun _ _ hop => decode_of_operands rfl hop rfl, fun _ _ hop => decode_of_operands rfl hop rfl,
    fun s => ⟨fun _ ha => ⟨exec_stRead_ok ha, exec_ctlRead_ok ha⟩,
      fun ds ha hc => ⟨wrongCountRaisesMalformedRegisterData .stRead s .status ds rfl rfl ha hc,
        wrongCountRaisesMalformedRegisterData .ctlRead s .control ds rfl rfl ha hc⟩,
      fun ha => ⟨failedReadRaisesTransportFailure .stRead s .status rfl rfl ha,
        failedReadRaisesTransportFailure .ctlRead s .control rfl rfl ha⟩⟩⟩

/-! ## The read-modify-writes -/

theorem afterWrite_modify {i : Instr} (hm : i.bursts.map Prod.fst = [false, true]) (bytes : List Byte) :
    afterWrite i bytes = complete bytes := by
  cases i with
  | stClrf | sqwSet | sqwOff | ctlWrite => rfl
  | _ => cases hm

/-- Both requests are answered: the byte made from the byte read is written, and reported. -/
theorem exec_modify_ok {i : Instr} {s : State} {b : Burst} {d : Byte} {ds : List Byte}
    (hn : i.inputError = none) (hb : i.bursts.head? = some (Request.shape (.read b)))
    (hm : i.bursts.map Prod.fst = [false, true]) (ha : nextAnswer s = .ok [d])
    (ha2 : nextAnswer (requested s (.read b)) = .ok ds) {w : Byte}
    (hw : i.rewritten (peerByte s.regs b.base d) = w) :
    exec i s = .next (answered { requested (requested s (.read b)) (.write b [w]) with
      regs := s.regs.put b.base w } { q1 := w }) := by
  rw [(exec_modify hn hb hm ha).2, hw, memWrite_ok _ ha2, afterWrite_modify hm]
  rfl

/-- The write fails: its register is a draw. -/
theorem exec_modify_fail {i : Instr} {s : State} {b : Burst} {d : Byte} (hn : i.inputError = none)
    (hb : i.bursts.head? = some (Request.shape (.read b)))
    (hm : i.bursts.map Prod.fst = [false, true]) (ha : nextAnswer s = .ok [d])
    (ha2 : nextAnswer (requested s (.read b)) = .fail) {w : Byte}
    (hw : i.rewritten (peerByte s.regs b.base d) = w) :
    exec i s = .next (rejected { requested (requested s (.read b)) (.write b [w]) with
      regs := s.regs.forget b.base 1 } 4) := by
  obtain ⟨hc, he⟩ := exec_modify hn hb hm ha
  rw [he, hw, memWrite_fail _ ha2, hc]
  rfl

/-- A command that has no count and no alarm variant, with its operands in their domains. -/
theorem inputError_eq_none {i : Instr} (hc : i.countWrong = false) (hv : i.variantUnknown = false)
    (ht : i.timeOnlyForAlarm2 = false) (hd : i.operandOutOfDomain = false) : i.inputError = none := by
  rw [inputError_of_plain hc hv ht, hd]
  rfl

theorem inputError_eq_outOfRange {i : Instr} (hc : i.countWrong = false) (hv : i.variantUnknown = false)
    (ht : i.timeOnlyForAlarm2 = false) (hd : i.operandOutOfDomain = true) :
    i.inputError = some .outOfRange := by
  rw [inputError_of_plain hc hv ht, hd]
  rfl

/-! ## ST.CLRF -/

theorem stClrf_head (sel : Byte) :
    (Instr.stClrf sel).bursts.head? = some (Request.shape (.read .status)) := by
  rw [Instr.bursts]
  split <;> rfl

/-- 44_status_control.md R291: with nothing selected the byte read is the result. -/
theorem exec_stClrf_zero {s : State} {d : Byte} (ha : nextAnswer s = .ok [d]) :
    exec (.stClrf 0) s = .next (answered (requested s (.read .status)) { q1 := d }) := by
  have hd : clearFlags d 0 = d := BitVec.and_allOnes
  rw [exec_read (b := .status) s rfl rfl, memRead_ok _ ha rfl,
    peerBytes_status, afterRead_stClrf rfl, afterStClrfRead, if_pos rfl,
    List.headD_cons, hd, complete_singleton]

/-- Settles O54: the select operand's domain, and then the answers of the read and of the write. -/
theorem statusClearFlagsResult : Obligations.StatusClearFlagsResult := by
  refine ⟨fun h f hop => decode_of_operands rfl hop rfl, fun sel s => ⟨fun hs => ?rejects, fun hs => ?_⟩⟩
  case rejects =>
    exact inputErrorsComeBeforeAnyAccess (.stClrf sel) s .outOfRange
      (inputError_eq_outOfRange rfl rfl rfl (decide_eq_true hs))
  have hn : (Instr.stClrf sel).inputError = none :=
    inputError_eq_none rfl rfl rfl (decide_eq_false (Nat.not_lt.2 hs))
  refine ⟨fun d h0 ha => ?reports, fun d h0 ha => ?clears, fun ds ha hc => ?badCount, fun ha => ?fails⟩
  case reports =>
    subst h0
    exact exec_stClrf_zero ha
  case clears =>
    have hm : (Instr.stClrf sel).bursts.map Prod.fst = [false, true] := by
      rw [Instr.bursts, if_neg h0]
      rfl
    have hw : (Instr.stClrf sel).rewritten (peerByte s.regs 0x0F d) = d &&& ~~~sel := by
      rw [peerByte_volatile rfl]
      rfl
    exact ⟨fun ds ha2 => exec_modify_ok hn (stClrf_head sel) hm ha ha2 hw,
      fun ha2 => exec_modify_fail hn (stClrf_head sel) hm ha ha2 hw⟩
  case badCount =>
    exact wrongCountRaisesMalformedRegisterData _ s .status ds hn (stClrf_head sel) ha hc
  case fails => exact failedReadRaisesTransportFailure _ s .status hn (stClrf_head sel) ha

/-! ## SQW.SET and SQW.OFF -/

theorem sqwSet_inputError {rate : Byte} (h : rate.toNat ≤ 3) : (Instr.sqwSet rate).inputError = none :=
  inputError_eq_none rfl rfl rfl (decide_eq_false (Nat.not_lt.2 h))

/-- Settles O55: the rate operand's domain, and then the answers of the read and of the write. -/
theorem squareWaveSetResult : Obligations.SquareWaveSetResult := by
  refine ⟨fun h f hop => decode_of_operands rfl hop rfl, fun rate s => ⟨fun hr => ?rejects,
    fun d ds hr ha ha2 => ?writes, fun d hr ha ha2 => ?writeFails, fun ds hr ha hc => ?badCount,
    fun hr ha => ?readFails⟩⟩
  case rejects =>
    exact inputErrorsComeBeforeAnyAccess (.sqwSet rate) s .outOfRange
      (inputError_eq_outOfRange rfl rfl rfl (decide_eq_true hr))
  case writes => exact exec_modify_ok (sqwSet_inputError hr) rfl rfl ha ha2 rfl
  case writeFails => exact exec_modify_fail (sqwSet_inputError hr) rfl rfl ha ha2 rfl
  case badCount =>
    exact wrongCountRaisesMalformedRegisterData _ s .control ds (sqwSet_inputError hr) rfl ha hc
  case readFails => exact failedReadRaisesTransportFailure _ s .control (sqwSet_inputError hr) rfl ha

/-- Settles O56: the answers of the read and of the write. -/
theorem squareWaveOffResult : Obligations.SquareWaveOffResult :=
  ⟨fun _ _ hop => decode_of_operands rfl hop rfl, fun s =>
    ⟨fun _ _ ha ha2 => exec_modify_ok (i := .sqwOff) (b := .control) rfl rfl rfl ha ha2 rfl,
      fun _ ha ha2 => exec_modify_fail (i := .sqwOff) (b := .control) rfl rfl rfl ha ha2 rfl,
      fun ds ha hc => wrongCountRaisesMalformedRegisterData .sqwOff s .control ds rfl rfl ha hc,
      fun ha => failedReadRaisesTransportFailure .sqwOff s .control rfl rfl ha⟩⟩

/-! ## CTL.WRITE -/

theorem ctlWrite_outOfDomain (p1 p2 p3 p4 : Byte) :
    (Instr.ctlWrite p1 p2 p3 p4).operandOutOfDomain = !controlInDomain p1 p2 p3 p4 :=
  control_outOfDomain p1 p2 p3 p4

theorem ctlWrite_inputError {p1 p2 p3 p4 : Byte} (h : controlInDomain p1 p2 p3 p4 = true) :
    (Instr.ctlWrite p1 p2 p3 p4).inputError = none :=
  inputError_eq_none rfl rfl rfl (by rw [ctlWrite_outOfDomain, h]; rfl)

theorem toNat_and_E0 (x : Byte) : (x &&& 0xE0).toNat = 32 * (x.toNat / 32) := by
  revert x
  exact byte_halves (by decide)

/-- 10_state.md R43: the bits [7:5] that a read of the control register gives are the draw's. -/
theorem peerByte_control_div (m : Memory) (d : Byte) :
    (peerByte m 0x0E d).toNat / 32 = d.toNat / 32 := by
  have h := congrArg BitVec.toNat (peerByte_control_high m d)
  rw [toNat_and_E0, toNat_and_E0] at h
  omega

theorem ctlWrite_rewritten (p1 p2 p3 p4 : Byte) (m : Memory) (d : Byte) :
    (Instr.ctlWrite p1 p2 p3 p4).rewritten (peerByte m 0x0E d) =
      BitVec.ofNat 8 (d.toNat / 32 * 32 + (controlImage p1 p2 p3 p4).toNat) := by
  rw [Instr.rewritten, peerByte_control_div]

/-- Settles O57: the operands' domains, and then the answers of the read and of the write. -/
theorem controlWriteResult : Obligations.ControlWriteResult := by
  refine ⟨fun h f hop => decode_of_operands rfl hop rfl, fun p1 p2 p3 p4 s => ⟨fun hd => ?rejects,
    fun d ds hd ha ha2 => ?writes, fun d hd ha ha2 => ?writeFails, fun ds hd ha hc => ?badCount,
    fun hd ha => ?readFails⟩⟩
  case rejects =>
    exact inputErrorsComeBeforeAnyAccess (.ctlWrite p1 p2 p3 p4) s .outOfRange
      (inputError_eq_outOfRange rfl rfl rfl (by rw [ctlWrite_outOfDomain, hd]; rfl))
  case writes =>
    exact exec_modify_ok (ctlWrite_inputError hd) rfl rfl ha ha2 (ctlWrite_rewritten p1 p2 p3 p4 s.regs d)
  case writeFails =>
    exact exec_modify_fail (ctlWrite_inputError hd) rfl rfl ha ha2
      (ctlWrite_rewritten p1 p2 p3 p4 s.regs d)
  case badCount =>
    exact wrongCountRaisesMalformedRegisterData _ s .control ds (ctlWrite_inputError hd) rfl ha hc
  case readFails => exact failedReadRaisesTransportFailure _ s .control (ctlWrite_inputError hd) rfl ha

end Sys2Proof.Machine
end

section
/-! PROOFS. What stays in a register (10_state.md R43, 70_reset_and_hazards.md section 1): a step that cannot
write a register keeps it, so that an alarm that was set, and the control fields that were written, are read
back. -/

namespace Sys2Proof.Machine

/-! ## A late answer keeps the registers that it does not write -/

theorem writeBack_byteAt {b : Burst} {f : Byte → Byte} {bs : List Byte} {s : State} {a : Nat}
    (hc : b.count = 1) (ha : a ≠ b.base) :
    (writeBack b f bs s).regs.byteAt a = s.regs.byteAt a := by
  have hout : ¬ (b.base ≤ a ∧ a < b.base + max b.count [f (bs.headD 0)].length) := by
    rw [hc, List.length_singleton, Nat.max_self]
    omega
  exact memWrite_elim (P := fun t => t.regs.byteAt a = s.regs.byteAt a) (fun _ => rfl)
    (fun _ => Rewrites.outside (.inl rfl) hout) fun _ _ => Rewrites.outside (.inr rfl) hout

theorem respond_regs (r : Except ErrorKind (List Byte)) (s : State) : (respond r s).regs = s.regs := by
  cases r <;> rfl

/-- After its read a command writes only where it writes at all, and with operands in their domains,
whatever the read was. -/
theorem afterRead_byteAt (i : Instr) (bs : List Byte) (s : State) {a : Nat}
    (ha : ¬ (i.inputError = none ∧ i.writesAt a = true)) :
    (afterRead i bs s).regs.byteAt a = s.regs.byteAt a := by
  cases i with
  | sqwOff => exact writeBack_byteAt rfl fun e => ha ⟨rfl, by rw [e]; rfl⟩
  | sqwSet rate =>
    cases hr : checkedRate rate with
    | error e => rw [afterRead, hr]; rfl
    | ok r =>
      have c : Checks (.sqwSet rate) (checkedRate rate) := checks_rate rfl rfl rfl rfl
      rw [afterRead_sqwSet hr]
      exact writeBack_byteAt rfl fun e => ha ⟨c.ok r hr, by rw [e]; rfl⟩
  | ctlWrite p1 p2 p3 p4 =>
    cases hr : checkedControlByte p1 p2 p3 p4 with
    | error e => rw [afterRead, hr]; rfl
    | ok w =>
      have c : Checks (.ctlWrite p1 p2 p3 p4) (checkedControlByte p1 p2 p3 p4) :=
        checks_control rfl rfl rfl (control_outOfDomain _ _ _ _)
      rw [afterRead_ctlWrite hr]
      exact writeBack_byteAt rfl fun e => ha ⟨c.ok w hr, by rw [e]; rfl⟩
  | stClrf select =>
    cases hr : checkedSelect select with
    | error e => rw [afterRead, hr]; rfl
    | ok sel =>
      have c : Checks (.stClrf select) (checkedSelect select) := checks_select rfl rfl rfl rfl
      have hsel : sel = select := by
        by_cases hle : select.toNat ≤ 3
        · rw [checkedSelect_ok hle] at hr
          exact (Except.ok.inj hr).symm
        · cases (checkedSelect_error (Nat.lt_of_not_le hle)).symm.trans hr
      subst hsel
      rw [afterRead_stClrf hr, afterStClrfRead]
      split
      · rfl
      · rename_i h0
        refine writeBack_byteAt rfl fun e => ha ⟨c.ok sel hr, ?_⟩
        rw [Instr.writesAt, Instr.bursts, if_neg h0, e]
        rfl
  | clkRead | a1Read | a2Read => exact congrArg (Memory.byteAt · a) (respond_regs _ s)
  | _ => rfl

theorem afterWrite_regs (i : Instr) (bytes : List Byte) (s : State) :
    (afterWrite i bytes s).regs = s.regs := by cases i <;> rfl

/-- What the answer of a request changes: the range of a write, or what the command writes after its
read. -/
theorem resume_byteAt {i : Instr} {r : Request} {s : State} {a : Nat}
    (ha : ¬ (i.inputError = none ∧ i.writesAt a = true))
    (hr : ∀ b bytes, r = .write b bytes →
      ¬ (b.base ≤ a ∧ a < b.base + max b.count bytes.length)) :
    (resume i r s).regs.byteAt a = s.regs.byteAt a := by
  cases r with
  | read b =>
    exact awaitRead_elim (P := fun t => t.regs.byteAt a = s.regs.byteAt a) (fun _ => rfl) (fun _ => rfl)
      (fun _ _ _ => rfl) fun _ _ _ => afterRead_byteAt i _ (hear s) ha
  | write b bytes =>
    have hout := hr b bytes rfl
    refine awaitWrite_elim (P := fun t => t.regs.byteAt a = s.regs.byteAt a) (fun _ => rfl)
      (fun _ => Rewrites.outside (.inl rfl) hout) fun _ _ => ?_
    rw [afterWrite_regs]
    exact Rewrites.outside (.inr rfl) hout

/-! ## A step keeps the registers that it cannot write -/

theorem regsAfterReset_byteAt {r : Option Request} {m : Memory} {a : Nat}
    (hr : ∀ b bytes, r = some (.write b bytes) →
      ¬ (b.base ≤ a ∧ a < b.base + max b.count bytes.length)) :
    (regsAfterReset r m).byteAt a = m.byteAt a := by
  cases r with
  | none => rfl
  | some r =>
    cases r with
    | read b => rfl
    | write b bytes => exact Rewrites.outside (.inl rfl) (hr b bytes rfl)

theorem step_byteAt {s t : State} {a : Nat} (h : step s = .next t) (ha : ¬ s.mayWrite a) :
    t.regs.byteAt a = s.regs.byteAt a := by
  have late {rest : List HostAction} (hm : s.turnOf .transport rest ∨ s.hostDoes .reset rest)
      (b : Burst) (bytes : List Byte) (hw : s.inFlight = some (.write b bytes)) :
      ¬ (b.base ≤ a ∧ a < b.base + max b.count bytes.length) :=
    fun ⟨hlo, hhi⟩ => ha (.inr (.inl ⟨rest, b, bytes, hm, hw, hlo, hhi⟩))
  have runs {rest : List HostAction} {i : Instr}
      (hm : s.turnOf .block rest ∨ s.turnOf .transport rest) (hp : s.phase = .busy)
      (hd : decode s.hasTemperature s.cmd = .ok i) : ¬ (i.inputError = none ∧ i.writesAt a = true) :=
    fun ⟨hn, hw⟩ => ha (.inl ⟨rest, i, hm, hp, hd, hn, hw⟩)
  rcases step_cases h with ⟨f, rest, -, rfl⟩ | ⟨rest, -, rfl⟩ | ⟨rest, hm, rfl⟩ | ⟨rest, hm, hb⟩ |
    ⟨rest, hm, rfl⟩ | ⟨rest, hm, rfl⟩
  · rfl
  · rfl
  · exact regsAfterReset_byteAt (late (.inr hm))
  · rcases blockMoves_cases hb with ⟨-, rfl⟩ | ⟨hp, -, i, hd, he⟩ | ⟨-, -, -, rfl⟩
    · rfl
    · exact (exec_ends he).byteAt (runs (.inl hm) hp hd)
    · rfl
  · rcases transportMoves_cases { s with host := rest } with ht | ⟨i, r, hp, hw, hd, ht⟩
    · rw [ht]
    · rw [ht]
      exact resume_byteAt (runs (.inr hm) hp hd) fun b bytes e => late (.inl hm) b bytes (e ▸ hw)
  · refine byteAt_filter _ _ fun c hc => decide_eq_true fun hv => ?_
    exact ha (.inr (.inr ⟨rest, hm, hc ▸ hv⟩))

theorem Reaches.byteAt {P : State → Prop} {s u : State} {a : Nat} (h : Reaches P s u)
    (hP : ∀ x, P x → ¬ x.mayWrite a) : u.regs.byteAt a = s.regs.byteAt a := by
  induction h with
  | here s => rfl
  | step hs ht _ ih => exact ih.trans (step_byteAt ht (hP _ hs))

/-! ## A command without error has written -/

/-- The registers after a command that ended without error: it writes none, or they have received the
bytes of its SET, or the byte of its read-modify-write. -/
theorem Ends.regs_of_noError {i : Instr} {s t : State} (h : Ends i s t) (hp : t.phase = .idle)
    (he : t.rsp.err = 0) :
    i.inputError = none ∧
      ((∀ a, i.writesAt a = false) ∨
       (∃ b bytes, i.setRequest = some (.write b bytes) ∧ t.regs = s.regs.putBytes b.base bytes) ∨
       ∃ b d, i.bursts.head? = some (Request.shape (.read b)) ∧
         t.regs = s.regs.put b.base (i.rewritten (peerByte s.regs b.base d))) := by
  cases h with
  | input e => exact absurd he (codeOf_ne_zero e)
  | pure f hn hq => exact ⟨hn, .inl fun a => by rw [Instr.writesAt, bursts_of_pure hq]; rfl⟩
  | readDone b ds f hn _ hb => exact ⟨hn, .inl fun a => by rw [Instr.writesAt, hb]; rfl⟩
  | writeDone b bytes ds hn _ _ _ _ hs => exact ⟨hn, .inr (.inl ⟨b, bytes, hs, rfl⟩)⟩
  | modifyDone b d w ds hn _ hb _ _ _ hr =>
    exact ⟨hn, .inr (.inr ⟨b, d, by rw [hb]; rfl, congrArg _ hr⟩)⟩
  | readBadCount => exact absurd he (by decide : (3 : Byte) ≠ 0)
  | readFail | writeFail | modifyFail => exact absurd he (by decide : (4 : Byte) ≠ 0)
  | readSilent | writeSilent | modifySilent => cases hp

/-- What a read returns depends on what is known of the register alone (10_state.md R43). -/
theorem peerByte_congr {m m' : Memory} {a : Nat} (h : m'.byteAt a = m.byteAt a) (d : Byte) :
    peerByte m' a d = peerByte m a d := by rw [peerByte, peerByte, h]

/-- A stable register within a burst that was written reads as its byte of the burst. -/
theorem peerByte_putBytes {m m' : Memory} {a i : Nat} {bs : List Byte} (hi : i < bs.length)
    (hc : classOf (a + i) = .stable) (h : m'.byteAt (a + i) = (m.putBytes a bs).byteAt (a + i))
    (d : Byte) : peerByte m' (a + i) d = bs.getD i 0 :=
  peerByte_stable hc (h.trans (byteAt_putBytes_inside bs m a i hi)) d

/-! ## The alarms -/

/-- An A1.SET that ended without error had its operands in their domains, and its bytes were written. -/
theorem a1Set_done {v sec min hour dd : Byte} {s t : State}
    (h : exec (.a1Set v sec min hour dd) s = .next t) (hp : t.phase = .idle) (he : t.rsp.err = 0) :
    (v.toNat ≤ 2 ∧ sec.toNat ≤ 59 ∧ min.toNat ≤ 59 ∧ hour.toNat ≤ 23 ∧ alarmDayInDomain v dd = true) ∧
      t.regs = s.regs.putBytes 0x07 (alarm1Image v sec min hour dd) := by
  obtain ⟨hn, hw | ⟨b, bytes, hs, hr⟩ | ⟨b, d, hb, -⟩⟩ := (exec_ends h).regs_of_noError hp he
  · cases hw 0x07
  · cases hs
    refine ⟨?_, hr⟩
    rcases a1Enc_cases v sec min hour dd with ⟨hx, -⟩ | ⟨-, hd⟩
    · cases hn.symm.trans ((a1_inputError_eq v sec min hour dd (.inr rfl)).1 _ hx)
    · exact hd
  · cases hb

/-- An A2.SET that ended without error had its operands in their domains, and its bytes were written. -/
theorem a2Set_done {v min hour dd : Byte} {s t : State}
    (h : exec (.a2Set v min hour dd) s = .next t) (hp : t.phase = .idle) (he : t.rsp.err = 0) :
    (v ≠ 0 ∧ v.toNat ≤ 2 ∧ min.toNat ≤ 59 ∧ hour.toNat ≤ 23 ∧ alarmDayInDomain v dd = true) ∧
      t.regs = s.regs.putBytes 0x0B (alarm2Image v min hour dd) := by
  obtain ⟨hn, hw | ⟨b, bytes, hs, hr⟩ | ⟨b, d, hb, -⟩⟩ := (exec_ends h).regs_of_noError hp he
  · cases hw 0x0B
  · cases hs
    refine ⟨?_, hr⟩
    have herr := (a2_inputError_eq v min hour dd (.inr rfl)).1
    rcases a2Enc_cases v min hour dd with ⟨hx, -⟩ | ⟨hx, -, -⟩ | ⟨-, hd⟩
    · cases hn.symm.trans (herr _ hx)
    · cases hn.symm.trans (herr _ hx)
    · exact hd
  · cases hb

/-- Settles O49: a step keeps the registers that it cannot write, so the alarm's bytes are read back, and
their decoding is the alarm. -/
theorem alarmSetThenReadReturnsIt : Obligations.AlarmSetThenReadReturnsIt := by
  refine ⟨fun s t a h ha => step_byteAt h ha, fun v sec min hour dd s t u =>
    ⟨fun d0 d1 d2 d3 h hp he hr ha => ?alarm1, fun d0 d1 d2 h hp he hr ha => ?alarm2⟩⟩
  case alarm1 =>
    obtain ⟨⟨hv, hs, hm, hh, hd⟩, ht⟩ := a1Set_done h hp he
    have back (i : Nat) (hi : i < 4) (d : Byte) :
        peerByte u.regs (0x07 + i) d = (alarm1Image v sec min hour dd).getD i 0 :=
      peerByte_putBytes hi (classOf_stable (by omega))
        (ht ▸ hr.byteAt fun x hx => hx _ (by omega) (by omega)) d
    rw [exec_a1Read_ok ha, back 0 (by decide), back 1 (by decide), back 2 (by decide),
      back 3 (by decide)]
    exact congrArg (fun f => Host.Outcome.next (answered (requested u (.read .alarm1)) f))
      (alarm1Report_image hv hs hm hh hd)
  case alarm2 =>
    obtain ⟨⟨h0, hv, hm, hh, hd⟩, ht⟩ := a2Set_done h hp he
    have back (i : Nat) (hi : i < 3) (d : Byte) :
        peerByte u.regs (0x0B + i) d = (alarm2Image v min hour dd).getD i 0 :=
      peerByte_putBytes hi (classOf_stable (by omega))
        (ht ▸ hr.byteAt fun x hx => hx _ (by omega) (by omega)) d
    rw [exec_a2Read_ok ha, back 0 (by decide), back 1 (by decide), back 2 (by decide)]
    exact congrArg (fun f => Host.Outcome.next (answered (requested u (.read .alarm2)) f))
      (alarm2Report_image h0 hv hm hh hd)

/-! ## The control register -/

/-- A CTL.WRITE that ended without error had its operands in their domains, and its byte was written. -/
theorem ctlWrite_done {p1 p2 p3 p4 : Byte} {s t : State}
    (h : exec (.ctlWrite p1 p2 p3 p4) s = .next t) (hp : t.phase = .idle) (he : t.rsp.err = 0) :
    controlInDomain p1 p2 p3 p4 = true ∧ ∃ d : Byte, t.regs = s.regs.put 0x0E
      (BitVec.ofNat 8 (d.toNat / 32 * 32 + (controlImage p1 p2 p3 p4).toNat)) := by
  obtain ⟨hn, hw | ⟨b, bytes, hs, -⟩ | ⟨b, d, hb, hr⟩⟩ := (exec_ends h).regs_of_noError hp he
  · cases hw 0x0E
  · cases hs
  · obtain rfl : b = .control := Burst.eq_of_shape (Option.some.inj hb.symm)
    refine ⟨?_, d, hr.trans (congrArg _ (ctlWrite_rewritten p1 p2 p3 p4 s.regs d))⟩
    cases hd : controlInDomain p1 p2 p3 p4 with
    | true => rfl
    | false =>
      cases hn.symm.trans (inputError_eq_outOfRange rfl rfl rfl
        (by rw [ctlWrite_outOfDomain, hd]; rfl))

/-- 44_status_control.md R282, R283: the report of a byte whose bits [4:0] were built from the operands. -/
theorem controlReport_of_image {p1 p2 p3 p4 x : Byte} (hd : controlInDomain p1 p2 p3 p4 = true)
    (hx : x.toNat % 32 = (controlImage p1 p2 p3 p4).toNat) :
    controlReport x = { q1 := p1, q2 := p2, q3 := p3, q4 := p4, q5 := x } := by
  obtain ⟨h1, h2, h3, h4⟩ := (controlInDomain_iff p1 p2 p3 p4).1 hd
  rw [controlImage, BitVec.toNat_ofNat] at hx
  have e1 : x.toNat / 4 % 2 = p1.toNat := by omega
  have e2 : x.toNat % 2 = p2.toNat := by omega
  have e3 : x.toNat / 2 % 2 = p3.toNat := by omega
  have e4 : x.toNat / 8 % 4 = p4.toNat := by omega
  rw [controlReport, e1, e2, e3, e4, flagByte_toNat_eq_one h1, flagByte_toNat_eq_one h2,
    flagByte_toNat_eq_one h3, BitVec.ofNat_toNat, BitVec.setWidth_eq]

/-- Settles O58: the byte written is kept, its bits [4:0] are read back under drawn bits [7:5], and their
decoding is the four fields. -/
theorem controlWriteThenReadReturnsIt : Obligations.ControlWriteThenReadReturnsIt := by
  intro p1 p2 p3 p4 d s t u h hp he hr ha
  obtain ⟨hd, dw, ht⟩ := ctlWrite_done h hp he
  have hlt := controlImage_lt hd
  have hdlt := d.isLt
  have hx : (peerByte u.regs 0x0E d).toNat =
      d.toNat / 32 * 32 + (controlImage p1 p2 p3 p4).toNat := by
    rw [peerByte_congr (hr.byteAt fun x hx => hx), ht, peerByte_put_control, withControlBits_toNat] <;>
      rw [toNat_and_1F, BitVec.toNat_ofNat] <;> omega
  have hbyte : peerByte u.regs 0x0E d =
      BitVec.ofNat 8 (d.toNat / 32 * 32 + (controlImage p1 p2 p3 p4).toNat) := by
    rw [← hx, BitVec.ofNat_toNat, BitVec.setWidth_eq]
  rw [exec_ctlRead_ok ha, controlReport_of_image hd (by omega), hbyte]

end Sys2Proof.Machine
end
